-- ==== Sys2Proof/Word.lean ====
section
/-! DEFINITION. The word types of HBP: bytes, 32-bit words, bit strings (spec 00_scope.md R12, R16, R17). -/

namespace Sys2Proof

/-- One byte, 8 bits (R16); also a symbol, "one byte value (0–255)" (R12). -/
abbrev Byte := BitVec 8

/-- A 32-bit register or command word (R22, R90). -/
abbrev Word := BitVec 32

/-- A bit string, first bit first (R17). A code is one: its first bit is the branch taken at the root. -/
abbrev Bits := List Bool

end Sys2Proof
end

