-- ==== Sys2Proof/Syntax.lean ====
section
/-! DEFINITION. The seven commands of HBP (spec 30_encoding.md R90). No command has an operand field (R91). -/

namespace Sys2Proof

/-- The commands, one constructor for each row of spec/opcode_table.json. -/
inductive Instr where
  /-- no effect (R255) -/
  | nop
  /-- abandon the call, return to `Start` (R256) -/
  | clear
  /-- load the tree description in `TBUF` into `TM`, derive `CT` (R150) -/
  | ldtree
  /-- pack `IBUF` symbols with `CT` into raw packed bytes (R180) -/
  | pack
  /-- decode raw packed bytes in `IBUF` by walking `TM` (R200) -/
  | unpack
  /-- whole encode call: tree from `TBUF`, symbols from `IBUF`, container to `OBUF` (R222) -/
  | encode
  /-- whole decode call: container in `IBUF`, original bytes to `OBUF` (R230) -/
  | decode
  deriving DecidableEq, Repr, Inhabited

end Sys2Proof
end

