-- ==== Sys2Proof/WellFormed.lean ====
section
/-! DEFINITION. What is well-formed: commands (always: R91), command words (R90, R93), and the shape of a
host register access (R66). -/

namespace Sys2Proof

/-- A command has no operands (R91), so every command is well-formed. -/
def Instr.wf : Instr → Bool
  | .nop | .clear | .ldtree | .pack | .unpack | .encode | .decode => true

/-- A command word is well-formed when bits 31:8 are 0 and the opcode is 0x00 to 0x06 (R90, R93). -/
def wfCommandWord (w : Word) : Bool :=
  w.extractLsb' 8 24 == 0#24 && decide ((w.extractLsb' 0 8).toNat < 7)

/-- A register access is 32 bits wide at an offset that is a multiple of 4 (R66). -/
def wfRegAccess (width offset : Nat) : Bool :=
  width == 32 && offset % 4 == 0

end Sys2Proof
end

