-- ==== Sys2Proof/Decode.lean ====
section
/-! DEFINITION. The command-word decoder, total, and the encoder (spec 30_encoding.md R90, R93). -/

namespace Sys2Proof

/-- Why a command word is reserved (R93). -/
inductive DecodeError where
  /-- bits 31:8 are not all 0: reserved whatever the low byte is (R23, R93). Safe: it raises `IllegalCommandError`. -/
  | reservedUpperBits
  /-- the opcode is 0x07 to 0xFF (R93). Safe: it raises `IllegalCommandError`. -/
  | reservedOpcode
  deriving DecidableEq, Repr

/-- The opcode column of R90. -/
def opcodeOf : Instr → BitVec 8
  | .nop    => 0x00#8
  | .clear  => 0x01#8
  | .ldtree => 0x02#8
  | .pack   => 0x03#8
  | .unpack => 0x04#8
  | .encode => 0x05#8
  | .decode => 0x06#8

/-- The command an opcode selects (R90), or none for 0x07 to 0xFF. -/
def instrOfOpcode (op : BitVec 8) : Option Instr :=
  match op.toNat with
  | 0 => some .nop
  | 1 => some .clear
  | 2 => some .ldtree
  | 3 => some .pack
  | 4 => some .unpack
  | 5 => some .encode
  | 6 => some .decode
  | _ => none

/-- "`if w[31:8] ≠ 0 then reserved else match w[7:0]`" (R90). -/
def decode (w : Word) : Except DecodeError Instr :=
  if w.extractLsb' 8 24 ≠ 0#24 then .error .reservedUpperBits
  else match instrOfOpcode (w.extractLsb' 0 8) with
    | some i => .ok i
    | none => .error .reservedOpcode

/-- The command word of a command: field `zero` in bits 31:8, `opcode` in bits 7:0 (R90). -/
def encode (i : Instr) : Word := 0#24 ++ opcodeOf i

/-- The word the host's table gives: `nbits` bits of `w`, every bit above them 0 (log 24). -/
def tableWord (nbits w : Nat) : Nat := w % 2 ^ nbits

/-- The command read from a row of spec/opcode_table.json whose bits are `w`. A command word has 32 bits (R90). -/
def decodeTableWord (nbits w : Nat) : Option Instr :=
  if tableWord nbits w < 2 ^ 32 then (decode (BitVec.ofNat 32 (tableWord nbits w))).toOption else none

end Sys2Proof
end

