-- ==== Sys2Proof/Machine/Data.lean ====
section
/-! DEFINITION. The plain data types the state of HBP is made of (spec 10_state.md, 30_encoding.md R110). -/

namespace Sys2Proof.Machine

/-- The three host-addressable byte buffers (R36, R37, R38). -/
inductive Buffer where
  | ibuf | tbuf | obuf
  deriving DecidableEq, Repr, Inhabited

/-- The seven registers of R22. -/
inductive Reg where
  | cmd | status | ilen | tlen | olen | vbits | symcnt
  deriving DecidableEq, Repr, Inhabited

/-- The call state machine of R24. Values 5 to 7 are "never held" and not representable (U21, log 14). -/
inductive Phase where
  | start | header | treeReady | transcoding | done
  deriving DecidableEq, Repr, Inhabited

/-- The error kinds of R281. Codes 7 to 15 are "never produced" and not representable (U21, log 14). -/
inductive ErrCode where
  /-- 1: zero-length input of `PACK` or `ENCODE` (R284) -/
  | emptyInput
  /-- 2: malformed container, description or valid-bit count (R285) -/
  | malformedContainer
  /-- 3: the bit stream ends before all symbols are decoded (R288) -/
  | truncatedStream
  /-- 4: the walk meets a missing child (R289) -/
  | corruptCode
  /-- 5: an input symbol has no code (R286) -/
  | missingCode
  /-- 6: reserved word, or `PACK`/`UNPACK` outside `TreeReady` (R287) -/
  | illegalCommand
  deriving DecidableEq, Repr, Inhabited

/-- A record of `TM` (R32): `kind` is the constructor; `sym` is meaningful only in a leaf, `left` and `right`
(node indices) only in an internal node. -/
inductive Node where
  | leaf (sym : Byte)
  | internal (left right : Nat)
  deriving DecidableEq, Repr, Inhabited

/-- `TM`: the node records in use, in index order; `NNODES` is the length (R32, log 10). -/
abbrev TreeMem := List Node

/-- `CT`: 256 entries (R34). An entry is `none` when `valid = 0`; its `len` is the length of the code (log 11). -/
abbrev CodeTable := Vector (Option Bits) 256

/-- The `seen` bitmap of R40. -/
abbrev SeenMap := Vector Bool 256

/-- The working registers of R40. `sp` is the length of `stack`, `plen` that of `path` (log 22). -/
structure Work where
  rp      : Nat
  wp      : Nat
  acc     : Byte
  accn    : Nat
  k       : Nat
  nvalid  : Nat
  cur     : Nat
  emitted : Nat
  wCnt    : Nat
  wVb     : Nat
  p0      : Nat
  stack   : List Nat
  seen    : SeenMap
  path    : Bits
  deriving DecidableEq, Repr, Inhabited

/-- All working registers cleared, as at the issue of a command (R41). -/
def Work.cleared : Work :=
  { rp := 0, wp := 0, acc := 0, accn := 0, k := 0, nvalid := 0, cur := 0, emitted := 0, wCnt := 0, wVb := 0,
    p0 := 0, stack := [], seen := Vector.replicate 256 false, path := [] }

/-- A host access (R65, R66, R110). `width` is in bits and `offset` in bytes from `HBP_MAP`; an access of another
width than 32, or at an offset that is no multiple of 4, can be written here and is refused by the machine (R66). -/
inductive HostAccess where
  | regWrite (width offset : Nat) (v : Word)
  | regRead (width offset : Nat)
  | bufWrite (b : Buffer) (i : Nat) (v : Byte)
  | bufRead (b : Buffer) (i : Nat)
  /-- read `STATUS` until `BUSY = 0` (R110) -/
  | wait
  /-- hardware reset (R330, R331) -/
  | reset
  deriving DecidableEq, Repr

/-- What one host read returned. -/
inductive HostSeen where
  | reg (offset : Nat) (v : Word)
  | byte (b : Buffer) (i : Nat) (v : Byte)
  deriving DecidableEq, Repr

/-- The host agent (R15) as plain data: the accesses it will still make, in program order, and what its reads
returned, latest first (log 1, log 17). -/
structure HostSide where
  script : List HostAccess
  seen   : List HostSeen
  deriving DecidableEq, Repr

/-- Plain counters that index the free values of Config; the model's own (log 6, log 8, log 9). -/
structure FreeIndex where
  /-- hardware resets so far: a reset makes every buffer byte unspecified (R50) -/
  resets : Nat
  /-- times the contents of `OBUF` became unspecified: a reset, or the issue of a command (R38, R250) -/
  epoch  : Nat
  /-- `STATUS` reads made while `BUSY = 1` (R261) -/
  draws  : Nat
  deriving DecidableEq, Repr

end Sys2Proof.Machine
end

