-- ==== Sys2Proof/Config.lean ====
section
/-! DEFINITION. Parameters and free values of HBP (spec 00_scope.md R12 to R14, 93_implementation_defined.md). -/

namespace Sys2Proof.Config

open Sys2Proof.Machine

/-- `ALPHABET`: distinct symbols at most (R12). -/
def alphabet : Nat := 256
/-- `MAX_NODES` = 2·256 − 1 (R13). -/
def maxNodes : Nat := 511
/-- `MAX_CODE_LEN`, bits (R13). -/
def maxCodeLen : Nat := 255
/-- `TBUF_CAP` = `TREE_DESC_MAX`, bytes (R13, R14). -/
def tbufCap : Nat := 767
/-- The container header: `original_length` (4) and `last_byte_valid_bits` (1), the "minimum header size" (R95). -/
def headerSize : Nat := 5

/-- The capacities the source does not fix and the model takes as arguments (R14): at most 2^32 − 1 by type. They
stand in State, where no step changes them (log 3). -/
structure Caps where
  ibuf : Fin (2 ^ 32)
  obuf : Fin (2 ^ 32)
  deriving DecidableEq, Repr

/-- R14's lower bounds: 5 ≤ `IBUF_CAP`, 1 ≤ `OBUF_CAP`. -/
def Caps.wf (c : Caps) : Bool := decide (5 ≤ c.ibuf.val) && decide (1 ≤ c.obuf.val)

/-- The largest capacities R14 admits; the capacities of `State.reset` (DESIGN CHOICE, log 3). -/
def Caps.largest : Caps := { ibuf := ⟨4294967295, by decide⟩, obuf := ⟨4294967295, by decide⟩ }

/-- FREE VALUE: the byte a host read of an unspecified buffer byte returns (R38, R260, U12 to U14; log 6). It depends
on the buffer, on how often its contents became unspecified, and on the index. -/
opaque freeByte : Buffer → Nat → Nat → Byte

/-- FREE VALUE: `ERR` (4 bits) and `PHASE` (3 bits) as a `STATUS` read returns them while `BUSY = 1` (R261, U15; log 8). -/
opaque freeBusyFields : Nat → BitVec 4 × BitVec 3

/-- FREE VALUE: the working registers between commands (U16; log 9). -/
opaque freeWork : Nat → Work

end Sys2Proof.Config
end

