-- ==== Sys2Proof/Machine/State.lean ====
section
/-! DEFINITION. The state of HBP, what a step can stop on, and the state after reset (spec 10_state.md R20 to R57). -/

namespace Sys2Proof.Machine

/-- All of the machine's state. The first block is the spec's; `caps` are R14's parameters; `host` and `free` are the
model's own (log 1, log 3, log 6). -/
structure State where
  /-- `STATUS.BUSY` (R25) -/
  busy   : Bool
  /-- `STATUS.ERR` (R25, R281); `none` is code 0 -/
  err    : Option ErrCode
  /-- `STATUS.PHASE` (R24, R25) -/
  phase  : Phase
  /-- R26 -/
  ilen   : BitVec 32
  /-- `TLEN[9:0]` (R27) -/
  tlen   : BitVec 10
  /-- R28 -/
  olen   : BitVec 32
  /-- `VBITS[3:0]` (R29) -/
  vbits  : BitVec 4
  /-- R30 -/
  symcnt : BitVec 32
  /-- `TM` and `NNODES` (R32) -/
  tm     : TreeMem
  /-- `CT` (R34) -/
  ct     : CodeTable
  /-- R36: the bytes written since reset, by rising index -/
  ibuf   : List Host.Cell
  /-- R37: the bytes written since reset, by rising index -/
  tbuf   : List Host.Cell
  /-- R38: the bytes the last command wrote, by rising index; every other byte is unspecified -/
  obuf   : List Host.Cell
  /-- R40 -/
  work   : Work
  /-- `IBUF_CAP`, `OBUF_CAP` (R14) -/
  caps   : Config.Caps
  /-- the host agent (R15) -/
  host   : HostSide
  /-- indexes of the free values -/
  free   : FreeIndex
  deriving DecidableEq, Repr

/-- What stops the machine with a fault: nothing. HBP's errors are next states (R283), and every input the spec does not
admit is refused (93_implementation_defined.md: "No entry has the treatment stuck"). -/
inductive Fault where
  deriving DecidableEq, Repr

/-- The machine refuses: an input the spec puts outside the admitted behaviour. -/
inductive Refusal where
  /-- Raised by an arm of `exec` that has no meaning yet. Safe: nothing can be proved of it. -/
  | notModelled (mnemonic : String)
  /-- Raised by a host register access that is not 32 bits wide (R66, U9). Safe. -/
  | accessWidth (width : Nat)
  /-- Raised by a host register access at an offset that is no multiple of 4 (R66, U9). Safe. -/
  | accessMisaligned (offset : Nat)
  /-- Raised by a host access other than a read of `STATUS` while `BUSY = 1` (R261, R340, U7). Safe. -/
  | accessWhileBusy
  /-- Raised by a step with no host access pending in a state with `BUSY = 1`: between steps the command-atomic level
  has no such state (R15, R261). Safe (log 15). -/
  | commandInProgress
  /-- Raised by a host buffer access at an index at or above the buffer's capacity (R65, R72, U8). Safe. -/
  | noSuchByte (b : Buffer) (i : Nat)
  /-- Raised by a command issued with `ILEN > IBUF_CAP` (R26, R72, U8). Safe. -/
  | inputBeyondCapacity
  /-- Raised by a command whose result would exceed `OBUF_CAP` (R72, U8). Safe. -/
  | resultBeyondCapacity
  /-- Raised by a command whose valid prefix covers a byte the host has not written since reset (R335, U14). Safe. -/
  | unwrittenByte (b : Buffer) (i : Nat)
  deriving DecidableEq, Repr

/-- The host side after reset: nothing pending, nothing read (DESIGN CHOICE, log 1). -/
def HostSide.idle : HostSide := { script := [], seen := [] }

/-- `CT` with every `valid = 0` (R41, R50). -/
def CodeTable.empty : CodeTable := Vector.replicate 256 none

/-- The state after hardware reset (R50, R330): every register 0, `PHASE = Start`, `TM` and `CT` invalid, no buffer
byte with a value. `work` is a DESIGN CHOICE (log 9), `caps` too (log 3). -/
def State.reset : State :=
  { busy := false, err := none, phase := .start, ilen := 0, tlen := 0, olen := 0, vbits := 0, symcnt := 0,
    tm := [], ct := CodeTable.empty, ibuf := [], tbuf := [], obuf := [], work := Work.cleared,
    caps := Config.Caps.largest, host := HostSide.idle, free := { resets := 0, epoch := 0, draws := 0 } }

end Sys2Proof.Machine
end

