-- ==== Sys2Proof/Machine/Ops.lean ====
section
/-! DEFINITION. The named operations of HBP over buffers, tables and the state: one-byte buffer access, issue,
per-call initialisation, raising an error, completion (spec 20_memory.md, 45_control.md, 60_exceptions.md). -/

namespace Sys2Proof.Machine

/-! ## Buffers: a list of (index, byte) in rising order; an unlisted byte has no value -/

/-- The canonical form: indices strictly rising. No listed entry can equal what an unlisted index reads as, since that is no value. -/
abbrev Memory.wf (m : List Host.Cell) : Prop := m.Pairwise (fun x y => x.1 < y.1)

/-- The byte at an index, or none when nothing has given it a value. -/
def Memory.read : List Host.Cell → Nat → Option Byte
  | [], _ => none
  | (k, v) :: m, i => if k = i then some v else Memory.read m i

/-- `MemWrite(buf, i, 1, v)` (R18): exactly one byte at one index (R65). -/
def Memory.write : List Host.Cell → Nat → Byte → List Host.Cell
  | [], i, v => [(i, v)]
  | (k, u) :: m, i, v =>
    if i < k then (i, v) :: (k, u) :: m
    else if i = k then (i, v) :: m
    else (k, u) :: Memory.write m i v

/-- One-byte writes at rising indices from `i` (R69, R80). -/
def Memory.writeBytes (m : List Host.Cell) (i : Nat) : List Byte → List Host.Cell
  | [] => m
  | v :: vs => Memory.writeBytes (Memory.write m i v) (i + 1) vs

/-- The `n` bytes from index `i`, read at rising indices (R69, R80), or the first index that has no value (R335). -/
def Memory.readBytes (m : List Host.Cell) : Nat → Nat → Except Nat (List Byte)
  | _, 0 => .ok []
  | i, n + 1 =>
    match Memory.read m i with
    | none => .error i
    | some v => (Memory.readBytes m (i + 1) n).map (v :: ·)

/-- The stored bytes of a buffer. -/
def State.buffer (s : State) : Buffer → List Host.Cell
  | .ibuf => s.ibuf
  | .tbuf => s.tbuf
  | .obuf => s.obuf

/-- The capacity of a buffer in bytes (R14, R36 to R38). -/
def State.capacity (s : State) : Buffer → Nat
  | .ibuf => s.caps.ibuf.val
  | .tbuf => Config.tbufCap
  | .obuf => s.caps.obuf.val

/-- Which set of free bytes a buffer's unspecified bytes are drawn from: they stay the same until the contents become
unspecified again, so that every read is idempotent (R67; log 6). -/
def State.freeIndex (s : State) : Buffer → Nat
  | .ibuf => s.free.resets
  | .tbuf => s.free.resets
  | .obuf => s.free.epoch

/-- The byte a host read returns: the byte stored, or a free value where it is unspecified (R260). -/
def State.byteAt (s : State) (b : Buffer) (i : Nat) : Byte :=
  (Memory.read (s.buffer b) i).getD (Config.freeByte b (s.freeIndex b) i)

/-! ## The tables -/

/-- `CT[s]`: the code of a symbol, or none when `CT[s].valid = 0` (R34). -/
def CodeTable.code (ct : CodeTable) (s : Byte) : Option Bits := ct[s.toNat]'(by have := s.isLt; omega)

/-- `CT[s] := {valid = 1, len = |c|, code = c}` (R161). -/
def CodeTable.set (ct : CodeTable) (s : Byte) (c : Bits) : CodeTable :=
  Vector.set ct s.toNat (some c) (by have := s.isLt; omega)

/-- `seen[s]` (R40). -/
def SeenMap.has (m : SeenMap) (s : Byte) : Bool := m[s.toNat]'(by have := s.isLt; omega)

/-- `seen[s] := 1` (R151). -/
def SeenMap.add (m : SeenMap) (s : Byte) : SeenMap := Vector.set m s.toNat true (by have := s.isLt; omega)

/-- `seen[0..255] := 0` (R151). -/
def SeenMap.none : SeenMap := Vector.replicate 256 false

/-! ## How a command ends early -/

/-- Why a command's remaining steps do not run. -/
inductive Stop where
  /-- `raise E` (R283): a next state -/
  | raise (e : ErrCode)
  /-- the command is outside the admitted behaviour (R72, R335): a refusal -/
  | refuse (r : Refusal)
  deriving DecidableEq, Repr

/-- `raise E` inside a command's steps. -/
def throwErr {α : Type} (e : ErrCode) : Except Stop α := .error (.raise e)

/-- The command is not admitted. -/
def refuseCmd {α : Type} (r : Refusal) : Except Stop α := .error (.refuse r)

/-- The valid prefix of a buffer, `buf[0 .. n − 1]`; a prefix that covers a byte never written is refused (R335; log 5). -/
def State.prefixOf (s : State) (b : Buffer) (n : Nat) : Except Stop (List Byte) :=
  match Memory.readBytes (s.buffer b) 0 n with
  | .ok d => .ok d
  | .error i => refuseCmd (.unwrittenByte b i)

/-- `ILEN ≤ IBUF_CAP`, for every command that reads `IBUF` (R26, R72). -/
abbrev State.inputFits (s : State) : Prop := s.ilen.toNat ≤ s.caps.ibuf.val

/-- Result length `≤ OBUF_CAP` (R72). -/
abbrev State.resultFits (s : State) (n : Nat) : Prop := n ≤ s.caps.obuf.val

/-- A result that does not fit is not admitted (R72; log 4). -/
def State.admitResult (s : State) (n : Nat) : Except Stop Unit :=
  if s.resultFits n then .ok () else refuseCmd .resultBeyondCapacity

/-! ## Issue, phases, completion, error -/

/-- At issue of any command other than `NOP`: `BUSY <- 1`, `ERR <- 0`, `OLEN <- 0`, and `OBUF` is unspecified from that
moment (R250). -/
def State.issue (s : State) : State :=
  { s with busy := true, err := none, olen := 0, obuf := [], free := { s.free with epoch := s.free.epoch + 1 } }

/-- `PHASE <- p` (R18). -/
def State.setPhase (s : State) (p : Phase) : State := { s with phase := p }

/-- `NNODES <- 0`, every `CT[s].valid <- 0` (R41, R253). -/
def State.dropTree (s : State) : State := { s with tm := [], ct := CodeTable.empty }

/-- Clear all working registers of R40, as at the issue of a command (R41). -/
def State.clearWork (s : State) : State := { s with work := Work.cleared }

/-- Between commands the working registers hold any value (U16; log 9). -/
def State.scrambleWork (s : State) : State := { s with work := Config.freeWork s.free.epoch }

/-- Per-call initialisation: working registers cleared, `TM` and `CT` invalid (R41). -/
def State.startCall (s : State) : State := s.clearWork.dropTree

/-- `TM[..]`, `CT` loaded and `PHASE <- TreeReady` (R150, R221). -/
def State.loadTree (s : State) (tm : TreeMem) (ct : CodeTable) : State :=
  { s with tm := tm, ct := ct, phase := .treeReady }

/-- `MemWrite(OBUF, j, 1, r[j])` for every `j`, then `OLEN <- |r|` (R180, R200, R222, R230). -/
def State.putResult (s : State) (r : List Byte) : State :=
  { s with obuf := Memory.writeBytes s.obuf 0 r, olen := BitVec.ofNat 32 r.length }

/-- `VBITS <- vb`, `SYMCNT <- ILEN`, as `PACK` and `ENCODE` write them on success (R29, R30). -/
def State.putPackCounts (s : State) (vb : Nat) : State :=
  { s with vbits := BitVec.ofNat 4 vb, symcnt := s.ilen }

/-- The end of a transcoding: `PHASE <- Done`, `TM` and `CT` invalid (R253). -/
def State.endCall (s : State) : State := (s.setPhase .done).dropTree.scrambleWork

/-- `BUSY <- 0` (R251). -/
def State.complete (s : State) : State := { s with busy := false }

/-- TAKING AN EXCEPTION, `raise E` (R283): the remaining steps do not run, `ERR <- c`, `OLEN <- 0`, `PHASE <- Done`,
`TM` and `CT` invalid (R253), `BUSY <- 0`, `OBUF` unspecified. Nothing is saved and control goes nowhere. There is no
return from an exception: the next command is the return (R262, R300). -/
def State.raise (s : State) (e : ErrCode) : State :=
  { ((s.setPhase .done).dropTree.scrambleWork) with err := some e, olen := 0, obuf := [], busy := false }

/-- How every command but `NOP` runs (R250, R251): issue, its own steps, completion; an error it raises ends it (R283). -/
def runCommand (body : State → Except Stop State) (s : State) : Host.Outcome State Fault Refusal :=
  match body s.issue with
  | .ok t => .next t.complete
  | .error (.raise e) => .next (s.issue.raise e)
  | .error (.refuse r) => .refused r

/-! ## Host registers -/

/-- The register at a byte offset (R22); offsets 0x1C and above are none. -/
def regAt (offset : Nat) : Option Reg :=
  match offset / 4 with
  | 0 => some .cmd
  | 1 => some .status
  | 2 => some .ilen
  | 3 => some .tlen
  | 4 => some .olen
  | 5 => some .vbits
  | 6 => some .symcnt
  | _ => none

/-- The byte offset of a register, 4 × number (R22). -/
def Reg.offset : Reg → Nat
  | .cmd => 0x00
  | .status => 0x04
  | .ilen => 0x08
  | .tlen => 0x0C
  | .olen => 0x10
  | .vbits => 0x14
  | .symcnt => 0x18

/-- A host write to a register other than `CMD` (R259): `STATUS`, `OLEN` and what is no register ignore it. -/
def State.writeReg (s : State) (r : Option Reg) (v : Word) : State :=
  match r with
  | some .ilen => { s with ilen := v }
  | some .tlen => { s with tlen := v.extractLsb' 0 10 }
  | some .vbits => { s with vbits := v.extractLsb' 0 4 }
  | some .symcnt => { s with symcnt := v }
  | some .cmd => s
  | some .status => s
  | some .olen => s
  | none => s

/-- A host write of one buffer byte (R260): `OBUF` ignores it. -/
def State.writeBuffer (s : State) (b : Buffer) (i : Nat) (v : Byte) : State :=
  match b with
  | .ibuf => { s with ibuf := Memory.write s.ibuf i v }
  | .tbuf => { s with tbuf := Memory.write s.tbuf i v }
  | .obuf => s

/-- The host records what a read returned; no other state changes (R67, R258; log 17). -/
def State.saw (s : State) (x : HostSeen) : State :=
  { s with host := { s.host with seen := x :: s.host.seen } }

/-- Hardware reset (R330, R331): the state of R50. The capacities are the implementation's and the host is outside the
block, so both stay; the buffer bytes become unspecified anew (log 19). -/
def State.hardReset (s : State) : State :=
  { State.reset with
    caps := s.caps, host := s.host,
    free := { s.free with resets := s.free.resets + 1, epoch := s.free.epoch + 1 } }

end Sys2Proof.Machine
end

