-- ==== Sys2Proof/Machine/Operands.lean ====
section
/-! DEFINITION. Operand assembly: byte order, bit order, valid-bit counts (spec 00_scope.md R17, 20_memory.md R60, R61,
30_encoding.md R96, R97, 43_unpack.md R202). -/

namespace Sys2Proof.Machine

/-- `BE32(n)` = `[n[31:24], n[23:16], n[15:8], n[7:0]]` (R16). -/
def be32 (n : Word) : List Byte :=
  [n.extractLsb' 24 8, n.extractLsb' 16 8, n.extractLsb' 8 8, n.extractLsb' 0 8]

/-- `original_length = c[0]·2^24 + c[1]·2^16 + c[2]·2^8 + c[3]` (R96). -/
def originalLength (c0 c1 c2 c3 : Byte) : Nat :=
  c0.toNat * 2 ^ 24 + c1.toNat * 2 ^ 16 + c2.toNat * 2 ^ 8 + c3.toNat

/-- The 8 bits of a byte in stream order, most significant first (R61). -/
def byteBits (v : Byte) : Bits :=
  [v.getLsbD 7, v.getLsbD 6, v.getLsbD 5, v.getLsbD 4, v.getLsbD 3, v.getLsbD 2, v.getLsbD 1, v.getLsbD 0]

/-- `StreamBit(P, k) = P[k div 8][7 − (k mod 8)]` (R17). -/
def streamBit (p : List Byte) (k : Nat) : Bool := (p.getD (k / 8) 0).getLsbD (7 - k % 8)

/-- All stream bits of a packed byte sequence, in order. -/
def streamBits (p : List Byte) : Bits := p.flatMap byteBits

/-- `NValid(N, vb)`: 0 when `N = 0` (then `vb` is not looked at), else `8·(N − 1) + vb` (R202). -/
def nValid (n vb : Nat) : Nat := if n = 0 then 0 else 8 * (n - 1) + vb

/-- The valid stream bits of a packed sequence: the first `NValid` ones. -/
def validBits (p : List Byte) (vb : Nat) : Bits := (streamBits p).take (nValid p.length vb)

/-- The valid-bit count is outside 1 to 8 and there is at least one packed byte (R201). -/
def badValidBits (n vb : Nat) : Bool := decide (1 ≤ n) && (decide (vb < 1) || decide (8 < vb))

/-- `VB(T) = ((T − 1) mod 8) + 1` (R97, R184). -/
def lastValidBits (t : Nat) : Nat := (t - 1) % 8 + 1

/-- The byte whose bits, most significant first, are `b 0 … b 7`: the sum over `m` of `b m · 2^(7 − m)` (R181). -/
def byteOf (b : Nat → Bool) : Byte :=
  BitVec.ofNat 8 (((List.range 8).map fun m => (b m).toNat * 2 ^ (7 - m)).sum)

end Sys2Proof.Machine
end

