-- ==== Sys2Proof/Machine/Flags.lean ====
section
/-! DEFINITION. The status register: its fields, codes and what a read returns (spec 10_state.md R24, R25, R43,
60_exceptions.md R281). HBP has no arithmetic condition codes (R43). -/

namespace Sys2Proof.Machine

/-- The number of an error (R281). -/
def ErrCode.code : ErrCode → BitVec 4
  | .emptyInput => 1
  | .malformedContainer => 2
  | .truncatedStream => 3
  | .corruptCode => 4
  | .missingCode => 5
  | .illegalCommand => 6

/-- `STATUS.ERR`: 0 when the last command raised no error (R25). -/
def errField (e : Option ErrCode) : BitVec 4 :=
  match e with
  | none => 0
  | some c => c.code

/-- The number of a phase (R24). -/
def Phase.code : Phase → BitVec 3
  | .start => 0
  | .header => 1
  | .treeReady => 2
  | .transcoding => 3
  | .done => 4

/-- `STATUS`: `PHASE` in bits 10:8, `ERR` in bits 7:4, `BUSY` in bit 0, every other bit reads 0 (R25). -/
def statusWord (phase : BitVec 3) (err : BitVec 4) (busy : Bool) : Word :=
  0#21 ++ phase ++ err ++ 0#3 ++ BitVec.ofBool busy

/-- A read of `STATUS` with `BUSY = 0` (R25, R258). -/
def State.status (s : State) : Word := statusWord s.phase.code (errField s.err) s.busy

/-- A read of `STATUS` while `BUSY = 1`: `BUSY` reads 1, `ERR` and `PHASE` any value (R261; log 8). -/
def State.busyStatus (s : State) : Word :=
  statusWord (Config.freeBusyFields s.free.draws).2 (Config.freeBusyFields s.free.draws).1 true

/-- A host read of a register with `BUSY = 0`: unassigned bits 0, `CMD` and what is no register 0 (R22, R258). -/
def State.readReg (s : State) : Option Reg → Word
  | some .cmd => 0
  | some .status => s.status
  | some .ilen => s.ilen
  | some .tlen => s.tlen.setWidth 32
  | some .olen => s.olen
  | some .vbits => s.vbits.setWidth 32
  | some .symcnt => s.symcnt
  | none => 0

end Sys2Proof.Machine
end

