-- ==== Sys2Proof/Machine/Tree.lean ====
section
/-! DEFINITION. Trees, tree descriptions, `ParseTree`, `DeriveCodes` and `LDTREE` (spec 41_tree_and_table.md,
30_encoding.md R98 to R101, 10_state.md R31 to R35). -/

namespace Sys2Proof.Machine

/-! ## Trees as the source has them -/

/-- A full binary tree: a leaf with one symbol, or an internal node with two children (R31). -/
inductive Tree where
  | leaf (sym : Byte)
  | internal (l r : Tree)
  deriving DecidableEq, Repr

/-- The leaf symbols, left to right. -/
def Tree.symbols : Tree → List Byte
  | .leaf s => [s]
  | .internal l r => l.symbols ++ r.symbols

/-- "Every leaf corresponds to exactly one distinct symbol" (R31). -/
abbrev Tree.distinct (t : Tree) : Prop := t.symbols.Nodup

/-- The number of nodes. -/
def Tree.size : Tree → Nat
  | .leaf _ => 1
  | .internal l r => 1 + l.size + r.size

/-- The depth of the deepest leaf. -/
def Tree.depth : Tree → Nat
  | .leaf _ => 0
  | .internal l r => 1 + max l.depth r.depth

/-- `Ser`: pre-order, tag 0x00 internal, tag 0x01 leaf and then its symbol (R98). -/
def Tree.ser : Tree → List Byte
  | .leaf s => [0x01#8, s]
  | .internal l r => 0x00#8 :: (l.ser ++ r.ser)

/-- The records of a tree in `TM`, numbered in pre-order from `n` (R32). -/
def Tree.records : Tree → Nat → TreeMem
  | .leaf s, _ => [.leaf s]
  | .internal l r, n => .internal (n + 1) (n + 1 + l.size) :: (l.records (n + 1) ++ r.records (n + 1 + l.size))

/-- The leaves with their paths from the root, 0 for left and 1 for right (R163), left to right. -/
def Tree.paths : Tree → Bits → List (Byte × Bits)
  | .leaf s, p => [(s, p)]
  | .internal l r, p => l.paths (p ++ [false]) ++ r.paths (p ++ [true])

/-- The code of every symbol: the path, and the single bit 0 in the degenerate tree (R163, R164). -/
def Tree.codes : Tree → List (Byte × Bits)
  | .leaf s => [(s, [false])]
  | .internal l r => (Tree.internal l r).paths []

/-! ## ParseTree -/

/-- A leaf after its tag byte (R151): its symbol byte, which must be there and not seen before (R155). The answer gives the
node's index, the bytes after it, and `TM` and `seen` with it. -/
def parseLeaf (bs : List Byte) (tm : TreeMem) (seen : SeenMap) : Except Stop (Nat × List Byte × TreeMem × SeenMap) :=
  match bs with
  | [] => throwErr .malformedContainer
  | s :: rest =>
    if seen.has s then throwErr .malformedContainer
    else .ok (tm.length, rest, tm ++ [.leaf s], seen.add s)

/-- `ParseNode` (R151). `bs` are the bytes from `p` up to `e`; the answer is as for `parseLeaf`. The fuel is only the
recursion's measure: every node takes at least one byte, so one more than the number of bytes is enough. -/
def parseNode : Nat → List Byte → TreeMem → SeenMap → Except Stop (Nat × List Byte × TreeMem × SeenMap)
  | 0, _, _, _ => throwErr .malformedContainer
  | _ + 1, [], _, _ => throwErr .malformedContainer
  | fuel + 1, tag :: bs, tm, seen =>
    if tag = 0x01#8 then parseLeaf bs tm seen
    else if tag = 0x00#8 then do
      let n := tm.length
      let (l, rest1, tm1, seen1) ← parseNode fuel bs (tm ++ [.internal 0 0]) seen
      let (r, rest2, tm2, seen2) ← parseNode fuel rest1 tm1 seen1
      .ok (n, rest2, tm2.set n (.internal l r), seen2)
    else throwErr .malformedContainer

/-- `ParseTree(buf, a, e)` (R151) over the bytes `buf[a .. e − 1]`: `TM` and the bytes after the description. -/
def parseTree (bs : List Byte) : Except Stop (TreeMem × List Byte) := do
  let (_, rest, tm, _) ← parseNode (bs.length + 1) bs [] SeenMap.none
  .ok (tm, rest)

/-! ## DeriveCodes -/

/-- `Visit(n, path)` (R161). The fuel bounds the depth. -/
def visit (tm : TreeMem) : Nat → Nat → Bits → CodeTable → CodeTable
  | 0, _, _, ct => ct
  | fuel + 1, n, path, ct =>
    match (tm[n]? : Option Node) with
    | some (.leaf s) => ct.set s path
    | some (.internal l r) => visit tm fuel r (path ++ [true]) (visit tm fuel l (path ++ [false]) ct)
    | none => ct

/-- `DeriveCodes()` (R161, R164). -/
def deriveCodes (tm : TreeMem) : CodeTable :=
  match (tm[0]? : Option Node) with
  | some (.leaf s) => CodeTable.empty.set s [false]
  | _ => visit tm tm.length 0 [] CodeTable.empty

/-- `LoadTree(buf, a, e)` (R221): `ParseTree` and then `DeriveCodes`. -/
def loadTreeFrom (bs : List Byte) : Except Stop (TreeMem × CodeTable × List Byte) := do
  let (tm, rest) ← parseTree bs
  .ok (tm, deriveCodes tm, rest)

/-- A description that must fill its bytes exactly, as in `TBUF`: bytes left after it belong to no field and make it
malformed (R153). Also answers the bytes. -/
def loadWhole (d : List Byte) : Except Stop (TreeMem × CodeTable × List Byte) := do
  let (tm, ct, rest) ← loadTreeFrom d
  if rest = [] then .ok (tm, ct, d) else throwErr .malformedContainer

/-- The tree description in `TBUF`, as `LDTREE` and `ENCODE` load it: `TLEN > 767` is malformed before any byte is read
(R152). -/
def State.loadTbuf (s : State) : Except Stop (TreeMem × CodeTable × List Byte) :=
  if Config.tbufCap < s.tlen.toNat then throwErr .malformedContainer
  else do
    let d ← s.prefixOf .tbuf s.tlen.toNat
    loadWhole d

/-! ## LDTREE -/

/-- The steps of `LDTREE` after its issue: per-call initialisation, `PHASE <- Header`, the tree loaded (R150). -/
def ldtreeSteps (s : State) : Except Stop State := do
  let (tm, ct, _) ← (s.startCall.setPhase .header).loadTbuf
  .ok ((s.startCall.setPhase .header).loadTree tm ct).scrambleWork

/-- `LDTREE` (R150). -/
def execLdtree (s : State) : Host.Outcome State Fault Refusal := runCommand ldtreeSteps s

end Sys2Proof.Machine
end

