-- ==== Sys2Proof/Machine/Pack.lean ====
section
/-! DEFINITION. `PackBits` and `PACK` (spec 42_pack.md). -/

namespace Sys2Proof.Machine

/-- Some symbol of the input has no code, `CT[s].valid = 0` (R183). -/
def missesCode (ct : CodeTable) (d : List Byte) : Bool := d.any fun s => (ct.code s).isNone

/-- `S = CT[d_0].code ++ … ++ CT[d_{n−1}].code`, the logical bit stream (R102, R181). -/
def codeStream (ct : CodeTable) (d : List Byte) : Bits := d.flatMap fun s => (ct.code s).getD []

/-- `P[j]`: stream bits `8j … 8j + 7`, most significant first, 0 past the end of the stream (R181). -/
def packedByte (bits : Bits) (j : Nat) : Byte := byteOf fun m => bits.getD (8 * j + m) false

/-- The packed bytes: `ceil(T / 8)` of them (R181, R186). -/
def packedBytes (bits : Bits) : List Byte := (List.range ((bits.length + 7) / 8)).map (packedByte bits)

/-- `PackBits(d, CT)`: the packed bytes and `VB(T)` (R181, R184). -/
def packBits (ct : CodeTable) (d : List Byte) : List Byte × Nat :=
  (packedBytes (codeStream ct d), lastValidBits (codeStream ct d).length)

/-- The symbols tested in input order (R183), then packed (R181). -/
def packSymbols (ct : CodeTable) (d : List Byte) : Except Stop (List Byte × Nat) :=
  if missesCode ct d then throwErr .missingCode else .ok (packBits ct d)

/-- `PACK` in `Transcoding`: the symbols of `IBUF` are packed, the result goes to `OBUF`, and the call is over (R180). -/
def State.packInput (s : State) : Except Stop State := do
  let d ← s.prefixOf .ibuf s.ilen.toNat
  let (p, vb) ← packSymbols s.ct d
  s.admitResult p.length
  .ok ((s.putResult p).putPackCounts vb).endCall

/-- The steps of `PACK` after its issue (R180). The input's length is tested first: beyond `IBUF_CAP` the command is not
admitted (R72; log 4). -/
def packSteps (s : State) : Except Stop State :=
  if ¬s.inputFits then refuseCmd .inputBeyondCapacity
  else if s.phase ≠ .treeReady then throwErr .illegalCommand
  else if s.ilen.toNat = 0 then throwErr .emptyInput
  else (s.clearWork.setPhase .transcoding).packInput

/-- `PACK` (R180). -/
def execPack (s : State) : Host.Outcome State Fault Refusal := runCommand packSteps s

end Sys2Proof.Machine
end

