-- ==== Sys2Proof/Machine/Unpack.lean ====
section
/-! DEFINITION. `UnpackBits`, the Huffman decoder, and `UNPACK` (spec 43_unpack.md). -/

namespace Sys2Proof.Machine

/-- The degenerate tree: bit 0 emits the lone symbol, bit 1 is no symbol's code (R205). The arguments are the valid bits
not yet consumed and the symbols still owed; the count is tested before the bit bound (R204). -/
def walkLeaf (sym : Byte) : Bits → Nat → Except Stop (List Byte)
  | _, 0 => .ok []
  | [], _ + 1 => throwErr .truncatedStream
  | b :: bs, n + 1 => if b then throwErr .corruptCode else (walkLeaf sym bs n).map (sym :: ·)

/-- The walk (R203): bit 0 goes to the left child, bit 1 to the right; at a leaf its symbol is emitted and the walk
returns to the root. A missing child raises `CorruptCodeError`, the source's "defensive check" (R207, R289; log 20). -/
def walkTree (tm : TreeMem) : Nat → Bits → Nat → Except Stop (List Byte)
  | _, _, 0 => .ok []
  | _, [], _ + 1 => throwErr .truncatedStream
  | cur, b :: bs, n + 1 =>
    match (tm[cur]? : Option Node) with
    | some (.internal l r) =>
      match (tm[if b then r else l]? : Option Node) with
      | some (.leaf s) => (walkTree tm 0 bs n).map (s :: ·)
      | some (.internal _ _) => walkTree tm (if b then r else l) bs (n + 1)
      | none => throwErr .corruptCode
    | some (.leaf _) => throwErr .corruptCode
    | none => throwErr .corruptCode

/-- `UnpackBits(P, N, vb, cnt, TM)` (R203): the valid-bit count is checked first (R201), then `cnt` symbols are decoded
from the valid bits; what is left over is ignored (R206). -/
def unpackBits (tm : TreeMem) (p : List Byte) (vb cnt : Nat) : Except Stop (List Byte) :=
  if badValidBits p.length vb then throwErr .malformedContainer
  else match (tm[0]? : Option Node) with
    | some (.leaf s) => walkLeaf s (validBits p vb) cnt
    | _ => walkTree tm 0 (validBits p vb) cnt

/-- `UNPACK` in `Transcoding`: the walk, the result to `OBUF`, and the call is over (R200). -/
def State.unpackInput (s : State) : Except Stop State := do
  let p ← s.prefixOf .ibuf s.ilen.toNat
  let out ← unpackBits s.tm p s.vbits.toNat s.symcnt.toNat
  .ok (s.putResult out).endCall

/-- The steps of `UNPACK` after its issue (R200). An input or a result that does not fit is not admitted (R72; log 4). The
valid-bit count is tested before any byte is read (R201; log 4). -/
def unpackSteps (s : State) : Except Stop State :=
  if ¬s.inputFits then refuseCmd .inputBeyondCapacity
  else if ¬s.resultFits s.symcnt.toNat then refuseCmd .resultBeyondCapacity
  else if s.phase ≠ .treeReady then throwErr .illegalCommand
  else if badValidBits s.ilen.toNat s.vbits.toNat then throwErr .malformedContainer
  else (s.clearWork.setPhase .transcoding).unpackInput

/-- `UNPACK` (R200). -/
def execUnpack (s : State) : Host.Outcome State Fault Refusal := runCommand unpackSteps s

end Sys2Proof.Machine
end

