-- ==== Sys2Proof/Machine/Container.lean ====
section
/-! DEFINITION. The container codec: `ENCODE` and `DECODE` (spec 44_container.md, 30_encoding.md R95 to R97). -/

namespace Sys2Proof.Machine

/-- `FrameContainer(n, vb, D, P) = BE32(n) ++ [vb] ++ D ++ P` (R223). -/
def frameContainer (n : Word) (vb : Nat) (d p : List Byte) : List Byte :=
  be32 n ++ [BitVec.ofNat 8 vb] ++ d ++ p

/-- `ENCODE` with its tree loaded, in `Transcoding`; `d` is the tree description (R222). -/
def State.encodeInput (s : State) (d : List Byte) : Except Stop State := do
  let x ← s.prefixOf .ibuf s.ilen.toNat
  let (p, vb) ← packSymbols s.ct x
  s.admitResult (frameContainer s.ilen vb d p).length
  .ok ((s.putResult (frameContainer s.ilen vb d p)).putPackCounts vb).endCall

/-- `ENCODE` in `Header`: the description in `TBUF` is loaded (R222). -/
def State.encodeHeader (s : State) : Except Stop State := do
  let (tm, ct, d) ← s.loadTbuf
  ((s.loadTree tm ct).setPhase .transcoding).encodeInput d

/-- The steps of `ENCODE` after its issue, in the order of tests of R225 (R222; log 4). -/
def encodeSteps (s : State) : Except Stop State :=
  if ¬s.inputFits then refuseCmd .inputBeyondCapacity
  else if s.ilen.toNat = 0 then throwErr .emptyInput
  else (s.startCall.setPhase .header).encodeHeader

/-- `ENCODE` (R222). -/
def execEncode (s : State) : Host.Outcome State Fault Refusal := runCommand encodeSteps s

/-- What a container holds: `original_length`, `last_byte_valid_bits`, the loaded tree, the packed bytes (R95, R231). -/
structure Container where
  wCnt   : Nat
  wVb    : Nat
  tm     : TreeMem
  ct     : CodeTable
  packed : List Byte
  deriving DecidableEq, Repr

/-- The bytes after the header, split: the tree is loaded, then the valid-bit field tested when there are packed bytes
(R201, R231). -/
def parseBody (n : Nat) (vb : Nat) (b : List Byte) : Except Stop Container := do
  let (tm, ct, p) ← loadTreeFrom b
  if badValidBits p.length vb then throwErr .malformedContainer
  else .ok { wCnt := n, wVb := vb, tm := tm, ct := ct, packed := p }

/-- `ParseContainer` (R231) over the bytes of the container. -/
def parseContainer (c : List Byte) : Except Stop Container :=
  match c with
  | c0 :: c1 :: c2 :: c3 :: c4 :: b => parseBody (originalLength c0 c1 c2 c3) c4.toNat b
  | _ => throwErr .malformedContainer

/-- `DECODE` with its container split, in `Transcoding` (R230). -/
def State.decodeInput (s : State) (k : Container) : Except Stop State := do
  s.admitResult k.wCnt
  let out ← unpackBits s.tm k.packed k.wVb k.wCnt
  .ok (s.putResult out).endCall

/-- `DECODE` in `Header`: the container is read and split (R230, R231). -/
def State.decodeHeader (s : State) : Except Stop State := do
  let c ← s.prefixOf .ibuf s.ilen.toNat
  let k ← parseContainer c
  ((s.loadTree k.tm k.ct).setPhase .transcoding).decodeInput k

/-- The steps of `DECODE` after its issue (R230): a container shorter than the header is malformed before a byte of it is
read (R231); every malformed test comes before the walk (R238; log 4). -/
def decodeSteps (s : State) : Except Stop State :=
  if ¬s.inputFits then refuseCmd .inputBeyondCapacity
  else if s.ilen.toNat < Config.headerSize then throwErr .malformedContainer
  else (s.startCall.setPhase .header).decodeHeader

/-- `DECODE` (R230). -/
def execDecode (s : State) : Host.Outcome State Fault Refusal := runCommand decodeSteps s

end Sys2Proof.Machine
end

