-- ==== Sys2Proof/Machine/Control.lean ====
section
/-! DEFINITION. `NOP`, `CLEAR`, the reserved command words and the host's accesses (spec 45_control.md). -/

namespace Sys2Proof.Machine

/-- `NOP` (R255): nothing is written; in particular `ERR` and a loaded tree stay. -/
def execNop (s : State) : Host.Outcome State Fault Refusal := .next s

/-- The steps of `CLEAR` after its issue (R256). -/
def clearSteps (s : State) : Except Stop State := .ok (s.startCall.setPhase .start)

/-- `CLEAR` (R256). -/
def execClear (s : State) : Host.Outcome State Fault Refusal := runCommand clearSteps s

/-- A reserved command word (R93, R257): issued like any other, it raises `IllegalCommandError`. -/
def execReserved (s : State) : Host.Outcome State Fault Refusal :=
  runCommand (fun _ => throwErr .illegalCommand) s

/-- What is not a 32-bit access at a multiple of 4 is refused (R66; log 12). -/
def regAccessRefusal (width offset : Nat) : Option Refusal :=
  if width ≠ 32 then some (.accessWidth width)
  else if offset % 4 ≠ 0 then some (.accessMisaligned offset)
  else none

/-- A host register read (R258); while `BUSY = 1` only `STATUS` may be read (R261, R340). -/
def hostRegRead (width offset : Nat) (s : State) : Host.Outcome State Fault Refusal :=
  match regAccessRefusal width offset with
  | some r => .refused r
  | none =>
    if s.busy then
      if regAt offset = some .status then
        .next (({ s with free := { s.free with draws := s.free.draws + 1 } } : State).saw (.reg offset s.busyStatus))
      else .refused .accessWhileBusy
    else .next (s.saw (.reg offset (s.readReg (regAt offset))))

/-- A host write to a register other than `CMD` (R259). -/
def hostRegWrite (offset : Nat) (v : Word) (s : State) : Host.Outcome State Fault Refusal :=
  if s.busy then .refused .accessWhileBusy else .next (s.writeReg (regAt offset) v)

/-- A host buffer write (R260). An index at or above the capacity is not admitted (R65, R72). -/
def hostBufWrite (b : Buffer) (i : Nat) (v : Byte) (s : State) : Host.Outcome State Fault Refusal :=
  if s.busy then .refused .accessWhileBusy
  else if i < s.capacity b then .next (s.writeBuffer b i v)
  else .refused (.noSuchByte b i)

/-- A host buffer read (R260). -/
def hostBufRead (b : Buffer) (i : Nat) (s : State) : Host.Outcome State Fault Refusal :=
  if s.busy then .refused .accessWhileBusy
  else if i < s.capacity b then .next (s.saw (.byte b i (s.byteAt b i)))
  else .refused (.noSuchByte b i)

/-- `WAIT` (R110): one read of `STATUS`; it is the next access again while `BUSY = 1` (log 17). -/
def hostWait (s : State) : Host.Outcome State Fault Refusal :=
  if s.busy then hostRegRead 32 (Reg.offset .status) { s with host := { s.host with script := .wait :: s.host.script } }
  else hostRegRead 32 (Reg.offset .status) s

/-- Hardware reset, at any time (R330, R331). -/
def hostReset (s : State) : Host.Outcome State Fault Refusal := .next s.hardReset

/-- A step with no host access pending: the block is idle with all state held (R312; log 15). -/
def idle (s : State) : Host.Outcome State Fault Refusal :=
  if s.busy then .refused .commandInProgress else .next s

/-- The state once its next host access is taken from the script. -/
def State.takeAccess (s : State) : State := { s with host := { s.host with script := s.host.script.tail } }

end Sys2Proof.Machine
end

