-- ==== Sys2Proof/Machine/Issue.lean ====
section
/-! DEFINITION. A host access, a write to `CMD` among them (spec 10_state.md R23, 45_control.md R250). -/

namespace Sys2Proof.Machine

/-- A write of `w` to `CMD` while `BUSY = 0` issues the command of `w`, or raises `IllegalCommandError` when `w` is
reserved (R23, R90, R93, R257; log 21). -/
def issueWord (w : Word) (s : State) : Host.Outcome State Fault Refusal :=
  match decode w with
  | .ok i => exec i s
  | .error _ => execReserved s

/-- A host register write: `CMD` issues a command, every other offset goes to `hostRegWrite` (R259). -/
def hostWrite (width offset : Nat) (v : Word) (s : State) : Host.Outcome State Fault Refusal :=
  match regAccessRefusal width offset with
  | some r => .refused r
  | none =>
    if regAt offset = some .cmd then
      if s.busy then .refused .accessWhileBusy else issueWord v s
    else hostRegWrite offset v s

/-- One host access (R65, R66, R110). -/
def hostAccess (a : HostAccess) (s : State) : Host.Outcome State Fault Refusal :=
  match a with
  | .regWrite width offset v => hostWrite width offset v s
  | .regRead width offset => hostRegRead width offset s
  | .bufWrite b i v => hostBufWrite b i v s
  | .bufRead b i => hostBufRead b i s
  | .wait => hostWait s
  | .reset => hostReset s

/-- The write that issues the command word `w`. -/
def cmdWrite (w : Word) : HostAccess := .regWrite 32 (Reg.offset .cmd) w

end Sys2Proof.Machine
end

