-- ==== Sys2Proof/Machine/Step.lean ====
section
/-! DEFINITION. One step of the machine: the host's next access. -/

namespace Sys2Proof.Machine

/-- One step: the host's next access in program order, a write to `CMD` running its whole command (R15, R75; log 1, log 2).
With none pending the block is idle (R312). -/
def step (s : State) : Host.Outcome State Fault Refusal :=
  match s.host.script with
  | [] => idle s
  | a :: _ => hostAccess a s.takeAccess

/-- `s` with a write of the command word `w` to `CMD` as its next host access, and `BUSY = 0`, without which the block
takes no command (R23; log 1, log 24). -/
def State.withFetchWord (s : State) (nbits w : Nat) : State :=
  { s with busy := false,
           host := { s.host with script := cmdWrite (BitVec.ofNat 32 (tableWord nbits w)) :: s.host.script } }

end Sys2Proof.Machine
end

