-- ==== Sys2Proof/Machine/HostScript.lean ====
section
/-! DEFINITION. The host script of spec 30_encoding.md R110, R111: its lines, the accesses they expand to, and what
they expect to read. -/

namespace Sys2Proof.Machine

/-- A line of a host script (R110) or a pseudo-line (R111). Expected values are optional in `RDR` and `RDB`. -/
inductive ScriptLine where
  | wrr (r : Reg) (v : Word)
  | rdr (r : Reg) (expected : Option Word)
  | wrb (b : Buffer) (i : Nat) (v : Byte)
  | rdb (b : Buffer) (i : Nat) (expected : Option Byte)
  | wait
  | cmd (i : Instr)
  | fillIbuf (d : List Byte)
  | fillTbuf (d : List Byte)
  | expectObuf (d : List Byte)
  | expectErr (code : BitVec 4)
  deriving DecidableEq, Repr

/-- A write of a whole register (R66). -/
def regWriteOf (r : Reg) (v : Word) : HostAccess := .regWrite 32 r.offset v

/-- A read of a whole register (R66). -/
def regReadOf (r : Reg) : HostAccess := .regRead 32 r.offset

/-- Bytes written at rising indices from `i`. -/
def bufWritesFrom (b : Buffer) : Nat → List Byte → List HostAccess
  | _, [] => []
  | i, v :: d => .bufWrite b i v :: bufWritesFrom b (i + 1) d

/-- `FILL`: the bytes, then the length register (R111). -/
def fillAccesses (b : Buffer) (len : Reg) (d : List Byte) : List HostAccess :=
  bufWritesFrom b 0 d ++ [regWriteOf len (BitVec.ofNat 32 d.length)]

/-- The host accesses a line expands to (R110, R111). -/
def ScriptLine.expand : ScriptLine → List HostAccess
  | .wrr r v => [regWriteOf r v]
  | .rdr r _ => [regReadOf r]
  | .wrb b i v => [.bufWrite b i v]
  | .rdb b i _ => [.bufRead b i]
  | .wait => [.wait]
  | .cmd i => [cmdWrite (encode i), .wait]
  | .fillIbuf d => fillAccesses .ibuf .ilen d
  | .fillTbuf d => fillAccesses .tbuf .tlen d
  | .expectObuf d => regReadOf .olen :: (List.range d.length).map (fun i => .bufRead .obuf i)
  | .expectErr _ => [regReadOf .status]

/-- The accesses of a whole script. -/
def expandScript (ls : List ScriptLine) : List HostAccess := ls.flatMap ScriptLine.expand

/-- Whether a line's reads, in the order made, returned what the line expects (R110, R111). -/
def ScriptLine.holds (l : ScriptLine) (seen : List HostSeen) : Bool :=
  match l with
  | .rdr r (some v) => seen == [.reg r.offset v]
  | .rdb b i (some v) => seen == [.byte b i v]
  | .expectObuf d =>
    seen == .reg (Reg.offset .olen) (BitVec.ofNat 32 d.length) :: d.zipIdx.map (fun x => .byte .obuf x.2 x.1)
  | .expectErr c =>
    match seen with
    | [.reg _ v] => v.extractLsb' 4 4 == c && v.extractLsb' 0 1 == 0#1
    | _ => false
  | .rdr _ none | .rdb _ _ none | .wrr _ _ | .wrb _ _ _ | .wait | .cmd _ | .fillIbuf _ | .fillTbuf _ => true

/-- Host accesses one after another, stopping at the first fault or refusal. -/
def runAccesses : List HostAccess → State → Host.Outcome State Fault Refusal
  | [], s => .next s
  | a :: as, s =>
    match hostAccess a s with
    | .next t => runAccesses as t
    | .fault f => .fault f
    | .refused r => .refused r

end Sys2Proof.Machine
end

