-- ==== Sys2Proof/Machine/HostStages.lean ====
section
/-! DEFINITION. The host's stages: Frequency Analyzer, Tree Builder, the encode and decode procedures (spec
40_host_stages.md R130 to R139). They run outside the block; `buildTree` is a parameter (R14, R135; log 18). -/

namespace Sys2Proof.Machine

/-- A frequency table: symbols that occur, each with its count (R19, R130). -/
abbrev FreqTable := List (Byte × Nat)

/-- The 256 symbols in numeric order (R12). -/
def allSymbols : List Byte := (List.range Config.alphabet).map (BitVec.ofNat 8)

/-- `Freq(d)`: every byte value present with its count; "symbols with zero count are absent" (R130). -/
def freq (d : List Byte) : FreqTable := (allSymbols.filter fun s => d.contains s).map fun s => (s, d.count s)

/-- The Frequency Analyzer: `EmptyInputError` on a zero-length buffer (R131). -/
def analyze (d : List Byte) : Except ErrCode FreqTable := if d = [] then .error .emptyInput else .ok (freq d)

/-- What the block needs of a tree builder (R135): a tree whose leaf symbols are exactly the table's symbols, each once. -/
def TreeBuilder (buildTree : FreqTable → Tree) : Prop :=
  ∀ F : FreqTable, F ≠ [] → (F.map Prod.fst).Nodup →
    (buildTree F).distinct ∧ ∀ s, s ∈ (buildTree F).symbols ↔ s ∈ F.map Prod.fst

/-- A queue entry `(weight, order, node)` of R136. -/
structure QueueEntry where
  weight : Nat
  order  : Nat
  node   : Tree
  deriving DecidableEq, Repr

/-- The least entry has the least weight and, among equal weights, the least order (R136). -/
def QueueEntry.before (x y : QueueEntry) : Bool :=
  decide (x.weight < y.weight) || (x.weight == y.weight && decide (x.order < y.order))

/-- The least of `e :: q`, and the entries that stay. -/
def takeLeast : QueueEntry → List QueueEntry → QueueEntry × List QueueEntry
  | e, [] => (e, [])
  | e, f :: q =>
    if f.before e then let (m, r) := takeLeast f q; (m, e :: r)
    else let (m, r) := takeLeast e q; (m, f :: r)

/-- The loop of `RefBuild`: the first entry removed becomes the left child, the second the right child; the `n`-th merged
node has order `256 + n` (R136). The fuel bounds the number of merges. -/
def mergeLoop : Nat → Nat → List QueueEntry → Option Tree
  | _, _, [] => none
  | _, _, [e] => some e.node
  | 0, _, _ :: _ :: _ => none
  | fuel + 1, n, e :: f :: q =>
    let (a, q1) := takeLeast e (f :: q)
    match q1 with
    | [] => none
    | g :: q2 =>
      let (b, q3) := takeLeast g q2
      mergeLoop fuel (n + 1)
        ({ weight := a.weight + b.weight, order := 256 + n, node := .internal a.node b.node } :: q3)

/-- `RefBuild(F)` (R136) for a table with at least one symbol; a leaf's order is its symbol value. The value on the empty
table, for which the rule gives none, is never used (log 18). -/
def refBuild (F : FreqTable) : Tree :=
  (mergeLoop F.length 0 (F.map fun x => { weight := x.2, order := x.1.toNat, node := .leaf x.1 })).getD (.leaf 0)

/-- Weighted path length: the sum over the leaves of count times depth (R132). -/
def weightedPathLength (F : FreqTable) (t : Tree) : Nat :=
  ((t.paths []).map fun x => x.2.length * ((F.lookup x.1).getD 0)).sum

/-- The host encode procedure up to the issue (R138): empty input is rejected, else the description goes to `TBUF`, the
input to `IBUF`, and `ENCODE` is issued. -/
def hostEncode (buildTree : FreqTable → Tree) (d : List Byte) : Except ErrCode (List ScriptLine) := do
  let F ← analyze d
  .ok [.fillTbuf (buildTree F).ser, .fillIbuf d, .cmd .encode]

/-- The host decode procedure up to the issue (R139). -/
def hostDecode (c : List Byte) : List ScriptLine := [.fillIbuf c, .cmd .decode]

/-- What the host takes from the block when a call is over: `OBUF[0 .. OLEN − 1]`, or the error (R138, R139). -/
def State.result (s : State) : Except ErrCode (List Byte) :=
  match s.err with
  | none => .ok ((List.range s.olen.toNat).map (s.byteAt .obuf))
  | some e => .error e

end Sys2Proof.Machine
end

