-- ==== Sys2Proof/Machine/Micro.lean ====
section
/-! DEFINITION. The micro-step forms over the working registers of R40 (spec 41_tree_and_table.md R158, R161, 42_pack.md
R185, 43_unpack.md R209, 44_container.md R224). They refine the command-atomic functions, which stay normative (R15; log 2). -/

namespace Sys2Proof.Machine

/-- What one micro-step of the engine does. An error leaves the engine as it was when its test failed (R209, R283). -/
inductive Micro (α : Type) where
  | more (x : α)
  | done (x : α)
  | raised (e : ErrCode) (x : α)
  deriving Repr

/-- Micro-steps until done or error, at most as many as the fuel; none when it runs out (R351). The answer is the error
raised, if any, and the engine as it stands then. -/
def Micro.run {α : Type} (f : α → Micro α) : Nat → α → Option (Option ErrCode × α)
  | 0, _ => none
  | fuel + 1, x =>
    match f x with
    | .more y => Micro.run f fuel y
    | .done y => some (none, y)
    | .raised e y => some (some e, y)

/-! ## ParseTree, one node per step (R158) -/

/-- `TM[m].right := r`. -/
def TreeMem.setRight (tm : TreeMem) (m r : Nat) : TreeMem :=
  match (tm[m]? : Option Node) with
  | some (.internal l _) => tm.set m (.internal l r)
  | some (.leaf _) => tm
  | none => tm

/-- One step of `ParseTree` on the bytes `buf[0 .. e − 1]`: read one node at `rp`. `stack` holds the internal nodes whose
left subtree is being read, the latest first. -/
def parseMicro (buf : List Byte) (x : Work × TreeMem) : Micro (Work × TreeMem) :=
  let (w, tm) := x
  match buf[w.rp]? with
  | none => .raised .malformedContainer (w, tm)
  | some tag =>
    if tag = 0x01#8 then
      match buf[w.rp + 1]? with
      | none => .raised .malformedContainer (w, tm)
      | some s =>
        if w.seen.has s then .raised .malformedContainer (w, tm)
        else
          let tm := tm ++ [.leaf s]
          let w := { w with rp := w.rp + 2, seen := w.seen.add s }
          match w.stack with
          | [] => .done (w, tm)
          | m :: rest => .more ({ w with stack := rest }, tm.setRight m tm.length)
    else if tag = 0x00#8 then
      .more ({ w with rp := w.rp + 1, stack := tm.length :: w.stack }, tm ++ [.internal (tm.length + 1) 0])
    else .raised .malformedContainer (w, tm)

/-- The working registers as `ParseTree(buf, a, e)` starts (R151). -/
def parseStart (a : Nat) : Work × TreeMem := ({ Work.cleared with rp := a }, [])

/-! ## DeriveCodes, one node per step (R161, the registers of R40; log 13) -/

/-- `TM[m].right`. -/
def TreeMem.rightOf (tm : TreeMem) (m : Nat) : Nat :=
  match (tm[m]? : Option Node) with
  | some (.internal _ r) => r
  | some (.leaf _) => 0
  | none => 0

/-- The path of the next pending right child: the trailing ones go, and the last 0 becomes 1. -/
def turnRight (path : Bits) : Bits := (path.reverse.dropWhile id).tail.reverse ++ [true]

/-- The derivation engine: the working registers and `CT`. -/
abbrev DeriveEngine := Work × CodeTable

/-- One step of `Visit` (R161): the node `cur`, whose path is `path`. An internal node is pushed on `stack` and its left
child is next; a leaf's entry is set, the lone leaf's to the bit 0 (R164), and the right child of the node popped is next. -/
def deriveMicro (tm : TreeMem) (x : DeriveEngine) : Micro DeriveEngine :=
  let (w, ct) := x
  match (tm[w.cur]? : Option Node) with
  | some (.internal l _) => .more ({ w with cur := l, path := w.path ++ [false], stack := w.cur :: w.stack }, ct)
  | some (.leaf s) =>
    let ct := ct.set s (if w.cur = 0 then [false] else w.path)
    match w.stack with
    | [] => .done (w, ct)
    | m :: rest => .more ({ w with cur := tm.rightOf m, path := turnRight w.path, stack := rest }, ct)
  | none => .done (w, ct)

/-- The engine as `DeriveCodes` starts: at the root with the empty path, every `CT[s].valid = 0` (R161). -/
def deriveStart : DeriveEngine := (Work.cleared, CodeTable.empty)

/-! ## PackBits, one code bit per step (R185) -/

/-- The pack engine: the working registers and `OBUF`. -/
abbrev PackEngine := Work × List Host.Cell

/-- `acc := (acc << 1) | c`, and the byte written when it is full (R185). -/
def packBitStep (x : PackEngine) (c : Bool) : PackEngine :=
  let (w, o) := x
  let acc := (w.acc <<< 1) ||| (BitVec.ofBool c).setWidth 8
  if w.accn + 1 = 8 then ({ w with acc := 0, accn := 0, wp := w.wp + 1 }, Memory.write o w.wp acc)
  else ({ w with acc := acc, accn := w.accn + 1 }, o)

/-- The two loops of R185: every symbol, every bit of its code; a symbol without a code is met when it is fetched, and the
bytes already written stay in `OBUF`. -/
def packLoop (ct : CodeTable) : List Byte → PackEngine → Option ErrCode × PackEngine
  | [], x => (none, x)
  | s :: d, (w, o) =>
    match ct.code s with
    | none => (some .missingCode, { w with rp := w.rp + 1 }, o)
    | some c => packLoop ct d (c.foldl packBitStep ({ w with rp := w.rp + 1 }, o))

/-- The end of R185: the last, partial byte and the valid-bit count. -/
def packFlush (x : PackEngine) : PackEngine × Nat :=
  let (w, o) := x
  if 0 < w.accn then (({ w with wp := w.wp + 1 }, Memory.write o w.wp (w.acc <<< (8 - w.accn))), w.accn)
  else ((w, o), 8)

/-- The micro-step form of `PackBits` on an `OBUF` that holds nothing yet: the engine at the end and the valid-bit count,
or the error and the engine as it stands then. -/
def packMicro (ct : CodeTable) (d : List Byte) : Except (ErrCode × PackEngine) (PackEngine × Nat) :=
  match packLoop ct d (Work.cleared, []) with
  | (none, x) => .ok (packFlush x)
  | (some e, x) => .error (e, x)

/-! ## UnpackBits, one stream bit per step (R209) -/

/-- The unpack engine: the working registers and `OBUF`. -/
abbrev UnpackEngine := Work × List Host.Cell

/-- Stream bit `k` stands in `IBUF[p0 + k div 8]`, bit `7 − k mod 8` (R17, R209). -/
def Work.streamBit (w : Work) (buf : List Byte) : Bool := (buf.getD (w.p0 + w.k / 8) 0).getLsbD (7 - w.k % 8)

/-- A stream bit is consumed: `k <- k + 1`, and `rp` moves past the byte the bit stands in (R40, R80, R209; log 25). -/
def Work.nextBit (w : Work) : Work := { w with k := w.k + 1, rp := w.p0 + w.k / 8 + 1 }

/-- A leaf is reached: `MemWrite(OBUF, wp, 1, s)`, `wp` and `emitted` move together, `cur <- 0` (R80, R203, R209, R210). -/
def emitSymbol (w : Work) (o : List Host.Cell) (s : Byte) : UnpackEngine :=
  ({ w with wp := w.wp + 1, emitted := w.emitted + 1, cur := 0 }, Memory.write o w.wp s)

/-- What a consumed stream bit does (R203, R205): the move from `cur`, a leaf's symbol, or the error. -/
def walkBit (tm : TreeMem) (b : Bool) (x : UnpackEngine) : Micro UnpackEngine :=
  let (w, o) := x
  match (tm[0]? : Option Node) with
  | some (.leaf s) => if b then .raised .corruptCode (w, o) else .more (emitSymbol w o s)
  | _ =>
    match (tm[w.cur]? : Option Node) with
    | some (.internal l r) =>
      match (tm[if b then r else l]? : Option Node) with
      | some (.leaf s) => .more (emitSymbol w o s)
      | some (.internal _ _) => .more ({ w with cur := if b then r else l }, o)
      | none => .raised .corruptCode (w, o)
    | some (.leaf _) => .raised .corruptCode (w, o)
    | none => .raised .corruptCode (w, o)

/-- One iteration of the loop of R203 (R209). What was written stays in `OBUF` when an error is raised. -/
def walkMicro (tm : TreeMem) (buf : List Byte) (x : UnpackEngine) : Micro UnpackEngine :=
  let (w, o) := x
  if w.emitted < w.wCnt then
    if w.nvalid ≤ w.k then .raised .truncatedStream (w, o)
    else walkBit tm (w.streamBit buf) (w.nextBit, o)
  else .done (w, o)

/-- The working registers as the walk starts: `w_cnt`, `w_vb`, `p0` and `nvalid` set, `rp` at the first packed byte, the rest
cleared (R80, R200, R203, R230). -/
def walkStart (p0 n vb cnt : Nat) : UnpackEngine :=
  ({ Work.cleared with rp := p0, p0 := p0, wVb := vb, wCnt := cnt, nvalid := nValid n vb }, [])

/-! ## ENCODE's order of writes (R224) -/

/-- The description from index 5, the packed bytes after it, the header last (R69, R224). -/
def encodeWrites (n : Word) (vb : Nat) (d p : List Byte) : List Host.Cell :=
  Memory.writeBytes (Memory.writeBytes (Memory.writeBytes [] Config.headerSize d) (Config.headerSize + d.length) p) 0
    (be32 n ++ [BitVec.ofNat 8 vb])

end Sys2Proof.Machine
end

