-- ==== Sys2Proof/Safety.lean ====
section
/-! DEFINITION. The terms the statements use: what a buffer holds, what a command leaves unchanged, how a call ends,
when a command is admitted, and the invariant of the machine between steps. -/

namespace Sys2Proof.Machine

/-- `m[0 .. |d| − 1] = d`: the buffer's first bytes have values, and they are `d`. -/
def Memory.holds (m : List Host.Cell) (d : List Byte) : Prop :=
  ∀ (i : Nat) (h : i < d.length), Memory.read m i = some d[i]

/-- The valid prefix covers only bytes that have been given a value (R335). -/
def Memory.written (m : List Host.Cell) (n : Nat) : Prop := ∀ i, i < n → (Memory.read m i).isSome

/-- `TM` and `CT` are invalid: no node in use, no entry valid (R253). -/
def State.treeInvalid (s : State) : Prop := s.tm = [] ∧ ∀ sym, s.ct.code sym = none

/-- What the host set up and no command writes: `ILEN`, `TLEN`, every byte of `IBUF` and `TBUF`, the capacities and the
host itself (R68). -/
structure State.KeepsInputs (s t : State) : Prop where
  ilen : t.ilen = s.ilen
  tlen : t.tlen = s.tlen
  ibuf : ∀ i, Memory.read t.ibuf i = Memory.read s.ibuf i
  tbuf : ∀ i, Memory.read t.tbuf i = Memory.read s.tbuf i
  resets : t.free.resets = s.free.resets
  caps : t.caps = s.caps
  host : t.host = s.host

/-- The call ended with error `e` (R283): `ERR`, `OLEN = 0`, `PHASE = Done`, `BUSY = 0`, tree gone, no byte of `OBUF`
specified, nothing else changed. -/
structure State.Failed (s t : State) (e : ErrCode) : Prop where
  err : t.err = some e
  olen : t.olen = 0
  obuf : t.obuf = []
  phase : t.phase = .done
  busy : t.busy = false
  tree : t.treeInvalid
  inputs : s.KeepsInputs t
  vbits : t.vbits = s.vbits
  symcnt : t.symcnt = s.symcnt

/-- The transcoding succeeded with result `r`: `OBUF[0 .. OLEN − 1] = r`, `PHASE = Done`, no error, `BUSY = 0`, tree gone,
the inputs unchanged. -/
structure State.Produced (s t : State) (r : List Byte) : Prop where
  obuf : Memory.holds t.obuf r
  /-- at `OLEN` and above no byte is specified (R38) -/
  rest : ∀ i, r.length ≤ i → Memory.read t.obuf i = none
  olen : t.olen.toNat = r.length
  err : t.err = none
  phase : t.phase = .done
  busy : t.busy = false
  tree : t.treeInvalid
  inputs : s.KeepsInputs t

/-- A tree `t` is loaded: `TM` holds its records in pre-order and `CT` the code of every symbol (R32, R34, R163, R164). -/
structure State.HasTree (s : State) (t : Tree) : Prop where
  tm : s.tm = t.records 0
  ct : ∀ sym, s.ct.code sym = t.codes.lookup sym

/-- The codes of a symbol sequence, one after the other, in a tree (R102). -/
def Tree.stream (t : Tree) (d : List Byte) : Bits := d.flatMap fun s => (t.codes.lookup s).getD []

/-- Two states agree on the operands of a command (R242), which are the registers and buffers its rule names (R150, R180,
R200, R222, R230), and on the capacities: nothing is asked of what the command does not read. -/
structure State.SameOperands (i : Instr) (s t : State) : Prop where
  caps : s.caps = t.caps
  /-- `LDTREE`, `ENCODE`: `TLEN`, `TBUF[0 .. TLEN − 1]` -/
  tbuf : i ∈ [Instr.ldtree, .encode] →
    s.tlen = t.tlen ∧ ∀ k, k < s.tlen.toNat → Memory.read s.tbuf k = Memory.read t.tbuf k
  /-- `PACK`, `UNPACK`, `ENCODE`, `DECODE`: `ILEN`, `IBUF[0 .. ILEN − 1]` -/
  ibuf : i ∈ [Instr.pack, .unpack, .encode, .decode] →
    s.ilen = t.ilen ∧ ∀ k, k < s.ilen.toNat → Memory.read s.ibuf k = Memory.read t.ibuf k
  /-- `UNPACK`: `VBITS`, `SYMCNT` -/
  counts : i = .unpack → s.vbits = t.vbits ∧ s.symcnt = t.symcnt
  /-- `PACK`, `UNPACK`: `PHASE`, and the tree the same call loaded -/
  tree : i ∈ [Instr.pack, .unpack] → s.phase = t.phase ∧ (s.phase = .treeReady → s.tm = t.tm ∧ s.ct = t.ct)

/-- A command is admitted (R26, R72, R335): its inputs lie inside the buffers and have values where its steps read them,
and its result fits. -/
def State.Admits (s : State) : Instr → Prop
  | .nop => True
  | .clear => True
  | .ldtree => s.tlen.toNat ≤ Config.tbufCap → Memory.written s.tbuf s.tlen.toNat
  | .pack =>
    s.ilen.toNat ≤ s.caps.ibuf.val ∧
    (s.phase = .treeReady → Memory.written s.ibuf s.ilen.toNat ∧
      ∀ d, d.length = s.ilen.toNat → Memory.holds s.ibuf d → (packBits s.ct d).1.length ≤ s.caps.obuf.val)
  | .unpack =>
    s.ilen.toNat ≤ s.caps.ibuf.val ∧ s.symcnt.toNat ≤ s.caps.obuf.val ∧
    (s.phase = .treeReady → Memory.written s.ibuf s.ilen.toNat)
  | .encode =>
    s.ilen.toNat ≤ s.caps.ibuf.val ∧
    (0 < s.ilen.toNat → Memory.written s.ibuf s.ilen.toNat ∧
      (s.tlen.toNat ≤ Config.tbufCap → Memory.written s.tbuf s.tlen.toNat ∧
        ∀ (t : Tree) (d : List Byte), t.ser.length = s.tlen.toNat → Memory.holds s.tbuf t.ser →
          d.length = s.ilen.toNat → Memory.holds s.ibuf d →
          Config.headerSize + s.tlen.toNat + ((t.stream d).length + 7) / 8 ≤ s.caps.obuf.val))
  | .decode =>
    s.ilen.toNat ≤ s.caps.ibuf.val ∧
    (Config.headerSize ≤ s.ilen.toNat → Memory.written s.ibuf s.ilen.toNat ∧
      ∀ c0 c1 c2 c3 c, (c0 :: c1 :: c2 :: c3 :: c).length = s.ilen.toNat →
        Memory.holds s.ibuf (c0 :: c1 :: c2 :: c3 :: c) → originalLength c0 c1 c2 c3 ≤ s.caps.obuf.val)

/-- What holds between any two steps of the machine. -/
structure State.Inv (s : State) : Prop where
  /-- at the command-atomic level `BUSY = 1` is never observed (R261) -/
  idle : s.busy = false
  /-- `Header` and `Transcoding` are held only while `BUSY = 1` (R24) -/
  phase : s.phase = .start ∨ s.phase = .treeReady ∨ s.phase = .done
  /-- the buffers keep their canonical form -/
  ibufWf : Memory.wf s.ibuf
  tbufWf : Memory.wf s.tbuf
  obufWf : Memory.wf s.obuf
  /-- no byte beyond a buffer's capacity is ever stored (R65, R72) -/
  ibufCap : ∀ c ∈ s.ibuf, c.1 < s.caps.ibuf.val
  tbufCap : ∀ c ∈ s.tbuf, c.1 < Config.tbufCap
  obufCap : s.olen.toNat ≤ s.caps.obuf.val
  /-- exactly the bytes below `OLEN` are specified (R38) -/
  obufOlen : ∀ i, (Memory.read s.obuf i).isSome ↔ i < s.olen.toNat
  /-- in `TreeReady` a valid tree is loaded (R31, R33) -/
  ready : s.phase = .treeReady → ∃ t : Tree, t.distinct ∧ s.HasTree t
  /-- outside `TreeReady` `TM` and `CT` are invalid (R24, R33) -/
  noTree : s.phase ≠ .treeReady → s.treeInvalid
  /-- an error and a result belong to `Done` only -/
  errDone : s.phase ≠ .done → s.err = none ∧ s.olen = 0
  /-- after an error `OLEN = 0` (R28, R283) -/
  errOlen : s.err ≠ none → s.olen = 0

end Sys2Proof.Machine
end

