-- ==== Sys2Proof/Certificates/Slice0/Obligations.lean ====
section
/-! DEFINITION. The statements for the provers. -/

open Sys2Proof Sys2Proof.Machine

/-! ## Command words -/

/-- R90: the seven command words, and the decoder reads exactly them. -/
def Obligations.DecoderReadsExactlyTheCommandWords : Prop :=
  encode .nop = 0x00000000#32 ∧ encode .clear = 0x00000001#32 ∧ encode .ldtree = 0x00000002#32 ∧
  encode .pack = 0x00000003#32 ∧ encode .unpack = 0x00000004#32 ∧ encode .encode = 0x00000005#32 ∧
  encode .decode = 0x00000006#32 ∧ ∀ (w : Word) (i : Instr), decode w = .ok i ↔ w = encode i

/-- R93, R257: the reserved words are exactly those with bits 31:8 not 0 or an opcode 0x07 to 0xFF, and issuing one in any
phase ends the call with `IllegalCommandError`. -/
def Obligations.ReservedWordRaisesIllegalCommand : Prop :=
  ∀ (w : Word), ((∃ e, decode w = .error e) ↔ (w.extractLsb' 8 24 ≠ 0#24 ∨ 7 ≤ (w.extractLsb' 0 8).toNat)) ∧
    ∀ (s : State) (rest : List HostAccess), (w.extractLsb' 8 24 ≠ 0#24 ∨ 7 ≤ (w.extractLsb' 0 8).toNat) →
      s.busy = false → s.host.script = cmdWrite w :: rest →
      ∃ t, step s = .next t ∧ s.takeAccess.Failed t .illegalCommand

/-- A few command words written out, and words that are none (R90, R93). -/
def Obligations.TableWordsDecode : Prop :=
  decode 0x00000000#32 = .ok .nop ∧ decode 0x00000002#32 = .ok .ldtree ∧ decode 0x00000006#32 = .ok .decode ∧
  decode 0x00000007#32 = .error .reservedOpcode ∧ decode 0x000000FF#32 = .error .reservedOpcode ∧
  decode 0x00000100#32 = .error .reservedUpperBits ∧ decode 0x80000002#32 = .error .reservedUpperBits

/-- A step whose host access is a `CMD` write of a command word, with `BUSY = 0`, runs exactly that command on the state
whose script has moved past the access (log 1: the script is the model's form of the host). -/
def Obligations.StepRunsDecodedCommand : Prop :=
  ∀ (s : State) (w : Word) (i : Instr) (rest : List HostAccess),
    s.busy = false → s.host.script = cmdWrite w :: rest → decode w = .ok i →
    step s = exec i { s with host := { s.host with script := rest } }

/-- R312: with no host access pending the block is idle with all state held. -/
def Obligations.IdleBlockHoldsItsState : Prop :=
  ∀ s : State, s.busy = false → s.host.script = [] → step s = .next s

/-! ## NOP and CLEAR -/

/-- R255: the word 0x0000_0000 is `NOP`; it completes in every state and writes nothing. -/
def Obligations.NopWritesNothing : Prop :=
  decode 0x00000000#32 = .ok .nop ∧ ∀ s : State, exec .nop s = .next s

/-- R256: the word 0x0000_0001 is `CLEAR`; it completes in every state: `PHASE = Start`, `ERR = 0`, `OLEN = 0`, `TM` and `CT`
invalid, working registers cleared, no byte of `OBUF` specified; the host's registers and buffers keep their values. -/
def Obligations.ClearReturnsToStart : Prop :=
  decode 0x00000001#32 = .ok .clear ∧
  ∀ s : State, ∃ t, exec .clear s = .next t ∧ t.phase = .start ∧ t.err = none ∧ t.olen = 0 ∧ t.busy = false ∧
    t.treeInvalid ∧ t.work = Work.cleared ∧ t.obuf = [] ∧ s.KeepsInputs t ∧ t.vbits = s.vbits ∧ t.symcnt = s.symcnt

/-! ## Tree descriptions and LDTREE -/

/-- R98 to R101, R155, R156: the parse succeeds exactly on the bytes that start with the description of a tree with distinct
symbols, the tree is unique, and every other byte sequence raises `MalformedContainerError`. -/
def Obligations.ParseTreeAcceptsExactlyDescriptions : Prop :=
  ∀ bs : List Byte,
    (∀ (tm : TreeMem) (rest : List Byte), parseTree bs = .ok (tm, rest) ↔
      ∃ t : Tree, t.distinct ∧ bs = t.ser ++ rest ∧ tm = t.records 0) ∧
    (∀ (t u : Tree) (x y : List Byte), bs = t.ser ++ x → bs = u.ser ++ y → t = u ∧ x = y) ∧
    ((¬∃ (t : Tree) (rest : List Byte), t.distinct ∧ bs = t.ser ++ rest) → parseTree bs = throwErr .malformedContainer)

/-- R13, R100: a tree with `L` distinct symbols has `2L − 1 ≤ 511` nodes, depth at most `L − 1 ≤ 255` and a description of
`3L − 1 ≤ 767` bytes. -/
def Obligations.TreeSizesAreBounded : Prop :=
  ∀ t : Tree, t.distinct →
    t.symbols.length ≤ Config.alphabet ∧ (t.records 0).length + 1 = 2 * t.symbols.length ∧
    (t.records 0).length ≤ Config.maxNodes ∧ t.depth + 1 ≤ t.symbols.length ∧ t.depth ≤ Config.maxCodeLen ∧
    t.ser.length + 1 = 3 * t.symbols.length ∧ t.ser.length ≤ Config.tbufCap

/-- R164 with R161, R163: `DeriveCodes` gives every leaf symbol its path from the root as its code, the single bit 0 in the
degenerate tree, and every other symbol none. -/
def Obligations.DeriveCodesFindsThePaths : Prop :=
  ∀ t : Tree, t.distinct →
    (∀ sym, (deriveCodes (t.records 0)).code sym = t.codes.lookup sym) ∧
    (∀ s, t = .leaf s → t.codes = [(s, [false])]) ∧
    (∀ l r, t = .internal l r →
      t.codes = (l.paths []).map (fun x => (x.1, false :: x.2)) ++ (r.paths []).map (fun x => (x.1, true :: x.2)))

/-- R35: the code table of a tree is prefix-free, every symbol of the tree has exactly one code, of 1 to 255 bits, and the
degenerate tree's is the bit 0. -/
def Obligations.CodeTableIsPrefixFree : Prop :=
  ∀ t : Tree, t.distinct → ∀ a b : Byte, ∀ ca cb : Bits,
    (deriveCodes (t.records 0)).code a = some ca → (deriveCodes (t.records 0)).code b = some cb →
    (a ≠ b → ¬ ca <+: cb) ∧ 1 ≤ ca.length ∧ ca.length ≤ Config.maxCodeLen ∧
    (∀ s, s ∈ t.symbols ↔ ((deriveCodes (t.records 0)).code s).isSome) ∧ (t = .leaf a → ca = [false])

/-- R150, R153: `LDTREE` of a description that fills the valid prefix of `TBUF` completes in `TreeReady` with that tree in
`TM` and `CT`, `ERR = 0`, `OLEN = 0`, and every other register and buffer of the host unchanged, from any phase. -/
def Obligations.LdtreeLoadsTheTree : Prop :=
  ∀ (s : State) (t : Tree), t.distinct → s.tlen.toNat = t.ser.length → Memory.holds s.tbuf t.ser →
    ∃ u, exec .ldtree s = .next u ∧ u.HasTree t ∧ u.phase = .treeReady ∧ u.err = none ∧ u.olen = 0 ∧ u.busy = false ∧
      s.KeepsInputs u ∧ u.vbits = s.vbits ∧ u.symcnt = s.symcnt

/-- R153 with R155, R156: where the valid prefix of `TBUF` is not exactly one description (bytes left over after it included),
`LDTREE`, and `ENCODE` of an admitted non-empty input, end with `MalformedContainerError`. -/
def Obligations.TbufMustHoldExactlyOneDescription : Prop :=
  ∀ (s : State) (d : List Byte), s.tlen.toNat = d.length → Memory.holds s.tbuf d →
    (¬∃ t : Tree, t.distinct ∧ d = t.ser) →
    (∃ u, exec .ldtree s = .next u ∧ s.Failed u .malformedContainer) ∧
    (0 < s.ilen.toNat → s.ilen.toNat ≤ s.caps.ibuf.val →
      ∃ u, exec .encode s = .next u ∧ s.Failed u .malformedContainer)

/-- R152: `LDTREE`, and `ENCODE` of an admitted non-empty input, raise `MalformedContainerError` at once when `TLEN > 767`,
whatever `TBUF` holds; a `TLEN` of 0 or 1 fails too. -/
def Obligations.TlenOutOfBoundsIsMalformed : Prop :=
  ∀ s : State, (767 < s.tlen.toNat ∨ s.tlen.toNat = 0 ∨ (s.tlen.toNat = 1 ∧ Memory.written s.tbuf 1)) →
    (∃ u, exec .ldtree s = .next u ∧ s.Failed u .malformedContainer) ∧
    (0 < s.ilen.toNat → s.ilen.toNat ≤ s.caps.ibuf.val →
      ∃ u, exec .encode s = .next u ∧ s.Failed u .malformedContainer)

/-! ## Packing -/

/-- R102: with `S` the codes of the input symbols in input order and `T` its length, the packed bytes are `ceil(T / 8)`, stream
bit `k` of them is bit `k` of `S`, and the padding is 0. -/
def Obligations.PackedBytesCarryTheStream : Prop :=
  ∀ (ct : CodeTable) (d : List Byte) (S : Bits), S = d.flatMap (fun s => (ct.code s).getD []) →
    (packBits ct d).1.length = (S.length + 7) / 8 ∧
    (∀ (k : Nat) (h : k < S.length), streamBit (packBits ct d).1 k = S[k]) ∧
    (∀ k : Nat, S.length ≤ k → k < 8 * ((S.length + 7) / 8) → streamBit (packBits ct d).1 k = false)

/-- R184: for `T ≥ 1`, `VB(T) = ((T − 1) mod 8) + 1`, which is 1 to 8, is `T mod 8` or else 8, and is the number of stream bits
in the last packed byte. -/
def Obligations.LastByteValidBitsCount : Prop :=
  ∀ t : Nat, 1 ≤ t → lastValidBits t = (t - 1) % 8 + 1 ∧ 1 ≤ lastValidBits t ∧ lastValidBits t ≤ 8 ∧
    lastValidBits t = (if t % 8 = 0 then 8 else t % 8) ∧ 8 * ((t + 7) / 8 - 1) + lastValidBits t = t

/-- R180: `PACK` in `TreeReady` of a non-empty input all of whose symbols have codes completes with the packed bytes in
`OBUF`, `OLEN = ceil(T / 8)`, `VBITS = VB(T)`, `SYMCNT = ILEN`, when the input and the result fit. -/
def Obligations.PackWritesThePackedBytes : Prop :=
  ∀ (s : State) (d : List Byte), s.phase = .treeReady → d ≠ [] → s.ilen.toNat = d.length →
    s.ilen.toNat ≤ s.caps.ibuf.val → Memory.holds s.ibuf d → (∀ x ∈ d, (s.ct.code x).isSome) →
    ((codeStream s.ct d).length + 7) / 8 ≤ s.caps.obuf.val →
    ∃ u, exec .pack s = .next u ∧ s.Produced u (packedBytes (codeStream s.ct d)) ∧
      u.olen.toNat = ((codeStream s.ct d).length + 7) / 8 ∧
      u.vbits.toNat = lastValidBits (codeStream s.ct d).length ∧ u.symcnt = s.ilen

/-- R94: `PACK` and `UNPACK` outside `TreeReady` end with `IllegalCommandError`, whatever else is wrong with their operands. -/
def Obligations.PackAndUnpackNeedALoadedTree : Prop :=
  ∀ s : State, s.phase ≠ .treeReady → s.ilen.toNat ≤ s.caps.ibuf.val →
    (∃ u, exec .pack s = .next u ∧ s.Failed u .illegalCommand) ∧
    (s.symcnt.toNat ≤ s.caps.obuf.val → ∃ u, exec .unpack s = .next u ∧ s.Failed u .illegalCommand)

/-- R182, R284: `PACK` in `TreeReady`, and `ENCODE` in any phase and whatever `TBUF` holds (R225), reject `ILEN = 0` with
`EmptyInputError`. -/
def Obligations.EmptyInputIsRejected : Prop :=
  ∀ s : State, s.ilen.toNat = 0 →
    (s.phase = .treeReady → ∃ u, exec .pack s = .next u ∧ s.Failed u .emptyInput) ∧
    (∃ u, exec .encode s = .next u ∧ s.Failed u .emptyInput)

/-- R183: an input symbol without a code ends `PACK` with `MissingCodeError`; an input symbol that is no leaf of the tree
described in `TBUF` ends `ENCODE` so. -/
def Obligations.SymbolWithoutCodeIsRejected : Prop :=
  ∀ (s : State) (d : List Byte), s.ilen.toNat = d.length → s.ilen.toNat ≤ s.caps.ibuf.val → Memory.holds s.ibuf d →
    (s.phase = .treeReady → (∃ x ∈ d, s.ct.code x = none) → ∃ u, exec .pack s = .next u ∧ s.Failed u .missingCode) ∧
    (∀ t : Tree, t.distinct → s.tlen.toNat = t.ser.length → Memory.holds s.tbuf t.ser → (∃ x ∈ d, x ∉ t.symbols) →
      ∃ u, exec .encode s = .next u ∧ s.Failed u .missingCode)

/-! ## Unpacking -/

/-- R200, R203, R206: `UNPACK` with a tree loaded, of packed bytes whose valid bits begin with the codes of `d`, writes `d`;
what is left over is ignored. `VBITS` and `SYMCNT` are unchanged. -/
def Obligations.UnpackDecodesTheCodes : Prop :=
  ∀ (s : State) (t : Tree) (p d : List Byte) (rest : Bits), s.phase = .treeReady → t.distinct → s.HasTree t →
    s.ilen.toNat = p.length → s.ilen.toNat ≤ s.caps.ibuf.val → Memory.holds s.ibuf p →
    badValidBits p.length s.vbits.toNat = false → (∀ x ∈ d, x ∈ t.symbols) →
    validBits p s.vbits.toNat = t.stream d ++ rest → s.symcnt.toNat = d.length → d.length ≤ s.caps.obuf.val →
    ∃ u, exec .unpack s = .next u ∧ s.Produced u d ∧ u.vbits = s.vbits ∧ u.symcnt = s.symcnt

/-- R204, R288: when the valid bits end before the codes of the symbols owed, `UNPACK` ends with `TruncatedStreamError`. -/
def Obligations.UnpackTruncatedStream : Prop :=
  ∀ (s : State) (t : Tree) (p d : List Byte) (rest : Bits), s.phase = .treeReady → t.distinct → s.HasTree t →
    s.ilen.toNat = p.length → s.ilen.toNat ≤ s.caps.ibuf.val → Memory.holds s.ibuf p →
    badValidBits p.length s.vbits.toNat = false → (∀ x ∈ d, x ∈ t.symbols) → rest ≠ [] →
    t.stream d = validBits p s.vbits.toNat ++ rest → s.symcnt.toNat = d.length → d.length ≤ s.caps.obuf.val →
    ∃ u, exec .unpack s = .next u ∧ s.Failed u .truncatedStream

/-- R205, R289: under a degenerate tree a stream bit 1 among the bits needed ends `UNPACK` with `CorruptCodeError`. -/
def Obligations.UnpackCorruptCode : Prop :=
  ∀ (s : State) (x : Byte) (p : List Byte) (n : Nat) (rest : Bits), s.phase = .treeReady → s.HasTree (.leaf x) →
    s.ilen.toNat = p.length → s.ilen.toNat ≤ s.caps.ibuf.val → Memory.holds s.ibuf p →
    badValidBits p.length s.vbits.toNat = false → validBits p s.vbits.toNat = List.replicate n false ++ true :: rest →
    n < s.symcnt.toNat → s.symcnt.toNat ≤ s.caps.obuf.val →
    ∃ u, exec .unpack s = .next u ∧ s.Failed u .corruptCode

/-- R201: with at least one packed byte and a valid-bit count outside 1 to 8 the command ends with `MalformedContainerError`
before the walk, whatever the packed bytes are: `UNPACK` with `VBITS`, `DECODE` with the byte at index 4. That `DECODE` ends so
also when `original_length` exceeds `OBUF_CAP` is the model's choice (log 4). -/
def Obligations.ValidBitCountIsChecked : Prop :=
  ∀ s : State, s.ilen.toNat ≤ s.caps.ibuf.val →
    (s.phase = .treeReady → s.symcnt.toNat ≤ s.caps.obuf.val → 1 ≤ s.ilen.toNat →
      (s.vbits.toNat < 1 ∨ 8 < s.vbits.toNat) → ∃ u, exec .unpack s = .next u ∧ s.Failed u .malformedContainer) ∧
    (∀ (n : Word) (vb : Byte) (t : Tree) (p : List Byte), s.ilen.toNat = (be32 n ++ [vb] ++ t.ser ++ p).length →
      Memory.holds s.ibuf (be32 n ++ [vb] ++ t.ser ++ p) → p ≠ [] → (vb.toNat < 1 ∨ 8 < vb.toNat) →
      ∃ u, exec .decode s = .next u ∧ s.Failed u .malformedContainer)

/-- R207: with a tree of two or more leaves the walk never raises `CorruptCodeError`. -/
def Obligations.ProperTreeIsNeverCorrupt : Prop :=
  ∀ (l r : Tree) (p : List Byte) (vb cnt : Nat),
    unpackBits ((Tree.internal l r).records 0) p vb cnt ≠ throwErr .corruptCode

/-! ## The container -/

/-- R60, R95, R96, R223: a framed container parses back into its four fields. -/
def Obligations.ParseContainerInvertsFrame : Prop :=
  ∀ (n : Word) (vb : Nat) (t : Tree) (p : List Byte), t.distinct → 1 ≤ vb → vb ≤ 8 →
    parseContainer (frameContainer n vb t.ser p) =
      .ok { wCnt := n.toNat, wVb := vb, tm := t.records 0, ct := deriveCodes (t.records 0), packed := p }

/-- R222: `ENCODE` of a non-empty input all of whose symbols are leaves of the tree described in `TBUF` completes, from any
phase, with the container in `OBUF`, `OLEN = 5 + TLEN + ceil(T / 8)`, `VBITS = VB(T)`, `SYMCNT = ILEN`. -/
def Obligations.EncodeWritesTheContainer : Prop :=
  ∀ (s : State) (t : Tree) (d : List Byte), t.distinct → s.tlen.toNat = t.ser.length → Memory.holds s.tbuf t.ser →
    d ≠ [] → s.ilen.toNat = d.length → s.ilen.toNat ≤ s.caps.ibuf.val → Memory.holds s.ibuf d →
    (∀ x ∈ d, x ∈ t.symbols) → 5 + t.ser.length + ((t.stream d).length + 7) / 8 ≤ s.caps.obuf.val →
    ∃ u, exec .encode s = .next u ∧
      s.Produced u (be32 s.ilen ++ [BitVec.ofNat 8 (lastValidBits (t.stream d).length)] ++ t.ser ++
        packedBytes (t.stream d)) ∧
      u.olen.toNat = 5 + s.tlen.toNat + ((t.stream d).length + 7) / 8 ∧
      u.vbits.toNat = lastValidBits (t.stream d).length ∧ u.symcnt = s.ilen

/-- R230, R236, R237: `DECODE` of a well-formed container whose valid bits begin with the codes of `d` recovers `d`, from any
phase; no host-writable register changes. `d` may be empty, and with no packed byte the valid-bit field may hold anything. -/
def Obligations.DecodeRecoversTheBytes : Prop :=
  ∀ (s : State) (n : Word) (vb : Byte) (t : Tree) (p d : List Byte) (rest : Bits), t.distinct →
    s.ilen.toNat = (be32 n ++ [vb] ++ t.ser ++ p).length → s.ilen.toNat ≤ s.caps.ibuf.val →
    Memory.holds s.ibuf (be32 n ++ [vb] ++ t.ser ++ p) → badValidBits p.length vb.toNat = false →
    n.toNat = d.length → (∀ x ∈ d, x ∈ t.symbols) → validBits p vb.toNat = t.stream d ++ rest →
    n.toNat ≤ s.caps.obuf.val →
    ∃ u, exec .decode s = .next u ∧ s.Produced u d ∧ u.vbits = s.vbits ∧ u.symcnt = s.symcnt

/-- R231, R238: `DECODE` of a container shorter than its header, or of one whose bytes after the header do not start with a
description, ends with `MalformedContainerError`, before any stream bit is walked. That it ends so also when `original_length`
exceeds `OBUF_CAP` is the model's choice (log 4). -/
def Obligations.DecodeRejectsMalformedContainers : Prop :=
  ∀ s : State, s.ilen.toNat ≤ s.caps.ibuf.val →
    (s.ilen.toNat < 5 → ∃ u, exec .decode s = .next u ∧ s.Failed u .malformedContainer) ∧
    (∀ (n : Word) (vb : Byte) (b : List Byte), s.ilen.toNat = (be32 n ++ [vb] ++ b).length →
      Memory.holds s.ibuf (be32 n ++ [vb] ++ b) → (¬∃ (t : Tree) (p : List Byte), t.distinct ∧ b = t.ser ++ p) →
      ∃ u, exec .decode s = .next u ∧ s.Failed u .malformedContainer)

/-- R204, R237, R288: `DECODE` of a well-formed container whose valid bits end before the codes of the symbols owed ends
with `TruncatedStreamError`. -/
def Obligations.DecodeTruncatedStream : Prop :=
  ∀ (s : State) (n : Word) (vb : Byte) (t : Tree) (p d : List Byte) (rest : Bits), t.distinct →
    s.ilen.toNat = (be32 n ++ [vb] ++ t.ser ++ p).length → s.ilen.toNat ≤ s.caps.ibuf.val →
    Memory.holds s.ibuf (be32 n ++ [vb] ++ t.ser ++ p) → badValidBits p.length vb.toNat = false →
    n.toNat = d.length → (∀ x ∈ d, x ∈ t.symbols) → rest ≠ [] → t.stream d = validBits p vb.toNat ++ rest →
    n.toNat ≤ s.caps.obuf.val →
    ∃ u, exec .decode s = .next u ∧ s.Failed u .truncatedStream

/-- R205, R230, R289: `DECODE` of a container with a degenerate tree and a stream bit 1 among the bits needed ends with
`CorruptCodeError`. -/
def Obligations.DecodeCorruptCode : Prop :=
  ∀ (s : State) (m : Word) (vb : Byte) (x : Byte) (p : List Byte) (n : Nat) (rest : Bits),
    s.ilen.toNat = (be32 m ++ [vb] ++ (Tree.leaf x).ser ++ p).length → s.ilen.toNat ≤ s.caps.ibuf.val →
    Memory.holds s.ibuf (be32 m ++ [vb] ++ (Tree.leaf x).ser ++ p) → badValidBits p.length vb.toNat = false →
    validBits p vb.toNat = List.replicate n false ++ true :: rest → n < m.toNat → m.toNat ≤ s.caps.obuf.val →
    ∃ u, exec .decode s = .next u ∧ s.Failed u .corruptCode

/-! ## Laws that tie the commands together -/

/-- R241: what `ENCODE` produced without error, `DECODE` turns back into `ENCODE`'s input, whatever ran in between. -/
def Obligations.DecodeInvertsEncode : Prop :=
  ∀ (s u v : State) (d c : List Byte), s.ilen.toNat = d.length → Memory.holds s.ibuf d → exec .encode s = .next u →
    u.err = none → u.olen.toNat = c.length → Memory.holds u.obuf c →
    v.ilen.toNat = c.length → Memory.holds v.ibuf c → v.ilen.toNat ≤ v.caps.ibuf.val → d.length ≤ v.caps.obuf.val →
    ∃ w, exec .decode v = .next w ∧ v.Produced w d

/-- R240: `ENCODE` against `LDTREE` and then `PACK` on the same inputs: where the pair succeeds `ENCODE` succeeds with the
container framed from its results, when that fits; where the pair fails `ENCODE` fails with the same error, but for
`EmptyInputError` when `ILEN = 0`. -/
def Obligations.EncodeIsLdtreeThenPack : Prop :=
  ∀ (s u v : State), exec .ldtree s = .next u → exec .pack u = .next v →
    (∀ b p : List Byte, v.err = none → s.tlen.toNat = b.length → Memory.holds s.tbuf b → v.olen.toNat = p.length →
      Memory.holds v.obuf p → 5 + b.length + p.length ≤ s.caps.obuf.val →
      ∃ w, exec .encode s = .next w ∧ s.Produced w (be32 s.ilen ++ [v.vbits.setWidth 8] ++ b ++ p) ∧
        w.vbits = v.vbits ∧ w.symcnt = v.symcnt) ∧
    (∀ e, u.err = none → v.err = some e → ∃ w, exec .encode s = .next w ∧ s.Failed w e) ∧
    (∀ e, u.err = some e →
      ∃ w, exec .encode s = .next w ∧ s.Failed w (if s.ilen.toNat = 0 then .emptyInput else e))

/-- R240: `DECODE` of a container ends like `LDTREE` of its description followed by `UNPACK` of its packed bytes, with the
same error or the same bytes, where `VBITS` can hold the valid-bit field (4 bits). -/
def Obligations.DecodeIsLdtreeThenUnpack : Prop :=
  ∀ (s a u b v : State) (n : Word) (vb : Byte) (t : Tree) (p : List Byte), t.distinct →
    s.ilen.toNat = (be32 n ++ [vb] ++ t.ser ++ p).length → s.ilen.toNat ≤ s.caps.ibuf.val →
    Memory.holds s.ibuf (be32 n ++ [vb] ++ t.ser ++ p) → n.toNat ≤ s.caps.obuf.val →
    a.tlen.toNat = t.ser.length → Memory.holds a.tbuf t.ser → exec .ldtree a = .next u →
    b.phase = u.phase → b.tm = u.tm → b.ct = u.ct → b.ilen.toNat = p.length → Memory.holds b.ibuf p →
    b.vbits.toNat = vb.toNat → b.symcnt = n → exec .unpack b = .next v →
    ∃ w, exec .decode s = .next w ∧ w.err = v.err ∧ w.olen = v.olen ∧ w.phase = v.phase ∧
      ∀ i, i < w.olen.toNat → Memory.read w.obuf i = Memory.read v.obuf i

/-- R242: a command is a function of its operands. Where two states agree on the operands of a command (`State.SameOperands`,
which asks nothing of the loaded tree, the buffers and the registers the command does not read) and it completes from the one,
it completes from the other with the same `STATUS`, `OLEN`, result bytes and tree; `VBITS` and `SYMCNT` are the same where the
command writes them, and where it does not if they were the same before. -/
def Obligations.ResultsDependOnOperandsOnly : Prop :=
  ∀ (i : Instr) (s t u : State), i ≠ .nop → State.SameOperands i s t → exec i s = .next u →
    ∃ v, exec i t = .next v ∧ u.status = v.status ∧ u.olen = v.olen ∧ u.tm = v.tm ∧ u.ct = v.ct ∧
      (∀ k, k < u.olen.toNat → Memory.read u.obuf k = Memory.read v.obuf k) ∧
      (i ∈ [Instr.pack, .encode] → u.err = none → u.vbits = v.vbits ∧ u.symcnt = v.symcnt) ∧
      (s.vbits = t.vbits → u.vbits = v.vbits) ∧ (s.symcnt = t.symcnt → u.symcnt = v.symcnt)

/-! ## Sequencing, errors, frames -/

/-- R252: the phase after every command word, reserved ones included, for every phase at issue. -/
def Obligations.PhaseTable : Prop :=
  ∀ (w : Word) (s u : State), issueWord w s = .next u →
    match decode w with
    | .error _ => u.phase = .done ∧ u.err = some .illegalCommand
    | .ok .nop => u.phase = s.phase
    | .ok .clear => u.phase = .start ∧ u.err = none
    | .ok .ldtree => (u.err = none ∧ u.phase = .treeReady) ∨ (u.err ≠ none ∧ u.phase = .done)
    | .ok .pack | .ok .unpack => u.phase = .done ∧ (s.phase ≠ .treeReady → u.err = some .illegalCommand)
    | .ok .encode | .ok .decode => u.phase = .done ∧ u.err ≠ some .illegalCommand

/-- R253: whenever a command leaves `PHASE` at `Done` or `Start` the tree is gone; a tree serves one transcoding: after any `PACK`,
`UNPACK`, `ENCODE` or `DECODE` the next `PACK` or `UNPACK` without a new `LDTREE` ends with `IllegalCommandError`. -/
def Obligations.TreeServesOneTranscoding : Prop :=
  ∀ (i : Instr) (s u : State), i ≠ .nop → exec i s = .next u →
    (u.phase = .done ∨ u.phase = .start → u.treeInvalid) ∧
    (i ∈ [Instr.pack, .unpack, .encode, .decode] → u.treeInvalid ∧
      (u.ilen.toNat ≤ u.caps.ibuf.val → ∃ v, exec .pack u = .next v ∧ u.Failed v .illegalCommand) ∧
      (u.ilen.toNat ≤ u.caps.ibuf.val → u.symcnt.toNat ≤ u.caps.obuf.val →
        ∃ v, exec .unpack u = .next v ∧ u.Failed v .illegalCommand))

/-- R283: whatever command raises whatever error, the state afterwards is the same but for `ERR <- c`, `OLEN <- 0`,
`PHASE <- Done`, `BUSY <- 0`, the tree gone and `OBUF` unspecified. -/
def Obligations.RaisedErrorEndsTheCall : Prop :=
  ∀ (i : Instr) (s u : State) (e : ErrCode), i ≠ .nop → exec i s = .next u → u.err = some e → s.Failed u e

/-- R68: no command writes `ILEN`, `TLEN`, `IBUF` or `TBUF`; `VBITS` and `SYMCNT` are written by `PACK` and `ENCODE` on success
only. Every byte of `IBUF` and `TBUF` reads as before; that an unwritten byte, a free value, reads the same across a command
is the model's choice (log 6). -/
def Obligations.CommandsKeepTheHostsInputs : Prop :=
  ∀ (i : Instr) (s u : State), exec i s = .next u →
    s.KeepsInputs u ∧ (∀ k, u.byteAt .ibuf k = s.byteAt .ibuf k) ∧ (∀ k, u.byteAt .tbuf k = s.byteAt .tbuf k) ∧
    (¬(i ∈ [Instr.pack, .encode] ∧ u.err = none) → u.vbits = s.vbits ∧ u.symcnt = s.symcnt)

/-- R251 with R72 and R335: every admitted command completes. -/
def Obligations.AdmittedCommandCompletes : Prop :=
  ∀ (i : Instr) (s : State), s.Admits i → ∃ u, exec i s = .next u

/-- No command faults, and one is refused only for an input beyond `IBUF_CAP`, a result beyond `OBUF_CAP`, or a byte of a
valid prefix that has no value (R72, R335; the order of these tests is the model's, log 4). The result lengths are R72's. -/
def Obligations.CommandStopsOnlyWhenNotAdmitted : Prop :=
  ∀ (i : Instr) (s : State), (∀ f, exec i s ≠ .fault f) ∧
    ∀ r, exec i s = .refused r →
      (r = .inputBeyondCapacity ∧ i ∈ [Instr.pack, .unpack, .encode, .decode] ∧ s.caps.ibuf.val < s.ilen.toNat) ∨
      (r = .resultBeyondCapacity ∧
        ((i = .unpack ∧ s.caps.obuf.val < s.symcnt.toNat) ∨
        (i = .pack ∧ ∃ d, s.ilen.toNat = d.length ∧ Memory.holds s.ibuf d ∧
          s.caps.obuf.val < ((codeStream s.ct d).length + 7) / 8) ∨
        (i = .encode ∧ ∃ (t : Tree) (d : List Byte), t.distinct ∧ s.tlen.toNat = t.ser.length ∧ Memory.holds s.tbuf t.ser ∧
          s.ilen.toNat = d.length ∧ Memory.holds s.ibuf d ∧
          s.caps.obuf.val < 5 + s.tlen.toNat + ((t.stream d).length + 7) / 8) ∨
        (i = .decode ∧ ∃ c0 c1 c2 c3, Memory.holds s.ibuf [c0, c1, c2, c3] ∧
          s.caps.obuf.val < originalLength c0 c1 c2 c3))) ∨
      (∃ k, r = .unwrittenByte .ibuf k ∧ i ∈ [Instr.pack, .unpack, .encode, .decode] ∧ k < s.ilen.toNat ∧
        Memory.read s.ibuf k = none) ∨
      (∃ k, r = .unwrittenByte .tbuf k ∧ i ∈ [Instr.ldtree, .encode] ∧ k < s.tlen.toNat ∧ Memory.read s.tbuf k = none)

/-! ## The invariant -/

/-- The state after reset meets the invariant (R50). -/
def Obligations.ResetMeetsTheInvariant : Prop := State.reset.Inv

/-- Every step keeps the invariant: `BUSY = 0`, `PHASE` one of the three a host can observe, the buffers in canonical form
and inside their capacities, exactly `OBUF[0 .. OLEN − 1]` specified, a valid tree in `TreeReady` and none outside it. -/
def Obligations.StepKeepsTheInvariant : Prop :=
  ∀ s u : State, s.Inv → step s = .next u → u.Inv

/-! ## The host's accesses -/

/-- R22, R25, R258: what a host read of each register returns, and that only the host's record of it changes. -/
def Obligations.RegisterReadsReturnTheFields : Prop :=
  ∀ (s : State) (off : Nat), s.busy = false → off % 4 = 0 →
    ∃ v, hostAccess (.regRead 32 off) s = .next (s.saw (.reg off v)) ∧
      (off = 0x00 → v = 0) ∧
      (off = 0x04 → v.extractLsb' 0 1 = 0#1 ∧ v.extractLsb' 1 3 = 0#3 ∧ v.extractLsb' 4 4 = errField s.err ∧
        v.extractLsb' 8 3 = s.phase.code ∧ v.extractLsb' 11 21 = 0#21) ∧
      (off = 0x08 → v = s.ilen) ∧ (off = 0x0C → v.toNat = s.tlen.toNat) ∧ (off = 0x10 → v = s.olen) ∧
      (off = 0x14 → v.toNat = s.vbits.toNat) ∧ (off = 0x18 → v = s.symcnt) ∧ (0x1C ≤ off → v = 0)

/-- R259: what a host write of each register does: a write to `CMD` issues a command, the others do what they say and nothing
else. -/
def Obligations.RegisterWritesSetTheFields : Prop :=
  ∀ (s : State) (off : Nat) (v : Word), s.busy = false → off % 4 = 0 →
    (off = 0x00 → hostAccess (.regWrite 32 off v) s = issueWord v s) ∧
    (off ≠ 0x00 → ∃ t, hostAccess (.regWrite 32 off v) s = .next t ∧
      (off = 0x08 → t = { s with ilen := v }) ∧
      (off = 0x0C → t = { s with tlen := v.setWidth 10 }) ∧
      (off = 0x14 → t = { s with vbits := v.setWidth 4 }) ∧
      (off = 0x18 → t = { s with symcnt := v }) ∧
      (off = 0x04 ∨ off = 0x10 ∨ 0x1C ≤ off → t = s))

/-- R78, R260: a host write of a buffer byte sets that byte of `IBUF` or `TBUF` and no other, disturbs no register and no loaded
tree, and is ignored in `OBUF`. That an unspecified byte, a free value, reads the same across the write is the model's choice
(log 6). -/
def Obligations.BufferWritesSetOneByte : Prop :=
  ∀ (s : State) (b : Buffer) (i : Nat) (v : Byte), s.busy = false → i < s.capacity b →
    ∃ t, hostAccess (.bufWrite b i v) s = .next t ∧ (b = .obuf → t = s) ∧
      (∀ c j, (c, j) ≠ (b, i) → t.byteAt c j = s.byteAt c j) ∧ (b ≠ .obuf → t.byteAt b i = v) ∧
      t.tm = s.tm ∧ t.ct = s.ct ∧ t.status = s.status ∧ t.ilen = s.ilen ∧ t.tlen = s.tlen ∧ t.olen = s.olen ∧
      t.vbits = s.vbits ∧ t.symcnt = s.symcnt ∧ t.work = s.work ∧ t.caps = s.caps ∧ t.host = s.host

/-- R67, R260: reading is idempotent: a buffer read returns the byte stored, and reading again after any register or buffer
read returns the same byte. That this holds of an unspecified byte, a free value, too is the model's reading (log 6). -/
def Obligations.ReadsAreIdempotent : Prop :=
  ∀ (s t : State) (a : HostAccess) (b : Buffer) (i : Nat), s.busy = false → i < s.capacity b →
    (∃ off, a = .regRead 32 off) ∨ (∃ c j, a = .bufRead c j) → hostAccess a s = .next t →
    { t with host := s.host } = s ∧
    hostAccess (.bufRead b i) s = .next (s.saw (.byte b i (s.byteAt b i))) ∧
    hostAccess (.bufRead b i) t = .next (t.saw (.byte b i (s.byteAt b i))) ∧
    (∀ v, Memory.read (s.buffer b) i = some v → s.byteAt b i = v)

/-- R66: a register access that is not 32 bits wide or not at a multiple of 4 is refused. -/
def Obligations.RegisterAccessOfWrongShapeIsRefused : Prop :=
  ∀ (s : State) (width off : Nat) (v : Word),
    ((width ≠ 32 ∨ off % 4 ≠ 0) → (∃ r, hostAccess (.regRead width off) s = .refused r) ∧
      (∃ r, hostAccess (.regWrite width off v) s = .refused r)) ∧
    (wfRegAccess width off = true ↔ width = 32 ∧ off % 4 = 0)

/-- R65, R72: a buffer access at or above the capacity is refused, under a name of its own. -/
def Obligations.BufferAccessBeyondCapacityStops : Prop :=
  ∀ (s : State) (b : Buffer) (i : Nat) (v : Byte), s.busy = false → s.capacity b ≤ i →
    hostAccess (.bufRead b i) s = .refused (.noSuchByte b i) ∧
    hostAccess (.bufWrite b i v) s = .refused (.noSuchByte b i)

/-- R261, R340: while `BUSY = 1` a read of `STATUS` returns `BUSY = 1` and every other access is refused. -/
def Obligations.BusyBlockShowsOnlyStatus : Prop :=
  ∀ s : State, s.busy = true →
    (∃ t v, hostAccess (.regRead 32 4) s = .next t ∧ t.host.seen = .reg 4 v :: s.host.seen ∧ v.getLsbD 0 = true ∧
      { t with host := s.host, free := s.free } = s) ∧
    (∀ off, off % 4 = 0 → off ≠ 4 → hostAccess (.regRead 32 off) s = .refused .accessWhileBusy) ∧
    (∀ off v, off % 4 = 0 → hostAccess (.regWrite 32 off v) s = .refused .accessWhileBusy) ∧
    (∀ b i v, hostAccess (.bufRead b i) s = .refused .accessWhileBusy ∧
      hostAccess (.bufWrite b i v) s = .refused .accessWhileBusy)

/-- R330, R331 with R50: hardware reset, in any state and also while `BUSY = 1`, puts every register at 0, `PHASE` at `Start`, drops
the tree and leaves no buffer byte specified; the initial state of the machine is such a state, and it waits for a command.
That reset is a host access which keeps the capacities and the host is the model's choice (log 1, log 19), and so is the step
with no access to come (log 15). -/
def Obligations.ResetGivesTheResetState : Prop :=
  (∀ (s : State) (rest : List HostAccess), s.host.script = .reset :: rest →
    ∃ t, step s = .next t ∧ t.status = 0#32 ∧ t.busy = false ∧ t.err = none ∧ t.phase = .start ∧ t.ilen = 0 ∧ t.tlen = 0 ∧
      t.olen = 0 ∧ t.vbits = 0 ∧ t.symcnt = 0 ∧ t.treeInvalid ∧
      (∀ b i, Memory.read (t.buffer b) i = none) ∧ t.caps = s.caps ∧ t.host.seen = s.host.seen ∧ t.host.script = rest) ∧
  State.reset.status = 0#32 ∧ State.reset.ilen = 0 ∧ State.reset.tlen = 0 ∧ State.reset.olen = 0 ∧ State.reset.vbits = 0 ∧
  State.reset.symcnt = 0 ∧ State.reset.treeInvalid ∧ (∀ b i, Memory.read (State.reset.buffer b) i = none) ∧
  step State.reset = .next State.reset

/-- A byte read after a write is the byte written at that index and the old one elsewhere, and a write keeps the canonical
form (R65; the form is the model's, log 5). -/
def Obligations.BufferReadAfterWrite : Prop :=
  ∀ (m : List Host.Cell) (i j : Nat) (v : Byte),
    Memory.read (Memory.write m i v) j = (if i = j then some v else Memory.read m j) ∧
    (Memory.wf m → Memory.wf (Memory.write m i v))

/-! ## The micro-step forms -/

/-- R158: the node-by-node parse, from any start index, ends like `ParseTree`, with the same `TM` and `rp` just after the
description, within one step more than there are bytes. -/
def Obligations.ParseMicroStepsRefineParseTree : Prop :=
  ∀ (buf : List Byte) (a fuel : Nat), a ≤ buf.length → buf.length - a < fuel →
    match parseTree (buf.drop a) with
    | .ok (tm, rest) => ∃ w, Micro.run (parseMicro buf) fuel (parseStart a) = some (none, w, tm) ∧
        w.rp + rest.length = buf.length ∧ w.stack = []
    | .error _ => ∃ x, Micro.run (parseMicro buf) fuel (parseStart a) = some (some .malformedContainer, x)

/-- R161 over the registers `stack` and `path` of R40 (log 13): the node-by-node derivation fills `CT` like `DeriveCodes`,
within one step for each node, and ends with `stack` empty. -/
def Obligations.DeriveMicroStepsRefineDeriveCodes : Prop :=
  ∀ (t : Tree) (fuel : Nat), (t.records 0).length ≤ fuel →
    ∃ w, Micro.run (deriveMicro (t.records 0)) fuel deriveStart = some (none, w, deriveCodes (t.records 0)) ∧ w.stack = []

/-- R185: the bit-by-bit packer leaves in `OBUF` the packed bytes and in `wp` their number, and answers the same valid-bit
count, for any table and any input with at least one code bit. Where a symbol has no code it raises the same error when it
fetches the first such symbol, and the full bytes of the codes before it stay in `OBUF`. -/
def Obligations.PackMicroStepsRefinePackBits : Prop :=
  ∀ (ct : CodeTable) (d : List Byte),
    match packSymbols ct d with
    | .ok (p, vb) => codeStream ct d ≠ [] →
        ∃ w, packMicro ct d = .ok ((w, Memory.writeBytes [] 0 p), vb) ∧ w.wp = p.length ∧ w.rp = d.length
    | .error e => e = .raise .missingCode ∧ ∃ w a x b, d = a ++ x :: b ∧ (∀ y ∈ a, (ct.code y).isSome) ∧ ct.code x = none ∧
        packMicro ct d = .error (.missingCode, w,
          Memory.writeBytes [] 0 ((packedBytes (codeStream ct a)).take ((codeStream ct a).length / 8))) ∧
        w.wp = (codeStream ct a).length / 8 ∧ w.rp = a.length + 1

/-- R209: the bit-by-bit walk over `IBUF` from `p0` ends like `UnpackBits` on the packed bytes there, with the same bytes in
`OBUF` or the same error, for any contents of `TM`, within one step more than there are valid bits. `wp` and `emitted` both
count the bytes written, `rp` is just past the byte of the last bit consumed (log 25), and after an error the symbols decoded
before it stay in `OBUF`. -/
def Obligations.WalkMicroStepsRefineUnpackBits : Prop :=
  ∀ (tm : TreeMem) (buf : List Byte) (p0 vb cnt fuel : Nat), p0 ≤ buf.length →
    badValidBits (buf.length - p0) vb = false → nValid (buf.length - p0) vb < fuel →
    match unpackBits tm (buf.drop p0) vb cnt with
    | .ok out => ∃ w, Micro.run (walkMicro tm buf) fuel (walkStart p0 (buf.length - p0) vb cnt) =
        some (none, w, Memory.writeBytes [] 0 out) ∧ w.emitted = out.length ∧ w.wp = out.length ∧ w.cur = 0 ∧
        w.rp = p0 + (w.k + 7) / 8
    | .error (.raise e) => ∃ w out, Micro.run (walkMicro tm buf) fuel (walkStart p0 (buf.length - p0) vb cnt) =
        some (some e, w, Memory.writeBytes [] 0 out) ∧ w.emitted = out.length ∧ w.wp = out.length ∧
        w.rp = p0 + (w.k + 7) / 8 ∧ unpackBits tm (buf.drop p0) vb out.length = .ok out
    | .error (.refuse _) => False

/-- R224: the order in which a hardware engine writes the container leaves the bytes of `ENCODE`'s rule. -/
def Obligations.EncodeWriteOrderGivesTheContainer : Prop :=
  ∀ (n : Word) (vb : Nat) (d p : List Byte),
    encodeWrites n vb d p = Memory.writeBytes [] 0 (frameContainer n vb d p)

/-! ## The host's stages -/

/-- R130: the frequency table has every byte value present, each once, with its count, and no other. -/
def Obligations.FrequencyTableCounts : Prop :=
  ∀ d : List Byte, ((freq d).map Prod.fst).Nodup ∧ (∀ s n, (s, n) ∈ freq d ↔ s ∈ d ∧ n = d.count s) ∧
    (freq d = [] ↔ d = [])

/-- R135, R136: the reference builder gives a tree whose leaf symbols are exactly the table's symbols, each once. -/
def Obligations.ReferenceBuilderIsATreeBuilder : Prop := TreeBuilder refBuild

/-- R140: round trip of the host's procedures: with any tree builder that meets R135, from any two states whose capacities
are large enough, encoding a non-empty `d` and decoding the result returns `d`. -/
def Obligations.HostRoundTrip : Prop :=
  ∀ (buildTree : FreqTable → Tree) (d : List Byte) (s v : State), TreeBuilder buildTree → d ≠ [] → d.length < 2 ^ 32 →
    s.busy = false → v.busy = false → d.length ≤ s.caps.ibuf.val → 772 + 32 * d.length ≤ s.caps.obuf.val →
    d.length ≤ v.caps.obuf.val → 772 + 32 * d.length ≤ v.caps.ibuf.val →
    ∃ ls u c w, hostEncode buildTree d = .ok ls ∧ runAccesses (expandScript ls) s = .next u ∧ u.result = .ok c ∧
      runAccesses (expandScript (hostDecode c)) v = .next w ∧ w.result = .ok d
end

