-- ==== Sys2Proof/Laws/Bits.lean ====
section
/-! SUPPORT. Bit order, byte order, packing: the stream of the packed bytes is the packed stream and its padding. -/

namespace Sys2Proof.Machine

theorem byteOf_eq (b : Nat → Bool) : byteOf b =
    BitVec.ofNat 8 ((b 0).toNat * 128 + (b 1).toNat * 64 + (b 2).toNat * 32 + (b 3).toNat * 16 + (b 4).toNat * 8 +
      (b 5).toNat * 4 + (b 6).toNat * 2 + (b 7).toNat) := by
  simp [byteOf, List.range_succ, Nat.add_assoc]

theorem byteBits_of_sum : ∀ b0 b1 b2 b3 b4 b5 b6 b7 : Bool,
    byteBits (BitVec.ofNat 8 (b0.toNat * 128 + b1.toNat * 64 + b2.toNat * 32 + b3.toNat * 16 + b4.toNat * 8 +
      b5.toNat * 4 + b6.toNat * 2 + b7.toNat)) = [b0, b1, b2, b3, b4, b5, b6, b7] := by
  decide

/-- The bits of a byte made of eight bits are those bits, in order. -/
theorem byteBits_byteOf (b : Nat → Bool) : byteBits (byteOf b) = (List.range 8).map b := by
  rw [byteOf_eq, byteBits_of_sum]; rfl

theorem byteBits_length (v : Byte) : (byteBits v).length = 8 := rfl

theorem byteBits_getElem (v : Byte) (m : Nat) (h : m < 8) :
    (byteBits v)[m]'(by rw [byteBits_length]; exact h) = v.getLsbD (7 - m) := by
  have : m = 0 ∨ m = 1 ∨ m = 2 ∨ m = 3 ∨ m = 4 ∨ m = 5 ∨ m = 6 ∨ m = 7 := by omega
  rcases this with rfl | rfl | rfl | rfl | rfl | rfl | rfl | rfl <;> rfl

@[simp] theorem streamBits_length (p : List Byte) : (streamBits p).length = 8 * p.length := by
  induction p with
  | nil => rfl
  | cons v p ih =>
    simp only [streamBits, List.flatMap_cons, List.length_append, List.length_cons, byteBits_length] at ih ⊢
    omega

/-- The stream bits in order are `StreamBit(P, 0)`, `StreamBit(P, 1)`, … (R17). -/
theorem streamBits_getElem (p : List Byte) (k : Nat) (h : k < 8 * p.length) :
    (streamBits p)[k]'(by simpa using h) = streamBit p k := by
  induction p generalizing k with
  | nil => simp at h
  | cons v p ih =>
    have e : streamBits (v :: p) = byteBits v ++ streamBits p := rfl
    simp only [e]
    by_cases hk : k < 8
    · rw [List.getElem_append_left (by rw [byteBits_length]; exact hk), byteBits_getElem v k hk]
      simp [streamBit, Nat.div_eq_of_lt hk, Nat.mod_eq_of_lt hk]
    · obtain ⟨j, rfl⟩ : ∃ j, k = j + 8 := ⟨k - 8, by omega⟩
      rw [List.length_cons] at h
      rw [List.getElem_append_right (by rw [byteBits_length]; omega)]
      have := ih j (by omega)
      simp only [byteBits_length, Nat.add_sub_cancel]
      rw [this]
      have h1 : (j + 8) / 8 = j / 8 + 1 := by omega
      have h2 : (j + 8) % 8 = j % 8 := by omega
      simp [streamBit, h1, h2]

@[simp] theorem packedBytes_length (bits : Bits) : (packedBytes bits).length = (bits.length + 7) / 8 := by
  simp [packedBytes]

theorem streamBit_packedBytes (bits : Bits) (k : Nat) (h : k < 8 * ((bits.length + 7) / 8)) :
    streamBit (packedBytes bits) k = bits.getD k false := by
  have hj : k / 8 < (bits.length + 7) / 8 := by omega
  have e : (packedBytes bits).getD (k / 8) 0 = byteOf fun m => bits.getD (8 * (k / 8) + m) false := by
    simp [packedBytes, List.getD_eq_getElem?_getD, hj, packedByte]
  have hm : k % 8 < 8 := Nat.mod_lt _ (by decide)
  rw [streamBit, e, ← byteBits_getElem _ _ hm]
  simp only [byteBits_byteOf, List.getElem_map, List.getElem_range]
  congr 1
  omega

/-- The stream of the packed bytes: the packed stream, then zeros (R102). -/
theorem streamBits_packedBytes (bits : Bits) :
    streamBits (packedBytes bits) = bits ++ List.replicate (8 * ((bits.length + 7) / 8) - bits.length) false := by
  apply List.ext_getElem
  · simp; omega
  · intro k h1 h2
    simp only [streamBits_length, packedBytes_length] at h1
    rw [streamBits_getElem _ _ (by simpa using h1), streamBit_packedBytes _ _ h1]
    by_cases hk : k < bits.length
    · rw [List.getElem_append_left hk]; simp [hk]
    · rw [List.getElem_append_right (by omega)]; simp [hk]

theorem lastValidBits_range (t : Nat) : 1 ≤ lastValidBits t ∧ lastValidBits t ≤ 8 := by
  unfold lastValidBits; omega

/-- The valid-bit count undoes the padding: `NValid(ceil(T / 8), VB(T)) = T` (R184, R202). -/
theorem nValid_lastValidBits (t : Nat) : nValid ((t + 7) / 8) (lastValidBits t) = t := by
  unfold nValid lastValidBits
  split <;> omega

/-- The valid bits of the packed bytes are the packed stream (R102, R103). -/
theorem validBits_packedBytes (bits : Bits) : validBits (packedBytes bits) (lastValidBits bits.length) = bits := by
  rw [validBits, packedBytes_length, nValid_lastValidBits, streamBits_packedBytes]
  simp

theorem badValidBits_lastValidBits (n t : Nat) : badValidBits n (lastValidBits t) = false := by
  have := lastValidBits_range t
  simp [badValidBits]
  omega

theorem lastValidBits_toNat4 (t : Nat) : (BitVec.ofNat 4 (lastValidBits t)).toNat = lastValidBits t := by
  have := lastValidBits_range t
  simp; omega

theorem lastValidBits_toNat8 (t : Nat) : (BitVec.ofNat 8 (lastValidBits t)).toNat = lastValidBits t := by
  have := lastValidBits_range t
  simp; omega

theorem validBits_length_le (p : List Byte) (vb : Nat) : (validBits p vb).length ≤ nValid p.length vb := by
  simp [validBits]

theorem validBits_nil (vb : Nat) : validBits [] vb = [] := by simp [validBits, streamBits]

theorem validBits_length (p : List Byte) (vb : Nat) (h : badValidBits p.length vb = false) :
    (validBits p vb).length = nValid p.length vb := by
  simp only [validBits, List.length_take, streamBits_length]
  simp [badValidBits] at h
  unfold nValid
  split
  · omega
  · omega

/-- `original_length` reads back `BE32` (R60, R96). -/
theorem originalLength_be32 (n : Word) :
    originalLength (n.extractLsb' 24 8) (n.extractLsb' 16 8) (n.extractLsb' 8 8) (n.extractLsb' 0 8) = n.toNat := by
  have := n.isLt
  simp only [originalLength, BitVec.extractLsb'_toNat, Nat.shiftRight_eq_div_pow]
  omega

theorem originalLength_lt (a b c d : Byte) : originalLength a b c d < 2 ^ 32 := by
  have := a.isLt; have := b.isLt; have := c.isLt; have := d.isLt
  unfold originalLength; omega

end Sys2Proof.Machine
end

