-- ==== Sys2Proof/Laws/State.lean ====
section
/-! SUPPORT. One lemma per field per update of State, true by rfl. -/

namespace Sys2Proof.Machine.State

variable (s : State)

/-! ### `issue` -/
@[simp] theorem issue_busy : (s.issue).busy = true := rfl
@[simp] theorem issue_err : (s.issue).err = none := rfl
@[simp] theorem issue_phase : (s.issue).phase = s.phase := rfl
@[simp] theorem issue_ilen : (s.issue).ilen = s.ilen := rfl
@[simp] theorem issue_tlen : (s.issue).tlen = s.tlen := rfl
@[simp] theorem issue_olen : (s.issue).olen = 0 := rfl
@[simp] theorem issue_vbits : (s.issue).vbits = s.vbits := rfl
@[simp] theorem issue_symcnt : (s.issue).symcnt = s.symcnt := rfl
@[simp] theorem issue_tm : (s.issue).tm = s.tm := rfl
@[simp] theorem issue_ct : (s.issue).ct = s.ct := rfl
@[simp] theorem issue_ibuf : (s.issue).ibuf = s.ibuf := rfl
@[simp] theorem issue_tbuf : (s.issue).tbuf = s.tbuf := rfl
@[simp] theorem issue_obuf : (s.issue).obuf = [] := rfl
@[simp] theorem issue_work : (s.issue).work = s.work := rfl
@[simp] theorem issue_caps : (s.issue).caps = s.caps := rfl
@[simp] theorem issue_host : (s.issue).host = s.host := rfl
@[simp] theorem issue_free : (s.issue).free = { s.free with epoch := s.free.epoch + 1 } := rfl

/-! ### `setPhase` -/
@[simp] theorem setPhase_busy (p : Phase) : (s.setPhase p).busy = s.busy := rfl
@[simp] theorem setPhase_err (p : Phase) : (s.setPhase p).err = s.err := rfl
@[simp] theorem setPhase_phase (p : Phase) : (s.setPhase p).phase = p := rfl
@[simp] theorem setPhase_ilen (p : Phase) : (s.setPhase p).ilen = s.ilen := rfl
@[simp] theorem setPhase_tlen (p : Phase) : (s.setPhase p).tlen = s.tlen := rfl
@[simp] theorem setPhase_olen (p : Phase) : (s.setPhase p).olen = s.olen := rfl
@[simp] theorem setPhase_vbits (p : Phase) : (s.setPhase p).vbits = s.vbits := rfl
@[simp] theorem setPhase_symcnt (p : Phase) : (s.setPhase p).symcnt = s.symcnt := rfl
@[simp] theorem setPhase_tm (p : Phase) : (s.setPhase p).tm = s.tm := rfl
@[simp] theorem setPhase_ct (p : Phase) : (s.setPhase p).ct = s.ct := rfl
@[simp] theorem setPhase_ibuf (p : Phase) : (s.setPhase p).ibuf = s.ibuf := rfl
@[simp] theorem setPhase_tbuf (p : Phase) : (s.setPhase p).tbuf = s.tbuf := rfl
@[simp] theorem setPhase_obuf (p : Phase) : (s.setPhase p).obuf = s.obuf := rfl
@[simp] theorem setPhase_work (p : Phase) : (s.setPhase p).work = s.work := rfl
@[simp] theorem setPhase_caps (p : Phase) : (s.setPhase p).caps = s.caps := rfl
@[simp] theorem setPhase_host (p : Phase) : (s.setPhase p).host = s.host := rfl
@[simp] theorem setPhase_free (p : Phase) : (s.setPhase p).free = s.free := rfl

/-! ### `dropTree` -/
@[simp] theorem dropTree_busy : (s.dropTree).busy = s.busy := rfl
@[simp] theorem dropTree_err : (s.dropTree).err = s.err := rfl
@[simp] theorem dropTree_phase : (s.dropTree).phase = s.phase := rfl
@[simp] theorem dropTree_ilen : (s.dropTree).ilen = s.ilen := rfl
@[simp] theorem dropTree_tlen : (s.dropTree).tlen = s.tlen := rfl
@[simp] theorem dropTree_olen : (s.dropTree).olen = s.olen := rfl
@[simp] theorem dropTree_vbits : (s.dropTree).vbits = s.vbits := rfl
@[simp] theorem dropTree_symcnt : (s.dropTree).symcnt = s.symcnt := rfl
@[simp] theorem dropTree_tm : (s.dropTree).tm = [] := rfl
@[simp] theorem dropTree_ct : (s.dropTree).ct = CodeTable.empty := rfl
@[simp] theorem dropTree_ibuf : (s.dropTree).ibuf = s.ibuf := rfl
@[simp] theorem dropTree_tbuf : (s.dropTree).tbuf = s.tbuf := rfl
@[simp] theorem dropTree_obuf : (s.dropTree).obuf = s.obuf := rfl
@[simp] theorem dropTree_work : (s.dropTree).work = s.work := rfl
@[simp] theorem dropTree_caps : (s.dropTree).caps = s.caps := rfl
@[simp] theorem dropTree_host : (s.dropTree).host = s.host := rfl
@[simp] theorem dropTree_free : (s.dropTree).free = s.free := rfl

/-! ### `clearWork` -/
@[simp] theorem clearWork_busy : (s.clearWork).busy = s.busy := rfl
@[simp] theorem clearWork_err : (s.clearWork).err = s.err := rfl
@[simp] theorem clearWork_phase : (s.clearWork).phase = s.phase := rfl
@[simp] theorem clearWork_ilen : (s.clearWork).ilen = s.ilen := rfl
@[simp] theorem clearWork_tlen : (s.clearWork).tlen = s.tlen := rfl
@[simp] theorem clearWork_olen : (s.clearWork).olen = s.olen := rfl
@[simp] theorem clearWork_vbits : (s.clearWork).vbits = s.vbits := rfl
@[simp] theorem clearWork_symcnt : (s.clearWork).symcnt = s.symcnt := rfl
@[simp] theorem clearWork_tm : (s.clearWork).tm = s.tm := rfl
@[simp] theorem clearWork_ct : (s.clearWork).ct = s.ct := rfl
@[simp] theorem clearWork_ibuf : (s.clearWork).ibuf = s.ibuf := rfl
@[simp] theorem clearWork_tbuf : (s.clearWork).tbuf = s.tbuf := rfl
@[simp] theorem clearWork_obuf : (s.clearWork).obuf = s.obuf := rfl
@[simp] theorem clearWork_work : (s.clearWork).work = Work.cleared := rfl
@[simp] theorem clearWork_caps : (s.clearWork).caps = s.caps := rfl
@[simp] theorem clearWork_host : (s.clearWork).host = s.host := rfl
@[simp] theorem clearWork_free : (s.clearWork).free = s.free := rfl

/-! ### `scrambleWork` -/
@[simp] theorem scrambleWork_busy : (s.scrambleWork).busy = s.busy := rfl
@[simp] theorem scrambleWork_err : (s.scrambleWork).err = s.err := rfl
@[simp] theorem scrambleWork_phase : (s.scrambleWork).phase = s.phase := rfl
@[simp] theorem scrambleWork_ilen : (s.scrambleWork).ilen = s.ilen := rfl
@[simp] theorem scrambleWork_tlen : (s.scrambleWork).tlen = s.tlen := rfl
@[simp] theorem scrambleWork_olen : (s.scrambleWork).olen = s.olen := rfl
@[simp] theorem scrambleWork_vbits : (s.scrambleWork).vbits = s.vbits := rfl
@[simp] theorem scrambleWork_symcnt : (s.scrambleWork).symcnt = s.symcnt := rfl
@[simp] theorem scrambleWork_tm : (s.scrambleWork).tm = s.tm := rfl
@[simp] theorem scrambleWork_ct : (s.scrambleWork).ct = s.ct := rfl
@[simp] theorem scrambleWork_ibuf : (s.scrambleWork).ibuf = s.ibuf := rfl
@[simp] theorem scrambleWork_tbuf : (s.scrambleWork).tbuf = s.tbuf := rfl
@[simp] theorem scrambleWork_obuf : (s.scrambleWork).obuf = s.obuf := rfl
@[simp] theorem scrambleWork_work : (s.scrambleWork).work = Config.freeWork s.free.epoch := rfl
@[simp] theorem scrambleWork_caps : (s.scrambleWork).caps = s.caps := rfl
@[simp] theorem scrambleWork_host : (s.scrambleWork).host = s.host := rfl
@[simp] theorem scrambleWork_free : (s.scrambleWork).free = s.free := rfl

/-! ### `startCall` -/
@[simp] theorem startCall_busy : (s.startCall).busy = s.busy := rfl
@[simp] theorem startCall_err : (s.startCall).err = s.err := rfl
@[simp] theorem startCall_phase : (s.startCall).phase = s.phase := rfl
@[simp] theorem startCall_ilen : (s.startCall).ilen = s.ilen := rfl
@[simp] theorem startCall_tlen : (s.startCall).tlen = s.tlen := rfl
@[simp] theorem startCall_olen : (s.startCall).olen = s.olen := rfl
@[simp] theorem startCall_vbits : (s.startCall).vbits = s.vbits := rfl
@[simp] theorem startCall_symcnt : (s.startCall).symcnt = s.symcnt := rfl
@[simp] theorem startCall_tm : (s.startCall).tm = [] := rfl
@[simp] theorem startCall_ct : (s.startCall).ct = CodeTable.empty := rfl
@[simp] theorem startCall_ibuf : (s.startCall).ibuf = s.ibuf := rfl
@[simp] theorem startCall_tbuf : (s.startCall).tbuf = s.tbuf := rfl
@[simp] theorem startCall_obuf : (s.startCall).obuf = s.obuf := rfl
@[simp] theorem startCall_work : (s.startCall).work = Work.cleared := rfl
@[simp] theorem startCall_caps : (s.startCall).caps = s.caps := rfl
@[simp] theorem startCall_host : (s.startCall).host = s.host := rfl
@[simp] theorem startCall_free : (s.startCall).free = s.free := rfl

/-! ### `loadTree` -/
@[simp] theorem loadTree_busy (tm : TreeMem) (ct : CodeTable) : (s.loadTree tm ct).busy = s.busy := rfl
@[simp] theorem loadTree_err (tm : TreeMem) (ct : CodeTable) : (s.loadTree tm ct).err = s.err := rfl
@[simp] theorem loadTree_phase (tm : TreeMem) (ct : CodeTable) : (s.loadTree tm ct).phase = .treeReady := rfl
@[simp] theorem loadTree_ilen (tm : TreeMem) (ct : CodeTable) : (s.loadTree tm ct).ilen = s.ilen := rfl
@[simp] theorem loadTree_tlen (tm : TreeMem) (ct : CodeTable) : (s.loadTree tm ct).tlen = s.tlen := rfl
@[simp] theorem loadTree_olen (tm : TreeMem) (ct : CodeTable) : (s.loadTree tm ct).olen = s.olen := rfl
@[simp] theorem loadTree_vbits (tm : TreeMem) (ct : CodeTable) : (s.loadTree tm ct).vbits = s.vbits := rfl
@[simp] theorem loadTree_symcnt (tm : TreeMem) (ct : CodeTable) : (s.loadTree tm ct).symcnt = s.symcnt := rfl
@[simp] theorem loadTree_tm (tm : TreeMem) (ct : CodeTable) : (s.loadTree tm ct).tm = tm := rfl
@[simp] theorem loadTree_ct (tm : TreeMem) (ct : CodeTable) : (s.loadTree tm ct).ct = ct := rfl
@[simp] theorem loadTree_ibuf (tm : TreeMem) (ct : CodeTable) : (s.loadTree tm ct).ibuf = s.ibuf := rfl
@[simp] theorem loadTree_tbuf (tm : TreeMem) (ct : CodeTable) : (s.loadTree tm ct).tbuf = s.tbuf := rfl
@[simp] theorem loadTree_obuf (tm : TreeMem) (ct : CodeTable) : (s.loadTree tm ct).obuf = s.obuf := rfl
@[simp] theorem loadTree_work (tm : TreeMem) (ct : CodeTable) : (s.loadTree tm ct).work = s.work := rfl
@[simp] theorem loadTree_caps (tm : TreeMem) (ct : CodeTable) : (s.loadTree tm ct).caps = s.caps := rfl
@[simp] theorem loadTree_host (tm : TreeMem) (ct : CodeTable) : (s.loadTree tm ct).host = s.host := rfl
@[simp] theorem loadTree_free (tm : TreeMem) (ct : CodeTable) : (s.loadTree tm ct).free = s.free := rfl

/-! ### `putResult` -/
@[simp] theorem putResult_busy (r : List Byte) : (s.putResult r).busy = s.busy := rfl
@[simp] theorem putResult_err (r : List Byte) : (s.putResult r).err = s.err := rfl
@[simp] theorem putResult_phase (r : List Byte) : (s.putResult r).phase = s.phase := rfl
@[simp] theorem putResult_ilen (r : List Byte) : (s.putResult r).ilen = s.ilen := rfl
@[simp] theorem putResult_tlen (r : List Byte) : (s.putResult r).tlen = s.tlen := rfl
@[simp] theorem putResult_olen (r : List Byte) : (s.putResult r).olen = BitVec.ofNat 32 r.length := rfl
@[simp] theorem putResult_vbits (r : List Byte) : (s.putResult r).vbits = s.vbits := rfl
@[simp] theorem putResult_symcnt (r : List Byte) : (s.putResult r).symcnt = s.symcnt := rfl
@[simp] theorem putResult_tm (r : List Byte) : (s.putResult r).tm = s.tm := rfl
@[simp] theorem putResult_ct (r : List Byte) : (s.putResult r).ct = s.ct := rfl
@[simp] theorem putResult_ibuf (r : List Byte) : (s.putResult r).ibuf = s.ibuf := rfl
@[simp] theorem putResult_tbuf (r : List Byte) : (s.putResult r).tbuf = s.tbuf := rfl
@[simp] theorem putResult_obuf (r : List Byte) : (s.putResult r).obuf = Memory.writeBytes s.obuf 0 r := rfl
@[simp] theorem putResult_work (r : List Byte) : (s.putResult r).work = s.work := rfl
@[simp] theorem putResult_caps (r : List Byte) : (s.putResult r).caps = s.caps := rfl
@[simp] theorem putResult_host (r : List Byte) : (s.putResult r).host = s.host := rfl
@[simp] theorem putResult_free (r : List Byte) : (s.putResult r).free = s.free := rfl

/-! ### `putPackCounts` -/
@[simp] theorem putPackCounts_busy (vb : Nat) : (s.putPackCounts vb).busy = s.busy := rfl
@[simp] theorem putPackCounts_err (vb : Nat) : (s.putPackCounts vb).err = s.err := rfl
@[simp] theorem putPackCounts_phase (vb : Nat) : (s.putPackCounts vb).phase = s.phase := rfl
@[simp] theorem putPackCounts_ilen (vb : Nat) : (s.putPackCounts vb).ilen = s.ilen := rfl
@[simp] theorem putPackCounts_tlen (vb : Nat) : (s.putPackCounts vb).tlen = s.tlen := rfl
@[simp] theorem putPackCounts_olen (vb : Nat) : (s.putPackCounts vb).olen = s.olen := rfl
@[simp] theorem putPackCounts_vbits (vb : Nat) : (s.putPackCounts vb).vbits = BitVec.ofNat 4 vb := rfl
@[simp] theorem putPackCounts_symcnt (vb : Nat) : (s.putPackCounts vb).symcnt = s.ilen := rfl
@[simp] theorem putPackCounts_tm (vb : Nat) : (s.putPackCounts vb).tm = s.tm := rfl
@[simp] theorem putPackCounts_ct (vb : Nat) : (s.putPackCounts vb).ct = s.ct := rfl
@[simp] theorem putPackCounts_ibuf (vb : Nat) : (s.putPackCounts vb).ibuf = s.ibuf := rfl
@[simp] theorem putPackCounts_tbuf (vb : Nat) : (s.putPackCounts vb).tbuf = s.tbuf := rfl
@[simp] theorem putPackCounts_obuf (vb : Nat) : (s.putPackCounts vb).obuf = s.obuf := rfl
@[simp] theorem putPackCounts_work (vb : Nat) : (s.putPackCounts vb).work = s.work := rfl
@[simp] theorem putPackCounts_caps (vb : Nat) : (s.putPackCounts vb).caps = s.caps := rfl
@[simp] theorem putPackCounts_host (vb : Nat) : (s.putPackCounts vb).host = s.host := rfl
@[simp] theorem putPackCounts_free (vb : Nat) : (s.putPackCounts vb).free = s.free := rfl

/-! ### `endCall` -/
@[simp] theorem endCall_busy : (s.endCall).busy = s.busy := rfl
@[simp] theorem endCall_err : (s.endCall).err = s.err := rfl
@[simp] theorem endCall_phase : (s.endCall).phase = .done := rfl
@[simp] theorem endCall_ilen : (s.endCall).ilen = s.ilen := rfl
@[simp] theorem endCall_tlen : (s.endCall).tlen = s.tlen := rfl
@[simp] theorem endCall_olen : (s.endCall).olen = s.olen := rfl
@[simp] theorem endCall_vbits : (s.endCall).vbits = s.vbits := rfl
@[simp] theorem endCall_symcnt : (s.endCall).symcnt = s.symcnt := rfl
@[simp] theorem endCall_tm : (s.endCall).tm = [] := rfl
@[simp] theorem endCall_ct : (s.endCall).ct = CodeTable.empty := rfl
@[simp] theorem endCall_ibuf : (s.endCall).ibuf = s.ibuf := rfl
@[simp] theorem endCall_tbuf : (s.endCall).tbuf = s.tbuf := rfl
@[simp] theorem endCall_obuf : (s.endCall).obuf = s.obuf := rfl
@[simp] theorem endCall_work : (s.endCall).work = Config.freeWork s.free.epoch := rfl
@[simp] theorem endCall_caps : (s.endCall).caps = s.caps := rfl
@[simp] theorem endCall_host : (s.endCall).host = s.host := rfl
@[simp] theorem endCall_free : (s.endCall).free = s.free := rfl

/-! ### `complete` -/
@[simp] theorem complete_busy : (s.complete).busy = false := rfl
@[simp] theorem complete_err : (s.complete).err = s.err := rfl
@[simp] theorem complete_phase : (s.complete).phase = s.phase := rfl
@[simp] theorem complete_ilen : (s.complete).ilen = s.ilen := rfl
@[simp] theorem complete_tlen : (s.complete).tlen = s.tlen := rfl
@[simp] theorem complete_olen : (s.complete).olen = s.olen := rfl
@[simp] theorem complete_vbits : (s.complete).vbits = s.vbits := rfl
@[simp] theorem complete_symcnt : (s.complete).symcnt = s.symcnt := rfl
@[simp] theorem complete_tm : (s.complete).tm = s.tm := rfl
@[simp] theorem complete_ct : (s.complete).ct = s.ct := rfl
@[simp] theorem complete_ibuf : (s.complete).ibuf = s.ibuf := rfl
@[simp] theorem complete_tbuf : (s.complete).tbuf = s.tbuf := rfl
@[simp] theorem complete_obuf : (s.complete).obuf = s.obuf := rfl
@[simp] theorem complete_work : (s.complete).work = s.work := rfl
@[simp] theorem complete_caps : (s.complete).caps = s.caps := rfl
@[simp] theorem complete_host : (s.complete).host = s.host := rfl
@[simp] theorem complete_free : (s.complete).free = s.free := rfl

/-! ### `raise` -/
@[simp] theorem raise_busy (e : ErrCode) : (s.raise e).busy = false := rfl
@[simp] theorem raise_err (e : ErrCode) : (s.raise e).err = some e := rfl
@[simp] theorem raise_phase (e : ErrCode) : (s.raise e).phase = .done := rfl
@[simp] theorem raise_ilen (e : ErrCode) : (s.raise e).ilen = s.ilen := rfl
@[simp] theorem raise_tlen (e : ErrCode) : (s.raise e).tlen = s.tlen := rfl
@[simp] theorem raise_olen (e : ErrCode) : (s.raise e).olen = 0 := rfl
@[simp] theorem raise_vbits (e : ErrCode) : (s.raise e).vbits = s.vbits := rfl
@[simp] theorem raise_symcnt (e : ErrCode) : (s.raise e).symcnt = s.symcnt := rfl
@[simp] theorem raise_tm (e : ErrCode) : (s.raise e).tm = [] := rfl
@[simp] theorem raise_ct (e : ErrCode) : (s.raise e).ct = CodeTable.empty := rfl
@[simp] theorem raise_ibuf (e : ErrCode) : (s.raise e).ibuf = s.ibuf := rfl
@[simp] theorem raise_tbuf (e : ErrCode) : (s.raise e).tbuf = s.tbuf := rfl
@[simp] theorem raise_obuf (e : ErrCode) : (s.raise e).obuf = [] := rfl
@[simp] theorem raise_work (e : ErrCode) : (s.raise e).work = Config.freeWork s.free.epoch := rfl
@[simp] theorem raise_caps (e : ErrCode) : (s.raise e).caps = s.caps := rfl
@[simp] theorem raise_host (e : ErrCode) : (s.raise e).host = s.host := rfl
@[simp] theorem raise_free (e : ErrCode) : (s.raise e).free = s.free := rfl

/-! ### `saw` -/
@[simp] theorem saw_busy (x : HostSeen) : (s.saw x).busy = s.busy := rfl
@[simp] theorem saw_err (x : HostSeen) : (s.saw x).err = s.err := rfl
@[simp] theorem saw_phase (x : HostSeen) : (s.saw x).phase = s.phase := rfl
@[simp] theorem saw_ilen (x : HostSeen) : (s.saw x).ilen = s.ilen := rfl
@[simp] theorem saw_tlen (x : HostSeen) : (s.saw x).tlen = s.tlen := rfl
@[simp] theorem saw_olen (x : HostSeen) : (s.saw x).olen = s.olen := rfl
@[simp] theorem saw_vbits (x : HostSeen) : (s.saw x).vbits = s.vbits := rfl
@[simp] theorem saw_symcnt (x : HostSeen) : (s.saw x).symcnt = s.symcnt := rfl
@[simp] theorem saw_tm (x : HostSeen) : (s.saw x).tm = s.tm := rfl
@[simp] theorem saw_ct (x : HostSeen) : (s.saw x).ct = s.ct := rfl
@[simp] theorem saw_ibuf (x : HostSeen) : (s.saw x).ibuf = s.ibuf := rfl
@[simp] theorem saw_tbuf (x : HostSeen) : (s.saw x).tbuf = s.tbuf := rfl
@[simp] theorem saw_obuf (x : HostSeen) : (s.saw x).obuf = s.obuf := rfl
@[simp] theorem saw_work (x : HostSeen) : (s.saw x).work = s.work := rfl
@[simp] theorem saw_caps (x : HostSeen) : (s.saw x).caps = s.caps := rfl
@[simp] theorem saw_host (x : HostSeen) : (s.saw x).host = { s.host with seen := x :: s.host.seen } := rfl
@[simp] theorem saw_free (x : HostSeen) : (s.saw x).free = s.free := rfl

/-! ### `takeAccess` -/
@[simp] theorem takeAccess_busy : (s.takeAccess).busy = s.busy := rfl
@[simp] theorem takeAccess_err : (s.takeAccess).err = s.err := rfl
@[simp] theorem takeAccess_phase : (s.takeAccess).phase = s.phase := rfl
@[simp] theorem takeAccess_ilen : (s.takeAccess).ilen = s.ilen := rfl
@[simp] theorem takeAccess_tlen : (s.takeAccess).tlen = s.tlen := rfl
@[simp] theorem takeAccess_olen : (s.takeAccess).olen = s.olen := rfl
@[simp] theorem takeAccess_vbits : (s.takeAccess).vbits = s.vbits := rfl
@[simp] theorem takeAccess_symcnt : (s.takeAccess).symcnt = s.symcnt := rfl
@[simp] theorem takeAccess_tm : (s.takeAccess).tm = s.tm := rfl
@[simp] theorem takeAccess_ct : (s.takeAccess).ct = s.ct := rfl
@[simp] theorem takeAccess_ibuf : (s.takeAccess).ibuf = s.ibuf := rfl
@[simp] theorem takeAccess_tbuf : (s.takeAccess).tbuf = s.tbuf := rfl
@[simp] theorem takeAccess_obuf : (s.takeAccess).obuf = s.obuf := rfl
@[simp] theorem takeAccess_work : (s.takeAccess).work = s.work := rfl
@[simp] theorem takeAccess_caps : (s.takeAccess).caps = s.caps := rfl
@[simp] theorem takeAccess_host : (s.takeAccess).host = { s.host with script := s.host.script.tail } := rfl
@[simp] theorem takeAccess_free : (s.takeAccess).free = s.free := rfl

/-! ### `hardReset` -/
@[simp] theorem hardReset_busy : (s.hardReset).busy = false := rfl
@[simp] theorem hardReset_err : (s.hardReset).err = none := rfl
@[simp] theorem hardReset_phase : (s.hardReset).phase = .start := rfl
@[simp] theorem hardReset_ilen : (s.hardReset).ilen = 0 := rfl
@[simp] theorem hardReset_tlen : (s.hardReset).tlen = 0 := rfl
@[simp] theorem hardReset_olen : (s.hardReset).olen = 0 := rfl
@[simp] theorem hardReset_vbits : (s.hardReset).vbits = 0 := rfl
@[simp] theorem hardReset_symcnt : (s.hardReset).symcnt = 0 := rfl
@[simp] theorem hardReset_tm : (s.hardReset).tm = [] := rfl
@[simp] theorem hardReset_ct : (s.hardReset).ct = CodeTable.empty := rfl
@[simp] theorem hardReset_ibuf : (s.hardReset).ibuf = [] := rfl
@[simp] theorem hardReset_tbuf : (s.hardReset).tbuf = [] := rfl
@[simp] theorem hardReset_obuf : (s.hardReset).obuf = [] := rfl
@[simp] theorem hardReset_work : (s.hardReset).work = Work.cleared := rfl
@[simp] theorem hardReset_caps : (s.hardReset).caps = s.caps := rfl
@[simp] theorem hardReset_host : (s.hardReset).host = s.host := rfl
@[simp] theorem hardReset_free : (s.hardReset).free = { s.free with resets := s.free.resets + 1, epoch := s.free.epoch + 1 } := rfl

end Sys2Proof.Machine.State
end

