-- ==== Sys2Proof/Laws/Memory.lean ====
section
/-! SUPPORT. Reading after writing, the canonical form, and what a buffer holds. -/

namespace Sys2Proof.Machine.Memory

/-! ### One byte -/

theorem read_write (m : List Host.Cell) (i j : Nat) (v : Byte) :
    read (write m i v) j = if i = j then some v else read m j := by
  induction m with
  | nil => simp [write, read]
  | cons c m ih =>
    obtain ⟨k, u⟩ := c
    simp only [write]
    split
    · simp [read]
    · split
      · next h => subst h; simp only [read]; split <;> rfl
      · simp only [read, ih]
        split <;> split <;> simp_all

theorem read_write_self (m : List Host.Cell) (i : Nat) (v : Byte) : read (write m i v) i = some v := by
  simp [read_write]

theorem read_write_ne (m : List Host.Cell) {i j : Nat} (v : Byte) (h : i ≠ j) :
    read (write m i v) j = read m j := by
  simp [read_write, h]

theorem mem_write {m : List Host.Cell} {i : Nat} {v : Byte} {c : Host.Cell} (h : c ∈ write m i v) :
    c = (i, v) ∨ c ∈ m := by
  induction m with
  | nil => simpa [write] using h
  | cons d m ih =>
    obtain ⟨k, u⟩ := d
    simp only [write] at h
    split at h
    · simpa using h
    · split at h
      · simp only [List.mem_cons] at h ⊢
        tauto
      · simp only [List.mem_cons] at h ⊢
        rcases h with h | h
        · exact .inr (.inl h)
        · rcases ih h with h | h
          · exact .inl h
          · exact .inr (.inr h)

theorem wf_write {m : List Host.Cell} (h : wf m) (i : Nat) (v : Byte) : wf (write m i v) := by
  induction m with
  | nil => simp [write, wf]
  | cons d m ih =>
    obtain ⟨k, u⟩ := d
    have hk := List.pairwise_cons.mp h
    simp only [write]
    split
    · next hi =>
      refine List.pairwise_cons.mpr ⟨?_, h⟩
      intro c hc
      rcases List.mem_cons.mp hc with rfl | hc
      · exact hi
      · exact Nat.lt_trans hi (hk.1 c hc)
    · split
      · next hi => subst hi; exact List.pairwise_cons.mpr ⟨hk.1, hk.2⟩
      · refine List.pairwise_cons.mpr ⟨?_, ih hk.2⟩
        intro c hc
        rcases mem_write hc with rfl | hc
        · simp only; omega
        · exact hk.1 c hc

/-! ### Runs of bytes -/

theorem read_writeBytes (m : List Host.Cell) (i : Nat) (d : List Byte) (j : Nat) :
    read (writeBytes m i d) j = if h : i ≤ j ∧ j - i < d.length then some d[j - i] else read m j := by
  induction d generalizing m i with
  | nil => simp [writeBytes]
  | cons v d ih =>
    rw [writeBytes, ih, read_write]
    rcases Nat.lt_trichotomy j i with h | h | h
    · have h1 : ¬(i + 1 ≤ j ∧ j - (i + 1) < d.length) := by omega
      have h2 : ¬(i ≤ j ∧ j - i < (v :: d).length) := by omega
      have h3 : i ≠ j := by omega
      rw [dif_neg h1, dif_neg h2, if_neg h3]
    · subst h; simp
    · have h3 : i ≠ j := by omega
      obtain ⟨k, rfl⟩ : ∃ k, j = i + 1 + k := ⟨j - (i + 1), by omega⟩
      have e1 : i + 1 + k - (i + 1) = k := by omega
      have e2 : i + 1 + k - i = k + 1 := by omega
      simp only [e1, e2, h3, if_false, List.length_cons, List.getElem_cons_succ]
      by_cases hk : k < d.length
      · rw [dif_pos ⟨by omega, hk⟩, dif_pos ⟨by omega, by omega⟩]
      · rw [dif_neg (by omega), dif_neg (by omega)]

theorem wf_writeBytes {m : List Host.Cell} (h : wf m) (i : Nat) (d : List Byte) : wf (writeBytes m i d) := by
  induction d generalizing m i with
  | nil => exact h
  | cons v d ih => exact ih (wf_write h i v) (i + 1)

theorem writeBytes_append (m : List Host.Cell) (i : Nat) (d e : List Byte) :
    writeBytes m i (d ++ e) = writeBytes (writeBytes m i d) (i + d.length) e := by
  induction d generalizing m i with
  | nil => simp [writeBytes]
  | cons v d ih =>
    rw [List.cons_append, writeBytes, writeBytes, ih]
    congr 1
    simp; omega

theorem read_nil (i : Nat) : read [] i = none := rfl

/-- The bytes written from index 0 into an empty buffer are what it holds, and all it holds. -/
theorem read_writeBytes_nil (d : List Byte) (j : Nat) : read (writeBytes [] 0 d) j = d[j]? := by
  rw [read_writeBytes]
  by_cases h : j < d.length
  · rw [dif_pos ⟨by omega, by simpa using h⟩]; simp [h]
  · rw [dif_neg (by omega)]; simp at h; simp [read, h]

theorem holds_writeBytes_nil (d : List Byte) : holds (writeBytes [] 0 d) d := by
  intro i h; rw [read_writeBytes_nil]; simp [h]

/-- Two buffers in canonical form that read alike are equal. -/
theorem ext_of_wf {m n : List Host.Cell} (hm : wf m) (hn : wf n) (h : ∀ i, read m i = read n i) : m = n := by
  have key : ∀ {m : List Host.Cell} {k : Nat}, (∀ c ∈ m, k < c.1) → ∀ i, i ≤ k → read m i = none := by
    intro m k hk i hi
    induction m with
    | nil => rfl
    | cons c m ih =>
      obtain ⟨a, u⟩ := c
      have := hk (a, u) (by simp)
      simp only at this
      have hne : a ≠ i := by omega
      rw [read, if_neg hne]
      exact ih fun c hc => hk c (by simp [hc])
  induction m generalizing n with
  | nil =>
    cases n with
    | nil => rfl
    | cons c n => obtain ⟨a, u⟩ := c; have := h a; simp [read] at this
  | cons c m ih =>
    obtain ⟨a, u⟩ := c
    have pm := List.pairwise_cons.mp hm
    cases n with
    | nil => have := h a; simp [read] at this
    | cons d n =>
      obtain ⟨b, w⟩ := d
      have pn := List.pairwise_cons.mp hn
      have ka := fun i hi => key (k := a) (m := m) (fun c hc => pm.1 c hc) i hi
      have kb := fun i hi => key (k := b) (m := n) (fun c hc => pn.1 c hc) i hi
      rcases Nat.lt_trichotomy a b with hab | hab | hab
      · have := h a
        rw [read, if_pos rfl, read, if_neg (by omega), kb a (by omega)] at this
        simp at this
      · subst hab
        have hv := h a
        simp only [read, if_true] at hv
        obtain rfl := Option.some.inj hv
        congr 1
        refine ih pm.2 pn.2 fun i => ?_
        by_cases hi : i ≤ a
        · rw [ka i hi, kb i hi]
        · have := h i
          rwa [read, if_neg (by omega), read, if_neg (by omega)] at this
      · have := h b
        rw [read, if_neg (by omega), ka b (by omega), read, if_pos rfl] at this
        simp at this

/-- `readBytes` answers exactly the bytes from `i` on when they all have values. -/
theorem readBytes_eq_ok_iff (m : List Host.Cell) (i n : Nat) (d : List Byte) :
    readBytes m i n = .ok d ↔ d.length = n ∧ ∀ (j : Nat) (h : j < d.length), read m (i + j) = some d[j] := by
  induction n generalizing i d with
  | zero =>
    simp only [readBytes, Except.ok.injEq]
    constructor
    · rintro rfl; simp
    · rintro ⟨h, -⟩; exact (List.eq_nil_of_length_eq_zero h).symm
  | succ n ih =>
    simp only [readBytes]
    cases hr : read m i with
    | none =>
      simp only [reduceCtorEq, false_iff]
      rintro ⟨hl, hd⟩
      have := hd 0 (by omega)
      simp [hr] at this
    | some v =>
      cases d with
      | nil =>
        constructor
        · intro h
          cases h' : readBytes m (i + 1) n <;> rw [h'] at h <;> simp [Except.map] at h
        · rintro ⟨h, -⟩; simp at h
      | cons w d =>
        have : (Except.map (v :: ·) (readBytes m (i + 1) n) = .ok (w :: d)) ↔ v = w ∧ readBytes m (i + 1) n = .ok d := by
          cases readBytes m (i + 1) n <;> simp [Except.map]
        rw [this, ih]
        constructor
        · rintro ⟨rfl, hl, hd⟩
          refine ⟨by simp [hl], fun j hj => ?_⟩
          cases j with
          | zero => simpa using hr
          | succ j =>
            have := hd j (by simpa using hj)
            rw [List.getElem_cons_succ, ← this]; congr 1; omega
        · rintro ⟨hl, hd⟩
          refine ⟨?_, by simpa using hl, fun j hj => ?_⟩
          · have := hd 0 (by simp); simp [hr] at this; exact this
          · have := hd (j + 1) (by simpa using hj)
            rw [List.getElem_cons_succ] at this
            rw [← this]; congr 1; omega

theorem readBytes_zero_eq_ok_iff (m : List Host.Cell) (n : Nat) (d : List Byte) :
    readBytes m 0 n = .ok d ↔ d.length = n ∧ holds m d := by
  rw [readBytes_eq_ok_iff]; simp [holds]

/-- `readBytes` reports the first index without a value. -/
theorem readBytes_eq_error {m : List Host.Cell} {i n j : Nat} (h : readBytes m i n = .error j) :
    i ≤ j ∧ j < i + n ∧ read m j = none := by
  induction n generalizing i with
  | zero => simp [readBytes] at h
  | succ n ih =>
    simp only [readBytes] at h
    cases hr : read m i with
    | none => rw [hr] at h; simp at h; subst h; exact ⟨by omega, by omega, hr⟩
    | some v =>
      rw [hr] at h
      cases h' : readBytes m (i + 1) n with
      | ok d => rw [h'] at h; simp [Except.map] at h
      | error k =>
        rw [h'] at h; simp [Except.map] at h; subst h
        obtain ⟨h1, h2, h3⟩ := ih h'
        exact ⟨by omega, by omega, h3⟩

/-- A written prefix has its bytes. -/
theorem written_iff_exists_holds (m : List Host.Cell) (n : Nat) :
    written m n ↔ ∃ d : List Byte, d.length = n ∧ holds m d := by
  constructor
  · intro h
    cases hr : readBytes m 0 n with
    | ok d => exact ⟨d, (readBytes_zero_eq_ok_iff m n d).mp hr⟩
    | error j =>
      obtain ⟨-, h2, h3⟩ := readBytes_eq_error hr
      have := h j (by omega)
      simp [h3] at this
  · rintro ⟨d, rfl, h⟩ i hi
    simp [h i hi]

theorem holds_unique {m : List Host.Cell} {d e : List Byte} (hl : d.length = e.length) (hd : holds m d)
    (he : holds m e) : d = e := by
  refine List.ext_getElem hl fun i h1 h2 => ?_
  have := hd i h1
  rw [he i h2] at this
  exact (Option.some.inj this).symm

theorem holds_congr {m n : List Host.Cell} (h : ∀ i, read m i = read n i) (d : List Byte) :
    holds m d ↔ holds n d := by
  simp [holds, h]

/-- Buffers that read alike where the bytes are taken give the same bytes. -/
theorem readBytes_congr {m n : List Host.Cell} {l : Nat} : ∀ {i : Nat}, (∀ k, i ≤ k → k < i + l → read m k = read n k) →
    readBytes m i l = readBytes n i l := by
  induction l with
  | zero => intro i _; rfl
  | succ l ih =>
    intro i h
    have e : readBytes m (i + 1) l = readBytes n (i + 1) l := ih fun k h1 h2 => h k (by omega) (by omega)
    simp only [readBytes, h i (Nat.le_refl i) (by omega), e]

end Sys2Proof.Machine.Memory
end

