-- ==== Sys2Proof/Laws/Tree.lean ====
section
/-! SUPPORT. Trees, their descriptions, records and codes; `ParseTree` inverts `Ser`; `DeriveCodes` finds the paths. -/

namespace Sys2Proof.Machine

/-! ### The two tables, entry by entry -/

theorem SeenMap.has_add (m : SeenMap) (s x : Byte) : (m.add s).has x = (decide (x = s) || m.has x) := by
  simp only [SeenMap.has, SeenMap.add, Vector.getElem_set]
  by_cases h : x = s
  · simp [h]
  · have : s.toNat ≠ x.toNat := fun e => h (BitVec.eq_of_toNat_eq e.symm)
    simp [h, this]

theorem SeenMap.has_none (x : Byte) : SeenMap.none.has x = false := by
  simp [SeenMap.has, SeenMap.none]

/-- `seen` once all of a list of symbols is added. -/
def SeenMap.addAll (m : SeenMap) (d : List Byte) : SeenMap := d.foldl SeenMap.add m

theorem SeenMap.has_addAll (m : SeenMap) (d : List Byte) (x : Byte) :
    (m.addAll d).has x = (decide (x ∈ d) || m.has x) := by
  induction d generalizing m with
  | nil => simp [addAll]
  | cons s d ih =>
    have : m.addAll (s :: d) = (m.add s).addAll d := rfl
    rw [this, ih, SeenMap.has_add]
    by_cases h1 : x = s <;> by_cases h2 : x ∈ d <;> simp [h1, h2]

theorem SeenMap.addAll_append (m : SeenMap) (d e : List Byte) : m.addAll (d ++ e) = (m.addAll d).addAll e := by
  simp [addAll]

theorem CodeTable.code_set (ct : CodeTable) (s x : Byte) (c : Bits) :
    (ct.set s c).code x = if x = s then some c else ct.code x := by
  simp only [CodeTable.code, CodeTable.set, Vector.getElem_set]
  by_cases h : x = s
  · simp [h]
  · have : s.toNat ≠ x.toNat := fun e => h (BitVec.eq_of_toNat_eq e.symm)
    simp [h, this]

@[simp] theorem CodeTable.code_empty (x : Byte) : CodeTable.empty.code x = none := by
  simp [CodeTable.code, CodeTable.empty]

/-- Two tables with the same entries are the same. -/
theorem CodeTable.ext_code {a b : CodeTable} (h : ∀ s, a.code s = b.code s) : a = b := by
  apply Vector.ext
  intro i hi
  have := h (BitVec.ofNat 8 i)
  simp only [CodeTable.code, BitVec.toNat_ofNat, Nat.mod_eq_of_lt (show i < 2 ^ 8 from hi)] at this
  exact this

/-! ### Counting (R13, R100) -/

theorem Tree.size_add_one (t : Tree) : t.size + 1 = 2 * t.symbols.length := by
  induction t with
  | leaf s => rfl
  | internal l r ihl ihr => simp only [Tree.size, Tree.symbols, List.length_append]; omega

theorem Tree.size_pos (t : Tree) : 0 < t.size := by cases t <;> simp [Tree.size]

theorem Tree.symbols_length_pos (t : Tree) : 0 < t.symbols.length := by
  have := t.size_add_one; have := t.size_pos; omega

theorem Tree.depth_lt_symbols_length (t : Tree) : t.depth < t.symbols.length := by
  induction t with
  | leaf s => simp [Tree.depth, Tree.symbols]
  | internal l r ihl ihr =>
    simp only [Tree.depth, Tree.symbols, List.length_append]
    have := l.symbols_length_pos; have := r.symbols_length_pos
    omega

theorem Tree.ser_length (t : Tree) : t.ser.length + 1 = 3 * t.symbols.length := by
  induction t with
  | leaf s => rfl
  | internal l r ihl ihr => simp only [Tree.ser, Tree.symbols, List.length_append, List.length_cons]; omega

theorem Tree.records_length (t : Tree) (n : Nat) : (t.records n).length = t.size := by
  induction t generalizing n with
  | leaf s => rfl
  | internal l r ihl ihr => simp [Tree.records, Tree.size, ihl, ihr]; omega

/-- Distinct symbols are at most 256. -/
theorem nodup_bytes_length_le {d : List Byte} (h : d.Nodup) : d.length ≤ 256 := by
  have h1 : (d.map BitVec.toNat).Nodup := h.map (fun a b => BitVec.eq_of_toNat_eq)
  have h2 : d.map BitVec.toNat ⊆ List.range 256 := by
    intro x hx
    obtain ⟨b, -, rfl⟩ := List.mem_map.mp hx
    have := b.isLt
    simpa using this
  have := (List.subperm_of_subset h1 h2).length_le
  simpa using this

theorem Tree.depth_lt_size (t : Tree) : t.depth < t.size := by
  induction t with
  | leaf s => simp [Tree.depth, Tree.size]
  | internal l r ihl ihr => simp only [Tree.depth, Tree.size]; omega

theorem Tree.depth_lt_ser_length (t : Tree) : t.depth < t.ser.length := by
  have := t.depth_lt_symbols_length; have := t.ser_length; omega

/-! ### ParseTree (R100, R151) -/

theorem parseNode_error {fuel : Nat} {bs : List Byte} {tm : TreeMem} {seen : SeenMap} {x : Stop}
    (h : parseNode fuel bs tm seen = .error x) : x = .raise .malformedContainer := by
  induction fuel generalizing bs tm seen x with
  | zero => simpa [parseNode, throwErr] using h.symm
  | succ fuel ih =>
    cases bs with
    | nil => simpa [parseNode, throwErr] using h.symm
    | cons tag bs =>
      rw [parseNode] at h
      split at h
      · unfold parseLeaf at h
        split at h
        · simpa [throwErr] using h.symm
        · split at h
          · simpa [throwErr] using h.symm
          · simp at h
      · split at h
        · cases h1 : parseNode fuel bs (tm ++ [.internal 0 0]) seen with
          | error y => rw [h1] at h; cases h; exact ih h1
          | ok y =>
            obtain ⟨l, rest1, tm1, seen1⟩ := y
            rw [h1] at h
            cases h2 : parseNode fuel rest1 tm1 seen1 with
            | error y =>
              change (do let y ← parseNode fuel rest1 tm1 seen1; _) = _ at h
              rw [h2] at h; cases h; exact ih h2
            | ok y =>
              change (do let y ← parseNode fuel rest1 tm1 seen1; _) = _ at h
              rw [h2] at h; cases h
        · simpa [throwErr] using h.symm

theorem parseNode_leaf (fuel : Nat) (s : Byte) (rest : List Byte) (tm : TreeMem) (seen : SeenMap) :
    parseNode (fuel + 1) (0x01#8 :: s :: rest) tm seen =
      if seen.has s then throwErr .malformedContainer
      else .ok (tm.length, rest, tm ++ [.leaf s], seen.add s) := by
  simp [parseNode, parseLeaf]

theorem parseNode_internal (fuel : Nat) (bs : List Byte) (tm : TreeMem) (seen : SeenMap) :
    parseNode (fuel + 1) (0x00#8 :: bs) tm seen = (do
      let (l, rest1, tm1, seen1) ← parseNode fuel bs (tm ++ [.internal 0 0]) seen
      let (r, rest2, tm2, seen2) ← parseNode fuel rest1 tm1 seen1
      .ok (tm.length, rest2, tm2.set tm.length (.internal l r), seen2)) := by
  rw [parseNode]
  rw [if_neg (by decide), if_pos rfl]

theorem records_closed (tm : TreeMem) (l r : Tree) :
    (((tm ++ [Node.internal 0 0]) ++ l.records (tm.length + 1)) ++ r.records (tm.length + 1 + l.size)).set tm.length
      (.internal (tm.length + 1) (tm.length + 1 + l.size)) = tm ++ (Tree.internal l r).records tm.length := by
  simp [Tree.records]

/-- `ParseNode` reads back what `Ser` wrote. -/
theorem parseNode_ser (t : Tree) : ∀ (fuel : Nat) (rest : List Byte) (tm : TreeMem) (seen : SeenMap),
    t.depth < fuel → t.distinct → (∀ s ∈ t.symbols, seen.has s = false) →
    parseNode fuel (t.ser ++ rest) tm seen =
      .ok (tm.length, rest, tm ++ t.records tm.length, seen.addAll t.symbols) := by
  induction t with
  | leaf s =>
    intro fuel rest tm seen hf hd hs
    obtain ⟨fuel, rfl⟩ : ∃ k, fuel = k + 1 := ⟨fuel - 1, by omega⟩
    have := hs s (by simp [Tree.symbols])
    simp [Tree.ser, parseNode_leaf, this, Tree.records, Tree.symbols, SeenMap.addAll]
  | internal l r ihl ihr =>
    intro fuel rest tm seen hf hd hs
    obtain ⟨fuel, rfl⟩ : ∃ k, fuel = k + 1 := ⟨fuel - 1, by omega⟩
    simp only [Tree.depth] at hf
    have hd' := List.nodup_append.mp hd
    have hl := ihl fuel (r.ser ++ rest) (tm ++ [.internal 0 0]) seen (by omega) hd'.1
      (fun s h => hs s (by simp [Tree.symbols, h]))
    have hr := ihr fuel rest (tm ++ [.internal 0 0] ++ l.records (tm.length + 1)) (seen.addAll l.symbols)
      (by omega) hd'.2.1 (by
        intro s h
        rw [SeenMap.has_addAll, hs s (by simp [Tree.symbols, h])]
        have : s ∉ l.symbols := fun h' => hd'.2.2 s h' s h rfl
        simp [this])
    have e1 : (tm ++ [Node.internal 0 0]).length = tm.length + 1 := by simp
    have e2 : (tm ++ [Node.internal 0 0] ++ l.records (tm.length + 1)).length = tm.length + 1 + l.size := by
      rw [List.length_append, e1, Tree.records_length]
    rw [e1] at hl
    rw [e2] at hr
    simp only [Tree.ser, List.cons_append, List.append_assoc, parseNode_internal]
    rw [← List.append_assoc] at hl
    simp only [List.append_assoc] at hl hr ⊢
    rw [hl]
    change (do let y ← parseNode fuel (r.ser ++ rest) _ _; _) = _
    rw [hr]
    have := records_closed tm l r
    simp only [List.append_assoc] at this
    change Except.ok _ = _
    simp only [this, Tree.symbols, SeenMap.addAll_append]

/-- What `ParseNode` accepts is the description of a tree with distinct symbols, none of them seen before. -/
theorem parseNode_sound : ∀ (fuel : Nat) (bs : List Byte) (tm : TreeMem) (seen : SeenMap) (n : Nat) (rest : List Byte)
    (tm' : TreeMem) (seen' : SeenMap), parseNode fuel bs tm seen = .ok (n, rest, tm', seen') →
    ∃ t : Tree, bs = t.ser ++ rest ∧ t.distinct ∧ (∀ s ∈ t.symbols, seen.has s = false) ∧ n = tm.length ∧
      tm' = tm ++ t.records tm.length ∧ seen' = seen.addAll t.symbols := by
  intro fuel
  induction fuel with
  | zero => intro bs tm seen n rest tm' seen' h; simp [parseNode, throwErr] at h
  | succ fuel ih =>
    intro bs tm seen n rest tm' seen' h
    cases bs with
    | nil => simp [parseNode, throwErr] at h
    | cons tag bs =>
      by_cases h1 : tag = 0x01#8
      · subst h1
        cases bs with
        | nil => simp [parseNode, parseLeaf, throwErr] at h
        | cons s bs =>
          rw [parseNode_leaf] at h
          cases hs : seen.has s with
          | true => simp [hs, throwErr] at h
          | false =>
            simp only [hs, Bool.false_eq_true, if_false, Except.ok.injEq, Prod.mk.injEq] at h
            obtain ⟨rfl, rfl, rfl, rfl⟩ := h
            exact ⟨.leaf s, rfl, by simp [Tree.distinct, Tree.symbols], by simpa [Tree.symbols] using hs, rfl, rfl, rfl⟩
      · by_cases h0 : tag = 0x00#8
        · subst h0
          rw [parseNode_internal] at h
          cases ha : parseNode fuel bs (tm ++ [.internal 0 0]) seen with
          | error y => rw [ha] at h; cases h
          | ok y =>
            obtain ⟨l, rest1, tm1, seen1⟩ := y
            rw [ha] at h
            change (do let y ← parseNode fuel rest1 tm1 seen1; _) = _ at h
            cases hb : parseNode fuel rest1 tm1 seen1 with
            | error y => rw [hb] at h; cases h
            | ok y =>
              obtain ⟨r, rest2, tm2, seen2⟩ := y
              rw [hb] at h
              change Except.ok _ = Except.ok _ at h
              simp only [Except.ok.injEq, Prod.mk.injEq] at h
              obtain ⟨rfl, rfl, rfl, rfl⟩ := h
              obtain ⟨tl, rfl, dl, sl, rfl, rfl, rfl⟩ := ih _ _ _ _ _ _ _ ha
              obtain ⟨tr, rfl, dr, sr, rfl, rfl, rfl⟩ := ih _ _ _ _ _ _ _ hb
              refine ⟨.internal tl tr, by simp [Tree.ser], ?_, ?_, rfl, ?_, ?_⟩
              · refine List.nodup_append.mpr ⟨dl, dr, ?_⟩
                rintro a ha b hb rfl
                have := sr a hb
                rw [SeenMap.has_addAll] at this
                simp [ha] at this
              · intro s hs
                rcases List.mem_append.mp hs with hs | hs
                · exact sl s hs
                · have := sr s hs
                  rw [SeenMap.has_addAll, Bool.or_eq_false_iff] at this
                  exact this.2
              · have e1 : (tm ++ [Node.internal 0 0]).length = tm.length + 1 := by simp
                have e2 : (tm ++ [Node.internal 0 0] ++ tl.records (tm.length + 1)).length = tm.length + 1 + tl.size := by
                  rw [List.length_append, e1, Tree.records_length]
                rw [e1, e2]
                exact records_closed tm tl tr
              · simp [Tree.symbols, SeenMap.addAll_append]
        · rw [parseNode, if_neg h1, if_neg h0] at h
          simp [throwErr] at h

theorem parseTree_ser (t : Tree) (h : t.distinct) (rest : List Byte) :
    parseTree (t.ser ++ rest) = .ok (t.records 0, rest) := by
  have hf : t.depth < (t.ser ++ rest).length + 1 := by
    have := t.depth_lt_ser_length; simp; omega
  rw [parseTree, parseNode_ser t _ rest [] SeenMap.none hf h (fun s _ => SeenMap.has_none s)]
  rfl

theorem parseTree_sound {bs rest : List Byte} {tm : TreeMem} (h : parseTree bs = .ok (tm, rest)) :
    ∃ t : Tree, bs = t.ser ++ rest ∧ t.distinct ∧ tm = t.records 0 := by
  rw [parseTree] at h
  cases hp : parseNode (bs.length + 1) bs [] SeenMap.none with
  | error y => rw [hp] at h; cases h
  | ok y =>
    obtain ⟨n, rest1, tm1, seen1⟩ := y
    rw [hp] at h
    change Except.ok _ = Except.ok _ at h
    simp only [Except.ok.injEq, Prod.mk.injEq] at h
    obtain ⟨rfl, rfl⟩ := h
    obtain ⟨t, h1, h2, -, -, h3, -⟩ := parseNode_sound _ _ _ _ _ _ _ _ hp
    exact ⟨t, h1, h2, by simpa using h3⟩

theorem parseTree_error {bs : List Byte} {x : Stop} (h : parseTree bs = .error x) :
    x = .raise .malformedContainer := by
  rw [parseTree] at h
  cases hp : parseNode (bs.length + 1) bs [] SeenMap.none with
  | error y => rw [hp] at h; cases h; exact parseNode_error hp
  | ok y => rw [hp] at h; cases h

/-- A description tells where it ends: two descriptions that start one byte sequence are the same. -/
theorem Tree.ser_append_inj {t u : Tree} {x y : List Byte} (h : t.ser ++ x = u.ser ++ y) : t = u ∧ x = y := by
  induction t generalizing u x y with
  | leaf s =>
    cases u with
    | leaf s' => simp [Tree.ser] at h; simp [h.1, h.2]
    | internal l r => simp [Tree.ser] at h
  | internal l r ihl ihr =>
    cases u with
    | leaf s' => simp [Tree.ser] at h
    | internal l' r' =>
      simp only [Tree.ser, List.cons_append, List.append_assoc, List.cons.injEq, true_and] at h
      obtain ⟨rfl, h2⟩ := ihl h
      obtain ⟨rfl, rfl⟩ := ihr h2
      exact ⟨rfl, rfl⟩

/-! ### Where a tree sits in `TM` -/

/-- The records of `t` stand in `tm` from index `n`. -/
def Tree.sits (tm : TreeMem) : Tree → Nat → Prop
  | .leaf s, n => (tm[n]? : Option Node) = some (.leaf s)
  | .internal l r, n =>
    (tm[n]? : Option Node) = some (.internal (n + 1) (n + 1 + l.size)) ∧ l.sits tm (n + 1) ∧
      r.sits tm (n + 1 + l.size)

theorem Tree.sits_records (t : Tree) (before after : TreeMem) (n : Nat) (h : before.length = n) :
    t.sits (before ++ t.records n ++ after) n := by
  induction t generalizing before after n with
  | leaf s => simp [Tree.sits, Tree.records, ← h]
  | internal l r ihl ihr =>
    refine ⟨by simp [Tree.records, ← h], ?_, ?_⟩
    · have := ihl (before ++ [.internal (n + 1) (n + 1 + l.size)]) (r.records (n + 1 + l.size) ++ after) (n + 1)
        (by simp [h])
      simpa [Tree.records] using this
    · have := ihr (before ++ [.internal (n + 1) (n + 1 + l.size)] ++ l.records (n + 1)) after (n + 1 + l.size)
        (by simp [h, Tree.records_length]; omega)
      simpa [Tree.records] using this

theorem Tree.sits_records_zero (t : Tree) : t.sits (t.records 0) 0 := by
  simpa using t.sits_records [] [] 0 rfl

theorem Tree.sits_internal_root {tm : TreeMem} {l r : Tree} {n : Nat} (h : (Tree.internal l r).sits tm n) :
    (tm[n]? : Option Node) = some (.internal (n + 1) (n + 1 + l.size)) := h.1

/-! ### Paths and codes (R161 to R164) -/

theorem Tree.paths_eq_map (t : Tree) (p : Bits) : t.paths p = (t.paths []).map fun x => (x.1, p ++ x.2) := by
  induction t generalizing p with
  | leaf s => simp [Tree.paths]
  | internal l r ihl ihr =>
    simp only [Tree.paths, List.nil_append]
    rw [ihl (p ++ [false]), ihr (p ++ [true]), ihl [false], ihr [true]]
    simp [Function.comp_def]

theorem Tree.paths_symbols (t : Tree) (p : Bits) : (t.paths p).map Prod.fst = t.symbols := by
  induction t generalizing p with
  | leaf s => rfl
  | internal l r ihl ihr => simp [Tree.paths, Tree.symbols, ihl, ihr]

theorem Tree.codes_symbols (t : Tree) : t.codes.map Prod.fst = t.symbols := by
  cases t with
  | leaf s => rfl
  | internal l r => exact Tree.paths_symbols _ _

theorem Tree.path_length_le_depth (t : Tree) : ∀ x ∈ t.paths [], x.2.length ≤ t.depth := by
  induction t with
  | leaf s => simp [Tree.paths, Tree.depth]
  | internal l r ihl ihr =>
    intro x hx
    simp only [Tree.paths, List.nil_append, List.mem_append] at hx
    simp only [Tree.depth]
    rcases hx with hx | hx
    · rw [Tree.paths_eq_map, List.mem_map] at hx
      obtain ⟨y, hy, rfl⟩ := hx
      have := ihl y hy
      simp; omega
    · rw [Tree.paths_eq_map, List.mem_map] at hx
      obtain ⟨y, hy, rfl⟩ := hx
      have := ihr y hy
      simp; omega

/-- No path is a prefix of another (R35). -/
theorem Tree.paths_prefix_free (t : Tree) (h : t.distinct) :
    ∀ x ∈ t.paths [], ∀ y ∈ t.paths [], x.2 <+: y.2 → x = y := by
  induction t with
  | leaf s => simp [Tree.paths]
  | internal l r ihl ihr =>
    have hd := List.nodup_append.mp h
    intro x hx y hy hp
    simp only [Tree.paths, List.nil_append, List.mem_append] at hx hy
    rw [Tree.paths_eq_map l, Tree.paths_eq_map r, List.mem_map, List.mem_map] at hx hy
    rcases hx with ⟨a, ha, rfl⟩ | ⟨a, ha, rfl⟩ <;> rcases hy with ⟨b, hb, rfl⟩ | ⟨b, hb, rfl⟩
    · simp at hp; rw [ihl hd.1 a ha b hb hp]
    · simp at hp
    · simp at hp
    · simp at hp; rw [ihr hd.2.1 a ha b hb hp]

theorem lookup_eq_some_of_mem {l : List (Byte × Bits)} (hn : (l.map Prod.fst).Nodup) {s : Byte} {c : Bits}
    (h : (s, c) ∈ l) : l.lookup s = some c := by
  induction l with
  | nil => simp at h
  | cons x l ih =>
    obtain ⟨k, v⟩ := x
    simp only [List.map_cons, List.nodup_cons] at hn
    rcases List.mem_cons.mp h with h | h
    · obtain ⟨rfl, rfl⟩ := Prod.mk.inj h; simp
    · have : s ≠ k := by
        intro e; exact hn.1 (e ▸ List.mem_map.mpr ⟨(s, c), h, rfl⟩)
      rw [List.lookup_cons, beq_false_of_ne this]
      exact ih hn.2 h

theorem mem_of_lookup_eq_some {l : List (Byte × Bits)} {s : Byte} {c : Bits} (h : l.lookup s = some c) :
    (s, c) ∈ l := by
  induction l with
  | nil => simp at h
  | cons x l ih =>
    obtain ⟨k, v⟩ := x
    rw [List.lookup_cons] at h
    by_cases hk : s = k
    · subst hk; simp at h; simp [h]
    · rw [beq_false_of_ne hk] at h; simp [ih h]

theorem lookup_eq_none_iff_not_mem {l : List (Byte × Bits)} {s : Byte} :
    l.lookup s = none ↔ s ∉ l.map Prod.fst := by
  induction l with
  | nil => simp
  | cons x l ih =>
    obtain ⟨k, v⟩ := x
    rw [List.lookup_cons]
    by_cases hk : s = k
    · subst hk; simp
    · rw [beq_false_of_ne hk]; simp [ih, hk]

theorem Tree.lookup_codes_iff (t : Tree) (h : t.distinct) (s : Byte) (c : Bits) :
    t.codes.lookup s = some c ↔ (s, c) ∈ t.codes :=
  ⟨mem_of_lookup_eq_some, lookup_eq_some_of_mem (by rw [t.codes_symbols]; exact h)⟩

theorem Tree.lookup_codes_none_iff (t : Tree) (s : Byte) : t.codes.lookup s = none ↔ s ∉ t.symbols := by
  rw [lookup_eq_none_iff_not_mem, t.codes_symbols]

theorem code_foldl_set (l : List (Byte × Bits)) (ct : CodeTable) (hn : (l.map Prod.fst).Nodup) (x : Byte) :
    (l.foldl (fun c y => c.set y.1 y.2) ct).code x = ((l.lookup x).or (ct.code x)) := by
  induction l generalizing ct with
  | nil => simp
  | cons y l ih =>
    obtain ⟨k, v⟩ := y
    simp only [List.map_cons, List.nodup_cons] at hn
    rw [List.foldl_cons, ih _ hn.2, CodeTable.code_set, List.lookup_cons]
    by_cases hk : x = k
    · subst hk
      have : l.lookup x = none := lookup_eq_none_iff_not_mem.mpr hn.1
      simp [this]
    · rw [beq_false_of_ne hk, if_neg hk]

/-- `Visit` sets the entry of every leaf to its path. -/
theorem visit_eq_foldl {tm : TreeMem} (t : Tree) : ∀ (fuel n : Nat) (p : Bits) (ct : CodeTable),
    t.sits tm n → t.depth < fuel → visit tm fuel n p ct = (t.paths p).foldl (fun c y => c.set y.1 y.2) ct := by
  induction t with
  | leaf s =>
    intro fuel n p ct hs hf
    obtain ⟨fuel, rfl⟩ : ∃ k, fuel = k + 1 := ⟨fuel - 1, by omega⟩
    simp only [Tree.sits] at hs
    simp [visit, hs, Tree.paths]
  | internal l r ihl ihr =>
    intro fuel n p ct hs hf
    obtain ⟨fuel, rfl⟩ : ∃ k, fuel = k + 1 := ⟨fuel - 1, by omega⟩
    obtain ⟨h0, hl, hr⟩ := hs
    simp only [Tree.depth] at hf
    simp only [visit, h0]
    rw [ihl fuel _ _ _ hl (by omega), ihr fuel _ _ _ hr (by omega)]
    simp [Tree.paths]

/-- `DeriveCodes` gives every leaf its code and nothing else one (R161, R163, R164). -/
theorem code_deriveCodes (t : Tree) (h : t.distinct) (s : Byte) :
    (deriveCodes (t.records 0)).code s = t.codes.lookup s := by
  cases t with
  | leaf x =>
    simp only [deriveCodes, Tree.records, List.getElem?_cons_zero, CodeTable.code_set, Tree.codes,
      CodeTable.code_empty, List.lookup_cons, List.lookup_nil]
    by_cases hx : s = x
    · simp [hx]
    · simp [hx, beq_false_of_ne hx]
  | internal l r =>
    have h0 := Tree.sits_internal_root (Tree.sits_records_zero (.internal l r))
    have hv := visit_eq_foldl (Tree.internal l r) ((Tree.internal l r).records 0).length 0 [] CodeTable.empty
      (Tree.sits_records_zero _) (by rw [Tree.records_length]; exact Tree.depth_lt_size _)
    rw [deriveCodes, h0]
    simp only
    rw [hv, code_foldl_set _ _ (by rw [Tree.paths_symbols]; exact h)]
    simp [Tree.codes]

/-- Every code has at least one bit and at most 255 (R13, R34). -/
theorem Tree.code_length (t : Tree) (h : t.distinct) : ∀ x ∈ t.codes, 1 ≤ x.2.length ∧ x.2.length ≤ 255 := by
  cases t with
  | leaf s => simp [Tree.codes]
  | internal l r =>
    intro x hx
    have h1 := (Tree.internal l r).path_length_le_depth x hx
    have h2 := (Tree.internal l r).depth_lt_symbols_length
    have h3 := nodup_bytes_length_le h
    refine ⟨?_, by omega⟩
    simp only [Tree.codes, Tree.paths, List.nil_append, List.mem_append] at hx
    rw [Tree.paths_eq_map l, Tree.paths_eq_map r, List.mem_map, List.mem_map] at hx
    rcases hx with ⟨a, -, rfl⟩ | ⟨a, -, rfl⟩ <;> simp

/-! ### LoadTree (R221) -/

theorem loadTreeFrom_ser (t : Tree) (h : t.distinct) (rest : List Byte) :
    loadTreeFrom (t.ser ++ rest) = .ok (t.records 0, deriveCodes (t.records 0), rest) := by
  rw [loadTreeFrom, parseTree_ser t h rest]; rfl

theorem loadTreeFrom_sound {bs rest : List Byte} {tm : TreeMem} {ct : CodeTable}
    (h : loadTreeFrom bs = .ok (tm, ct, rest)) :
    ∃ t : Tree, bs = t.ser ++ rest ∧ t.distinct ∧ tm = t.records 0 ∧ ct = deriveCodes (t.records 0) := by
  rw [loadTreeFrom] at h
  cases hp : parseTree bs with
  | error y => rw [hp] at h; cases h
  | ok y =>
    obtain ⟨tm1, rest1⟩ := y
    rw [hp] at h
    change Except.ok _ = Except.ok _ at h
    simp only [Except.ok.injEq, Prod.mk.injEq] at h
    obtain ⟨rfl, rfl, rfl⟩ := h
    obtain ⟨t, h1, h2, h3⟩ := parseTree_sound hp
    exact ⟨t, h1, h2, h3, by rw [h3]⟩

theorem loadTreeFrom_error {bs : List Byte} {x : Stop} (h : loadTreeFrom bs = .error x) :
    x = .raise .malformedContainer := by
  rw [loadTreeFrom] at h
  cases hp : parseTree bs with
  | error y => rw [hp] at h; cases h; exact parseTree_error hp
  | ok y => rw [hp] at h; cases h

/-- Where no description starts the bytes, loading raises `MalformedContainerError`. -/
theorem loadTreeFrom_malformed {bs : List Byte}
    (h : ¬∃ (t : Tree) (rest : List Byte), t.distinct ∧ bs = t.ser ++ rest) :
    loadTreeFrom bs = throwErr .malformedContainer := by
  cases hp : loadTreeFrom bs with
  | error y => rw [loadTreeFrom_error hp]; rfl
  | ok y =>
    obtain ⟨tm, ct, rest⟩ := y
    obtain ⟨t, h1, h2, -⟩ := loadTreeFrom_sound hp
    exact absurd ⟨t, rest, h2, h1⟩ h

end Sys2Proof.Machine
end

