-- ==== Sys2Proof/Laws/Walk.lean ====
section
/-! SUPPORT. The decoder walks a code to its leaf; the packer and the decoder are inverse. -/

namespace Sys2Proof.Machine

theorem walkTree_zero (tm : TreeMem) (cur : Nat) (bs : Bits) : walkTree tm cur bs 0 = .ok [] := by
  cases bs <;> rfl

theorem walkLeaf_zero (s : Byte) (bs : Bits) : walkLeaf s bs 0 = .ok [] := by
  cases bs <;> rfl

theorem walkTree_nil (tm : TreeMem) (cur n : Nat) : walkTree tm cur [] (n + 1) = throwErr .truncatedStream := rfl

theorem walkTree_cons (tm : TreeMem) (cur n : Nat) (b : Bool) (bs : Bits) :
    walkTree tm cur (b :: bs) (n + 1) =
      match (tm[cur]? : Option Node) with
      | some (.internal l r) =>
        match (tm[if b then r else l]? : Option Node) with
        | some (.leaf s) => (walkTree tm 0 bs n).map (s :: ·)
        | some (.internal _ _) => walkTree tm (if b then r else l) bs (n + 1)
        | none => throwErr .corruptCode
      | some (.leaf _) => throwErr .corruptCode
      | none => throwErr .corruptCode := rfl

/-- One bit from an internal node: to the root of a subtree, emitting its symbol when it is a leaf (R203). -/
theorem walkTree_step {tm : TreeMem} {l r : Tree} {cur n : Nat} (h : (Tree.internal l r).sits tm cur) (b : Bool)
    (bs : Bits) :
    walkTree tm cur (b :: bs) (n + 1) =
      match (if b then r else l) with
      | .leaf s => (walkTree tm 0 bs n).map (s :: ·)
      | .internal _ _ => walkTree tm (if b then cur + 1 + l.size else cur + 1) bs (n + 1) := by
  obtain ⟨h0, hl, hr⟩ := h
  rw [walkTree_cons, h0]
  cases b
  · simp only [Bool.false_eq_true, if_false]
    cases l <;> simp_all [Tree.sits]
  · simp only [if_true]
    cases r <;> simp_all [Tree.sits]

/-- Walking a leaf's path from a node emits its symbol and returns to the root. -/
theorem walkTree_path {tm : TreeMem} : ∀ (t : Tree) (cur : Nat), t.sits tm cur → ∀ x ∈ t.paths [], x.2 ≠ [] →
    ∀ (bs : Bits) (n : Nat), walkTree tm cur (x.2 ++ bs) (n + 1) = (walkTree tm 0 bs n).map (x.1 :: ·) := by
  intro t
  induction t with
  | leaf s => intro cur _ x hx hne; simp [Tree.paths] at hx; simp [hx] at hne
  | internal l r ihl ihr =>
    intro cur hs x hx _ bs n
    simp only [Tree.paths, List.nil_append, List.mem_append] at hx
    rw [Tree.paths_eq_map l, Tree.paths_eq_map r, List.mem_map, List.mem_map] at hx
    rcases hx with ⟨a, ha, rfl⟩ | ⟨a, ha, rfl⟩
    · simp only [List.cons_append, List.nil_append]
      rw [walkTree_step hs]
      simp only [Bool.false_eq_true, if_false]
      cases l with
      | leaf s => simp [Tree.paths] at ha; simp [ha]
      | internal l1 l2 =>
        refine ihl _ hs.2.1 a ha ?_ bs n
        simp only [Tree.paths, List.nil_append, List.mem_append] at ha
        rw [Tree.paths_eq_map l1, Tree.paths_eq_map l2, List.mem_map, List.mem_map] at ha
        rcases ha with ⟨y, -, rfl⟩ | ⟨y, -, rfl⟩ <;> simp
    · simp only [List.cons_append, List.nil_append]
      rw [walkTree_step hs]
      simp only [if_true]
      cases r with
      | leaf s => simp [Tree.paths] at ha; simp [ha]
      | internal l1 l2 =>
        refine ihr _ hs.2.2 a ha ?_ bs n
        simp only [Tree.paths, List.nil_append, List.mem_append] at ha
        rw [Tree.paths_eq_map l1, Tree.paths_eq_map l2, List.mem_map, List.mem_map] at ha
        rcases ha with ⟨y, -, rfl⟩ | ⟨y, -, rfl⟩ <;> simp

/-- The walk from the root, by the kind of tree, as `UnpackBits` does it after the valid-bit test (R203, R205). -/
def walkBits (tm : TreeMem) (bs : Bits) (cnt : Nat) : Except Stop (List Byte) :=
  match (tm[0]? : Option Node) with
  | some (.leaf s) => walkLeaf s bs cnt
  | _ => walkTree tm 0 bs cnt

theorem unpackBits_eq (tm : TreeMem) (p : List Byte) (vb cnt : Nat) :
    unpackBits tm p vb cnt =
      if badValidBits p.length vb then throwErr .malformedContainer else walkBits tm (validBits p vb) cnt := rfl

theorem walkBits_zero (tm : TreeMem) (bs : Bits) : walkBits tm bs 0 = .ok [] := by
  unfold walkBits; split
  · exact walkLeaf_zero _ _
  · exact walkTree_zero _ _ _

/-- One code walked: its symbol, then the rest of the stream (R203, R204). -/
theorem walkBits_code (t : Tree) {x : Byte × Bits} (hx : x ∈ t.codes) (bs : Bits) (n : Nat) :
    walkBits (t.records 0) (x.2 ++ bs) (n + 1) = (walkBits (t.records 0) bs n).map (x.1 :: ·) := by
  cases t with
  | leaf s => simp [Tree.codes] at hx; simp [hx, walkBits, Tree.records, walkLeaf]
  | internal l r =>
    have hs := Tree.sits_records_zero (.internal l r)
    have h0 := Tree.sits_internal_root hs
    simp only [walkBits, h0]
    refine walkTree_path (.internal l r) 0 hs x hx ?_ bs n
    simp only [Tree.codes, Tree.paths, List.nil_append, List.mem_append] at hx
    rw [Tree.paths_eq_map l, Tree.paths_eq_map r, List.mem_map, List.mem_map] at hx
    rcases hx with ⟨y, -, rfl⟩ | ⟨y, -, rfl⟩ <;> simp

theorem Tree.stream_cons (t : Tree) (s : Byte) (d : List Byte) :
    t.stream (s :: d) = ((t.codes.lookup s).getD []) ++ t.stream d := rfl

theorem Tree.lookup_of_mem_symbols (t : Tree) {s : Byte} (hs : s ∈ t.symbols) :
    ∃ c, t.codes.lookup s = some c ∧ (s, c) ∈ t.codes := by
  cases h : t.codes.lookup s with
  | none => exact absurd hs (t.lookup_codes_none_iff s |>.mp h)
  | some c => exact ⟨c, rfl, mem_of_lookup_eq_some h⟩

/-- Decoding the codes of `d` gives `d`, and goes on with what follows (R203, R241). -/
theorem walkBits_stream (t : Tree) : ∀ (d : List Byte), (∀ s ∈ d, s ∈ t.symbols) → ∀ (bs : Bits) (n : Nat),
    walkBits (t.records 0) (t.stream d ++ bs) (d.length + n) = (walkBits (t.records 0) bs n).map (d ++ ·) := by
  intro d
  induction d with
  | nil =>
    intro _ bs n
    simp only [Tree.stream, List.flatMap_nil, List.nil_append, List.length_nil, Nat.zero_add]
    cases walkBits (t.records 0) bs n <;> rfl
  | cons s d ih =>
    intro hd bs n
    obtain ⟨c, hc, hm⟩ := t.lookup_of_mem_symbols (hd s (by simp))
    have e : (s :: d).length + n = (d.length + n) + 1 := by simp; omega
    rw [t.stream_cons, hc, Option.getD_some, List.append_assoc, e, walkBits_code t hm,
      ih (fun x hx => hd x (by simp [hx])) bs n]
    cases walkBits (t.records 0) bs n <;> simp [Except.map]

/-- The codes of `d`, and whatever follows, decode to `d` (R206). -/
theorem walkBits_stream_exact (t : Tree) (d : List Byte) (hd : ∀ s ∈ d, s ∈ t.symbols) (bs : Bits) :
    walkBits (t.records 0) (t.stream d ++ bs) d.length = .ok d := by
  have := walkBits_stream t d hd bs 0
  rw [Nat.add_zero, walkBits_zero] at this
  simpa [Except.map] using this

theorem walkTree_error {tm : TreeMem} {cur cnt : Nat} {bs : Bits} {x : Stop} (h : walkTree tm cur bs cnt = .error x) :
    x = .raise .truncatedStream ∨ x = .raise .corruptCode := by
  induction bs generalizing cur cnt x with
  | nil =>
    cases cnt with
    | zero => simp [walkTree_zero] at h
    | succ n => rw [walkTree_nil] at h; exact .inl (Except.error.inj h).symm
  | cons b bs ih =>
    cases cnt with
    | zero => simp [walkTree_zero] at h
    | succ n =>
      rw [walkTree_cons] at h
      split at h
      · split at h
        · cases hw : walkTree tm 0 bs n with
          | ok y => rw [hw] at h; simp [Except.map] at h
          | error y => rw [hw] at h; simp [Except.map] at h; subst h; exact ih hw
        · exact ih h
        · exact .inr (Except.error.inj h).symm
      · exact .inr (Except.error.inj h).symm
      · exact .inr (Except.error.inj h).symm

theorem walkLeaf_error {s : Byte} {cnt : Nat} {bs : Bits} {x : Stop} (h : walkLeaf s bs cnt = .error x) :
    x = .raise .truncatedStream ∨ x = .raise .corruptCode := by
  induction bs generalizing cnt x with
  | nil =>
    cases cnt with
    | zero => simp [walkLeaf_zero] at h
    | succ n => exact .inl (Except.error.inj h).symm
  | cons b bs ih =>
    cases cnt with
    | zero => simp [walkLeaf_zero] at h
    | succ n =>
      rw [walkLeaf] at h
      split at h
      · exact .inr (Except.error.inj h).symm
      · cases hw : walkLeaf s bs n with
        | ok y => rw [hw] at h; simp [Except.map] at h
        | error y => rw [hw] at h; simp [Except.map] at h; subst h; exact ih hw

theorem walkBits_error {tm : TreeMem} {cnt : Nat} {bs : Bits} {x : Stop} (h : walkBits tm bs cnt = .error x) :
    x = .raise .truncatedStream ∨ x = .raise .corruptCode := by
  unfold walkBits at h
  split at h
  · exact walkLeaf_error h
  · exact walkTree_error h

/-- A successful decoder emits exactly the symbols it was asked for (R203). -/
theorem walkTree_length {tm : TreeMem} {cur cnt : Nat} {bs : Bits} {out : List Byte}
    (h : walkTree tm cur bs cnt = .ok out) : out.length = cnt := by
  induction bs generalizing cur cnt out with
  | nil =>
    cases cnt with
    | zero => rw [walkTree_zero] at h; cases h; rfl
    | succ n => cases h
  | cons b bs ih =>
    cases cnt with
    | zero => rw [walkTree_zero] at h; cases h; rfl
    | succ n =>
      rw [walkTree_cons] at h
      split at h
      · split at h
        · cases hw : walkTree tm 0 bs n with
          | ok y => rw [hw] at h; cases h; simp [ih hw]
          | error y => rw [hw] at h; cases h
        · exact ih h
        · cases h
      · cases h
      · cases h

theorem walkLeaf_length {s : Byte} {cnt : Nat} {bs : Bits} {out : List Byte} (h : walkLeaf s bs cnt = .ok out) :
    out.length = cnt := by
  induction bs generalizing cnt out with
  | nil =>
    cases cnt with
    | zero => rw [walkLeaf_zero] at h; cases h; rfl
    | succ n => cases h
  | cons b bs ih =>
    cases cnt with
    | zero => rw [walkLeaf_zero] at h; cases h; rfl
    | succ n =>
      rw [walkLeaf] at h
      split at h
      · cases h
      · cases hw : walkLeaf s bs n with
        | ok y => rw [hw] at h; cases h; simp [ih hw]
        | error y => rw [hw] at h; cases h

theorem walkBits_length {tm : TreeMem} {cnt : Nat} {bs : Bits} {out : List Byte} (h : walkBits tm bs cnt = .ok out) :
    out.length = cnt := by
  unfold walkBits at h
  split at h
  · exact walkLeaf_length h
  · exact walkTree_length h

theorem unpackBits_length {tm : TreeMem} {p : List Byte} {vb cnt : Nat} {out : List Byte}
    (h : unpackBits tm p vb cnt = .ok out) : out.length = cnt := by
  rw [unpackBits_eq] at h
  split at h
  · cases h
  · exact walkBits_length h

theorem unpackBits_error {tm : TreeMem} {p : List Byte} {vb cnt : Nat} {x : Stop}
    (h : unpackBits tm p vb cnt = .error x) : ∃ e, x = .raise e := by
  rw [unpackBits_eq] at h
  split at h
  · exact ⟨_, (Except.error.inj h).symm⟩
  · rcases walkBits_error h with h | h <;> exact ⟨_, h⟩

/-- With two or more leaves the walk never meets a missing child (R207). -/
theorem walkTree_not_corrupt {tm : TreeMem} {root : Tree} (hroot : root.sits tm 0)
    (hr : ∃ l r, root = .internal l r) : ∀ (bs : Bits) (t : Tree) (cur cnt : Nat), t.sits tm cur →
    (∃ l r, t = .internal l r) → walkTree tm cur bs cnt ≠ .error (.raise .corruptCode) := by
  intro bs
  induction bs with
  | nil =>
    intro t cur cnt _ _ h
    cases cnt with
    | zero => simp [walkTree_zero] at h
    | succ n => rw [walkTree_nil] at h; simp [throwErr] at h
  | cons b bs ih =>
    rintro t cur cnt hs ⟨l, r, rfl⟩ h
    cases cnt with
    | zero => simp [walkTree_zero] at h
    | succ n =>
      rw [walkTree_step hs] at h
      have key : ∀ (sub : Tree) (k : Nat), sub.sits tm k →
          (match sub with
            | .leaf s => (walkTree tm 0 bs n).map (s :: ·)
            | .internal _ _ => walkTree tm k bs (n + 1)) ≠ .error (.raise .corruptCode) := by
        intro sub k hk hh
        cases sub with
        | leaf s =>
          simp only at hh
          cases hw : walkTree tm 0 bs n with
          | ok y => rw [hw] at hh; simp [Except.map] at hh
          | error y =>
            rw [hw] at hh; simp [Except.map] at hh; subst hh
            exact ih root 0 n hroot hr hw
        | internal a c => exact ih (.internal a c) k (n + 1) hk ⟨_, _, rfl⟩ hh
      cases b
      · exact key l (cur + 1) hs.2.1 h
      · exact key r (cur + 1 + l.size) hs.2.2 h

/-! ### Packing with the codes of a tree -/

theorem codeStream_eq_stream {ct : CodeTable} {t : Tree} (h : ∀ s, ct.code s = t.codes.lookup s) (d : List Byte) :
    codeStream ct d = t.stream d := by
  simp [codeStream, Tree.stream, h]

theorem missesCode_eq_false_iff (ct : CodeTable) (d : List Byte) :
    missesCode ct d = false ↔ ∀ s ∈ d, (ct.code s).isSome := by
  simp [missesCode, List.any_eq_false, Option.isSome_iff_ne_none]

theorem missesCode_tree {ct : CodeTable} {t : Tree} (h : ∀ s, ct.code s = t.codes.lookup s) (d : List Byte) :
    missesCode ct d = false ↔ ∀ s ∈ d, s ∈ t.symbols := by
  rw [missesCode_eq_false_iff]
  refine forall₂_congr fun s _ => ?_
  rw [h]
  have := t.lookup_codes_none_iff s
  cases hl : t.codes.lookup s <;> simp_all

theorem Tree.stream_length_ge (t : Tree) (ht : t.distinct) (d : List Byte) (hd : ∀ s ∈ d, s ∈ t.symbols) :
    d.length ≤ (t.stream d).length := by
  induction d with
  | nil => simp
  | cons s d ih =>
    obtain ⟨c, hc, hm⟩ := t.lookup_of_mem_symbols (hd s (by simp))
    have := (t.code_length ht _ hm).1
    have := ih fun x hx => hd x (by simp [hx])
    rw [t.stream_cons, hc]
    simp at *
    omega

theorem Tree.stream_length_le (t : Tree) (ht : t.distinct) (d : List Byte) : (t.stream d).length ≤ 255 * d.length := by
  induction d with
  | nil => simp [Tree.stream]
  | cons s d ih =>
    rw [t.stream_cons]
    have : ((t.codes.lookup s).getD []).length ≤ 255 := by
      cases hl : t.codes.lookup s with
      | none => simp
      | some c => exact (t.code_length ht _ (mem_of_lookup_eq_some hl)).2
    simp at *
    omega

end Sys2Proof.Machine
end

