-- ==== Sys2Proof/Laws/Command.lean ====
section
/-! SUPPORT. What each shared operation of a command can do, said once, and each command by its steps. -/

namespace Sys2Proof.Machine

/-! ### Issue, error, completion -/

theorem runCommand_ok {body : State → Except Stop State} {s t : State} (h : body s.issue = .ok t) :
    runCommand body s = .next t.complete := by rw [runCommand, h]

theorem runCommand_raise {body : State → Except Stop State} {s : State} {e : ErrCode}
    (h : body s.issue = throwErr e) : runCommand body s = .next (s.issue.raise e) := by
  rw [runCommand, h]; rfl

theorem runCommand_refuse {body : State → Except Stop State} {s : State} {r : Refusal}
    (h : body s.issue = refuseCmd r) : runCommand body s = .refused r := by
  rw [runCommand, h]; rfl

/-- A command that answers a next state either ran all its steps or raised one error. -/
theorem runCommand_next {body : State → Except Stop State} {s u : State} (h : runCommand body s = .next u) :
    (∃ t, body s.issue = .ok t ∧ u = t.complete) ∨ (∃ e, body s.issue = throwErr e ∧ u = s.issue.raise e) := by
  unfold runCommand at h
  split at h
  · next t ht => exact .inl ⟨t, ht, (Host.Outcome.next.inj h).symm⟩
  · next e he => exact .inr ⟨e, he, (Host.Outcome.next.inj h).symm⟩
  · cases h

theorem runCommand_refused {body : State → Except Stop State} {s : State} {r : Refusal}
    (h : runCommand body s = .refused r) : body s.issue = refuseCmd r := by
  unfold runCommand at h
  split at h
  · cases h
  · cases h
  · next r' hr => rw [hr]; cases h; rfl

theorem runCommand_not_fault (body : State → Except Stop State) (s : State) (f : Fault) :
    runCommand body s ≠ .fault f := by
  unfold runCommand
  split <;> simp

theorem State.raise_failed (s : State) (e : ErrCode) : s.Failed (s.issue.raise e) e where
  err := rfl
  olen := rfl
  obuf := rfl
  phase := rfl
  busy := rfl
  tree := ⟨rfl, fun sym => CodeTable.code_empty sym⟩
  inputs := ⟨rfl, rfl, fun _ => rfl, fun _ => rfl, rfl, rfl, rfl⟩
  vbits := rfl
  symcnt := rfl

/-- An error raised is a failed call. -/
theorem runCommand_failed {body : State → Except Stop State} {s : State} {e : ErrCode}
    (h : body s.issue = throwErr e) : ∃ u, runCommand body s = .next u ∧ s.Failed u e :=
  ⟨_, runCommand_raise h, s.raise_failed e⟩

/-! ### The steps commands share -/

theorem prefixOf_ok {s : State} {b : Buffer} {d : List Byte} (h : Memory.holds (s.buffer b) d) :
    s.prefixOf b d.length = .ok d := by
  rw [State.prefixOf, (Memory.readBytes_zero_eq_ok_iff (s.buffer b) d.length d).mpr ⟨rfl, h⟩]

theorem prefixOf_eq_ok {s : State} {b : Buffer} {n : Nat} {d : List Byte} (h : s.prefixOf b n = .ok d) :
    d.length = n ∧ Memory.holds (s.buffer b) d := by
  unfold State.prefixOf at h
  split at h
  · next d' hd => cases h; exact (Memory.readBytes_zero_eq_ok_iff _ _ _).mp hd
  · cases h

theorem prefixOf_cases (s : State) (b : Buffer) (n : Nat) :
    (∃ d, s.prefixOf b n = .ok d ∧ d.length = n ∧ Memory.holds (s.buffer b) d) ∨
    (∃ i, s.prefixOf b n = refuseCmd (.unwrittenByte b i) ∧ i < n ∧ Memory.read (s.buffer b) i = none) := by
  unfold State.prefixOf
  cases h : Memory.readBytes (s.buffer b) 0 n with
  | ok d => exact .inl ⟨d, rfl, (Memory.readBytes_zero_eq_ok_iff _ _ _).mp h⟩
  | error i =>
    obtain ⟨-, h2, h3⟩ := Memory.readBytes_eq_error h
    exact .inr ⟨i, rfl, by omega, h3⟩

theorem prefixOf_written {s : State} {b : Buffer} {n : Nat} (h : Memory.written (s.buffer b) n) :
    ∃ d, s.prefixOf b n = .ok d ∧ d.length = n ∧ Memory.holds (s.buffer b) d := by
  rcases prefixOf_cases s b n with h' | ⟨i, -, h2, h3⟩
  · exact h'
  · have := h i h2; simp [h3] at this

theorem admitResult_ok {s : State} {n : Nat} (h : n ≤ s.caps.obuf.val) : s.admitResult n = .ok () := if_pos h
theorem admitResult_refused {s : State} {n : Nat} (h : ¬n ≤ s.caps.obuf.val) :
    s.admitResult n = refuseCmd .resultBeyondCapacity := if_neg h

theorem prefixOf_congr {s t : State} {b : Buffer} (h : s.buffer b = t.buffer b) (n : Nat) :
    s.prefixOf b n = t.prefixOf b n := by simp [State.prefixOf, h]

/-- The valid prefix depends on the bytes in it only. -/
theorem prefixOf_reads {s t : State} {b : Buffer} {n : Nat}
    (h : ∀ k, k < n → Memory.read (s.buffer b) k = Memory.read (t.buffer b) k) : s.prefixOf b n = t.prefixOf b n := by
  rw [State.prefixOf, State.prefixOf, Memory.readBytes_congr (i := 0) (l := n) fun k _ hk => h k (by omega)]

theorem loadWhole_ser (t : Tree) (h : t.distinct) :
    loadWhole t.ser = .ok (t.records 0, deriveCodes (t.records 0), t.ser) := by
  have := loadTreeFrom_ser t h []
  rw [List.append_nil] at this
  rw [loadWhole, this]; rfl

theorem loadWhole_malformed {d : List Byte} (h : ¬∃ t : Tree, t.distinct ∧ d = t.ser) :
    loadWhole d = throwErr .malformedContainer := by
  rw [loadWhole]
  cases hp : loadTreeFrom d with
  | error y => rw [loadTreeFrom_error hp]; rfl
  | ok y =>
    obtain ⟨tm, ct, rest⟩ := y
    obtain ⟨t, rfl, ht, rfl, rfl⟩ := loadTreeFrom_sound hp
    have hr : rest ≠ [] := by rintro rfl; exact h ⟨t, ht, by simp⟩
    change (if rest = [] then _ else _) = _
    rw [if_neg hr]

/-- What `LDTREE` and `ENCODE` make of `TBUF`: a tree, `MalformedContainerError`, or a byte without a value. -/
theorem loadTbuf_cases (s : State) :
    (∃ t : Tree, t.distinct ∧ s.tlen.toNat = t.ser.length ∧ Memory.holds s.tbuf t.ser ∧
      s.loadTbuf = .ok (t.records 0, deriveCodes (t.records 0), t.ser)) ∨
    (s.loadTbuf = throwErr .malformedContainer ∧
      (Config.tbufCap < s.tlen.toNat ∨ ∃ d : List Byte, s.tlen.toNat = d.length ∧ Memory.holds s.tbuf d ∧
        ¬∃ t : Tree, t.distinct ∧ d = t.ser)) ∨
    (∃ i, s.loadTbuf = refuseCmd (.unwrittenByte .tbuf i) ∧ i < s.tlen.toNat ∧ s.tlen.toNat ≤ Config.tbufCap ∧
      Memory.read s.tbuf i = none) := by
  unfold State.loadTbuf
  by_cases h1 : Config.tbufCap < s.tlen.toNat
  · rw [if_pos h1]; exact .inr (.inl ⟨rfl, .inl h1⟩)
  · rw [if_neg h1]
    rcases prefixOf_cases s .tbuf s.tlen.toNat with ⟨d, hd, hl, hh⟩ | ⟨i, hi, h2, h3⟩
    · rw [hd]
      by_cases ht : ∃ t : Tree, t.distinct ∧ d = t.ser
      · obtain ⟨t, ht, rfl⟩ := ht
        exact .inl ⟨t, ht, hl.symm, hh, loadWhole_ser t ht⟩
      · exact .inr (.inl ⟨loadWhole_malformed ht, .inr ⟨d, hl.symm, hh, ht⟩⟩)
    · exact .inr (.inr ⟨i, by rw [hi]; rfl, h2, by omega, h3⟩)

theorem loadTbuf_ok {s : State} {t : Tree} (ht : t.distinct) (hl : s.tlen.toNat = t.ser.length)
    (hh : Memory.holds s.tbuf t.ser) : s.loadTbuf = .ok (t.records 0, deriveCodes (t.records 0), t.ser) := by
  rcases loadTbuf_cases s with ⟨u, -, h2, h3, h4⟩ | ⟨-, h | ⟨d, h2, h3, h4⟩⟩ | ⟨i, -, h2, -, h3⟩
  · have : u.ser = t.ser := Memory.holds_unique (by omega) h3 hh
    have := (Tree.ser_append_inj (x := []) (y := []) (by simpa using this)).1
    subst this; exact h4
  · have := t.ser_length; have := nodup_bytes_length_le ht
    simp only [Config.tbufCap] at h; omega
  · have : d = t.ser := Memory.holds_unique (by omega) h3 hh
    exact absurd ⟨t, ht, this⟩ h4
  · have := hh i (by omega)
    simp [h3] at this

theorem loadTbuf_malformed {s : State} {d : List Byte} (hl : s.tlen.toNat = d.length) (hh : Memory.holds s.tbuf d)
    (hn : ¬∃ t : Tree, t.distinct ∧ d = t.ser) : s.loadTbuf = throwErr .malformedContainer := by
  rcases loadTbuf_cases s with ⟨t, h1, h2, h3, -⟩ | ⟨h, -⟩ | ⟨i, -, h2, -, h3⟩
  · exact absurd ⟨t, h1, Memory.holds_unique (by omega) hh h3⟩ hn
  · exact h
  · have := hh i (by omega)
    simp [h3] at this

theorem loadTree_hasTree (s : State) {t : Tree} (h : t.distinct) :
    (s.loadTree (t.records 0) (deriveCodes (t.records 0))).HasTree t :=
  ⟨rfl, code_deriveCodes t h⟩

/-! ### Results -/

/-- The end of a transcoding that succeeded: `r` is the result (R38, R253). -/
theorem produced_of {s t : State} {r : List Byte} (hr : r.length ≤ s.caps.obuf.val)
    (ho : t.obuf = Memory.writeBytes [] 0 r) (hl : t.olen = BitVec.ofNat 32 r.length) (he : t.err = none)
    (hp : t.phase = .done) (hb : t.busy = false) (htm : t.tm = []) (hct : t.ct = CodeTable.empty)
    (hk : s.KeepsInputs t) : s.Produced t r where
  obuf := by rw [ho]; exact Memory.holds_writeBytes_nil r
  rest := fun i hi => by rw [ho, Memory.read_writeBytes_nil]; simpa using hi
  olen := by
    have := s.caps.obuf.isLt
    rw [hl, BitVec.toNat_ofNat, Nat.mod_eq_of_lt (by omega)]
  err := he
  phase := hp
  busy := hb
  tree := ⟨htm, fun sym => by rw [hct]; exact CodeTable.code_empty sym⟩
  inputs := hk

theorem State.KeepsInputs.of_eq {s t : State} (h1 : t.ilen = s.ilen) (h2 : t.tlen = s.tlen) (h3 : t.ibuf = s.ibuf)
    (h4 : t.tbuf = s.tbuf) (h5 : t.free.resets = s.free.resets) (h6 : t.caps = s.caps) (h7 : t.host = s.host) :
    s.KeepsInputs t := ⟨h1, h2, fun i => by rw [h3], fun i => by rw [h4], h5, h6, h7⟩

theorem State.KeepsInputs.refl (s : State) : s.KeepsInputs s := .of_eq rfl rfl rfl rfl rfl rfl rfl

theorem packSymbols_ok {ct : CodeTable} {d : List Byte} (h : ∀ x ∈ d, (ct.code x).isSome) :
    packSymbols ct d = .ok (packedBytes (codeStream ct d), lastValidBits (codeStream ct d).length) := by
  rw [packSymbols, (missesCode_eq_false_iff ct d).mpr h]; rfl

theorem packSymbols_missing {ct : CodeTable} {d : List Byte} (h : ∃ x ∈ d, ct.code x = none) :
    packSymbols ct d = throwErr .missingCode := by
  obtain ⟨x, hx, hn⟩ := h
  have : missesCode ct d = true := by simp only [missesCode, List.any_eq_true]; exact ⟨x, hx, by simp [hn]⟩
  rw [packSymbols, this]; rfl

theorem packSymbols_cases (ct : CodeTable) (d : List Byte) :
    ((∀ x ∈ d, (ct.code x).isSome) ∧
      packSymbols ct d = .ok (packedBytes (codeStream ct d), lastValidBits (codeStream ct d).length)) ∨
    ((∃ x ∈ d, ct.code x = none) ∧ packSymbols ct d = throwErr .missingCode) := by
  by_cases h : ∀ x ∈ d, (ct.code x).isSome
  · exact .inl ⟨h, packSymbols_ok h⟩
  · have h' : ∃ x ∈ d, ct.code x = none := by simpa [Option.isSome_iff_ne_none] using h
    exact .inr ⟨h', packSymbols_missing h'⟩

theorem packInput_ok {s : State} {d : List Byte} (hl : s.ilen.toNat = d.length) (hh : Memory.holds s.ibuf d)
    (hc : ∀ x ∈ d, (s.ct.code x).isSome) (hr : ((codeStream s.ct d).length + 7) / 8 ≤ s.caps.obuf.val) :
    s.packInput = .ok ((s.putResult (packedBytes (codeStream s.ct d))).putPackCounts
      (lastValidBits (codeStream s.ct d).length)).endCall := by
  rw [State.packInput, hl, prefixOf_ok (s := s) (b := .ibuf) hh]
  change packSymbols s.ct d >>= _ = _
  rw [packSymbols_ok hc]
  change s.admitResult _ >>= _ = _
  rw [admitResult_ok (by rw [packedBytes_length]; exact hr)]
  rfl

theorem packInput_missing {s : State} {d : List Byte} (hl : s.ilen.toNat = d.length) (hh : Memory.holds s.ibuf d)
    (hc : ∃ x ∈ d, s.ct.code x = none) : s.packInput = throwErr .missingCode := by
  rw [State.packInput, hl, prefixOf_ok (s := s) (b := .ibuf) hh]
  change packSymbols s.ct d >>= _ = _
  rw [packSymbols_missing hc]
  rfl

theorem unpackInput_ok {s : State} {p out : List Byte} (hl : s.ilen.toNat = p.length) (hh : Memory.holds s.ibuf p)
    (h : unpackBits s.tm p s.vbits.toNat s.symcnt.toNat = .ok out) :
    s.unpackInput = .ok (s.putResult out).endCall := by
  rw [State.unpackInput, hl, prefixOf_ok (s := s) (b := .ibuf) hh]
  change unpackBits s.tm p _ _ >>= _ = _
  rw [h]; rfl

theorem unpackInput_raise {s : State} {p : List Byte} {e : ErrCode} (hl : s.ilen.toNat = p.length)
    (hh : Memory.holds s.ibuf p) (h : unpackBits s.tm p s.vbits.toNat s.symcnt.toNat = throwErr e) :
    s.unpackInput = throwErr e := by
  rw [State.unpackInput, hl, prefixOf_ok (s := s) (b := .ibuf) hh]
  change unpackBits s.tm p _ _ >>= _ = _
  rw [h]; rfl

theorem frameContainer_length (n : Word) (vb : Nat) (d p : List Byte) :
    (frameContainer n vb d p).length = 5 + d.length + p.length := by
  simp [frameContainer, be32]; omega

theorem encodeInput_ok {s : State} {b d : List Byte} (hl : s.ilen.toNat = d.length)
    (hh : Memory.holds s.ibuf d) (hc : ∀ x ∈ d, (s.ct.code x).isSome)
    (hr : 5 + b.length + ((codeStream s.ct d).length + 7) / 8 ≤ s.caps.obuf.val) :
    s.encodeInput b = .ok ((s.putResult (frameContainer s.ilen (lastValidBits (codeStream s.ct d).length) b
      (packedBytes (codeStream s.ct d)))).putPackCounts (lastValidBits (codeStream s.ct d).length)).endCall := by
  rw [State.encodeInput, hl, prefixOf_ok (s := s) (b := .ibuf) hh]
  change packSymbols s.ct d >>= _ = _
  rw [packSymbols_ok hc]
  change s.admitResult _ >>= _ = _
  rw [admitResult_ok (by rw [frameContainer_length, packedBytes_length]; exact hr)]
  rfl

theorem encodeInput_missing {s : State} {b d : List Byte} (hl : s.ilen.toNat = d.length)
    (hh : Memory.holds s.ibuf d) (hc : ∃ x ∈ d, s.ct.code x = none) : s.encodeInput b = throwErr .missingCode := by
  rw [State.encodeInput, hl, prefixOf_ok (s := s) (b := .ibuf) hh]
  change packSymbols s.ct d >>= _ = _
  rw [packSymbols_missing hc]
  rfl

theorem encodeHeader_loaded {s : State} {tm : TreeMem} {ct : CodeTable} {b : List Byte}
    (h : s.loadTbuf = .ok (tm, ct, b)) :
    s.encodeHeader = ((s.loadTree tm ct).setPhase .transcoding).encodeInput b := by
  rw [State.encodeHeader, h]; rfl

theorem encodeHeader_malformed {s : State} (h : s.loadTbuf = throwErr .malformedContainer) :
    s.encodeHeader = throwErr .malformedContainer := by
  rw [State.encodeHeader, h]; rfl

theorem parseBody_ok {t : Tree} (ht : t.distinct) (n vb : Nat) {p : List Byte} (hb : badValidBits p.length vb = false) :
    parseBody n vb (t.ser ++ p) =
      .ok { wCnt := n, wVb := vb, tm := t.records 0, ct := deriveCodes (t.records 0), packed := p } := by
  rw [parseBody, loadTreeFrom_ser t ht p]
  change (if badValidBits p.length vb then _ else _) = _
  rw [hb]; rfl

theorem parseBody_error {n vb : Nat} {b : List Byte} {x : Stop} (h : parseBody n vb b = .error x) :
    x = .raise .malformedContainer := by
  rw [parseBody] at h
  cases hp : loadTreeFrom b with
  | error y => rw [hp] at h; cases h; exact loadTreeFrom_error hp
  | ok y =>
    obtain ⟨tm, ct, p⟩ := y
    rw [hp] at h
    change (if badValidBits p.length vb then _ else _) = _ at h
    split at h <;> cases h
    rfl

theorem parseBody_sound {n vb : Nat} {b : List Byte} {k : Container} (h : parseBody n vb b = .ok k) :
    ∃ t : Tree, t.distinct ∧ b = t.ser ++ k.packed ∧ badValidBits k.packed.length vb = false ∧ k.wCnt = n ∧
      k.wVb = vb ∧ k.tm = t.records 0 ∧ k.ct = deriveCodes (t.records 0) := by
  rw [parseBody] at h
  cases hp : loadTreeFrom b with
  | error y => rw [hp] at h; cases h
  | ok y =>
    obtain ⟨tm, ct, p⟩ := y
    rw [hp] at h
    change (if badValidBits p.length vb then _ else _) = _ at h
    split at h
    · cases h
    · next hb =>
      cases h
      obtain ⟨t, rfl, ht, h3, h4⟩ := loadTreeFrom_sound hp
      exact ⟨t, ht, rfl, by simpa using hb, rfl, rfl, h3, h4⟩

theorem parseContainer_error {c : List Byte} {x : Stop} (h : parseContainer c = .error x) :
    x = .raise .malformedContainer := by
  unfold parseContainer at h
  split at h
  · exact parseBody_error h
  · exact (Except.error.inj h).symm

theorem parseContainer_sound {c : List Byte} {k : Container} (h : parseContainer c = .ok k) :
    ∃ (c0 c1 c2 c3 c4 : Byte) (t : Tree), t.distinct ∧ c = c0 :: c1 :: c2 :: c3 :: c4 :: (t.ser ++ k.packed) ∧
      badValidBits k.packed.length c4.toNat = false ∧ k.wCnt = originalLength c0 c1 c2 c3 ∧ k.wVb = c4.toNat ∧
      k.tm = t.records 0 ∧ k.ct = deriveCodes (t.records 0) := by
  unfold parseContainer at h
  split at h
  · next c0 c1 c2 c3 c4 b =>
    obtain ⟨t, ht, rfl, h3⟩ := parseBody_sound h
    exact ⟨c0, c1, c2, c3, c4, t, ht, rfl, h3⟩
  · cases h

theorem decodeHeader_parsed {s : State} {c : List Byte} (hl : s.ilen.toNat = c.length) (hh : Memory.holds s.ibuf c) :
    s.decodeHeader = (parseContainer c).bind
      fun k => ((s.loadTree k.tm k.ct).setPhase .transcoding).decodeInput k := by
  rw [State.decodeHeader, hl, prefixOf_ok (s := s) (b := .ibuf) hh]
  rfl

theorem decodeInput_ok {s : State} {k : Container} {out : List Byte} (hr : k.wCnt ≤ s.caps.obuf.val)
    (h : unpackBits s.tm k.packed k.wVb k.wCnt = .ok out) : s.decodeInput k = .ok (s.putResult out).endCall := by
  rw [State.decodeInput, admitResult_ok hr]
  change unpackBits s.tm k.packed k.wVb k.wCnt >>= _ = _
  rw [h]; rfl

theorem decodeInput_raise {s : State} {k : Container} {e : ErrCode} (hr : k.wCnt ≤ s.caps.obuf.val)
    (h : unpackBits s.tm k.packed k.wVb k.wCnt = throwErr e) : s.decodeInput k = throwErr e := by
  rw [State.decodeInput, admitResult_ok hr]
  change unpackBits s.tm k.packed k.wVb k.wCnt >>= _ = _
  rw [h]; rfl

end Sys2Proof.Machine
end

