-- ==== Sys2Proof/Laws/HostStages.lean ====
section
/-! SUPPORT. The host's stages: the frequency table, the queue of the reference builder, and a host script run access by
access. -/

namespace Sys2Proof.Machine

/-! ### The frequency table (R130) -/

theorem mem_allSymbols (s : Byte) : s ∈ allSymbols := by
  simp only [allSymbols, List.mem_map, List.mem_range, Config.alphabet]
  exact ⟨s.toNat, s.isLt, by simp⟩

theorem nodup_allSymbols : allSymbols.Nodup := by
  refine List.Nodup.map_on (fun a ha b hb h => ?_) List.nodup_range
  simp only [List.mem_range, Config.alphabet] at ha hb
  have := congrArg BitVec.toNat h
  simp at this
  omega

theorem map_fst_freq (d : List Byte) : (freq d).map Prod.fst = allSymbols.filter fun s => d.contains s := by
  simp [freq, Function.comp_def]

theorem mem_map_fst_freq (d : List Byte) (s : Byte) : s ∈ (freq d).map Prod.fst ↔ s ∈ d := by
  rw [map_fst_freq]; simp [mem_allSymbols]

/-! ### The queue of the reference builder (R136) -/

theorem takeLeast_perm (q : List QueueEntry) : ∀ e : QueueEntry, ((takeLeast e q).1 :: (takeLeast e q).2).Perm (e :: q) := by
  induction q with
  | nil => intro e; exact .refl _
  | cons f q ih =>
    intro e
    rw [takeLeast]
    split
    · exact ((List.Perm.swap e _ _).trans (.cons e (ih f)))
    · exact ((List.Perm.swap f _ _).trans (.cons f (ih e))).trans (.swap e f q)

theorem takeLeast_length (e : QueueEntry) (q : List QueueEntry) : (takeLeast e q).2.length = q.length := by
  have := (takeLeast_perm q e).length_eq; simpa using this

/-- The leaf symbols in a queue. -/
def queueSymbols (q : List QueueEntry) : List Byte := q.flatMap fun e => e.node.symbols

theorem queueSymbols_perm {p q : List QueueEntry} (h : p.Perm q) : (queueSymbols p).Perm (queueSymbols q) :=
  h.flatMap_right _

/-- Merging keeps the leaf symbols, and with fuel for every merge it ends in one tree. -/
theorem mergeLoop_symbols : ∀ (fuel n : Nat) (q : List QueueEntry), q ≠ [] → q.length ≤ fuel + 1 →
    ∃ t, mergeLoop fuel n q = some t ∧ t.symbols.Perm (queueSymbols q) := by
  intro fuel
  induction fuel with
  | zero =>
    intro n q h0 hl
    match q, h0, hl with
    | [e], _, _ => exact ⟨e.node, rfl, by simp [queueSymbols]⟩
  | succ fuel ih =>
    intro n q h0 hl
    match q, h0, hl with
    | [e], _, _ => exact ⟨e.node, rfl, by simp [queueSymbols]⟩
    | e :: f :: q, _, hl =>
      have hp := takeLeast_perm (f :: q) e
      have hn := takeLeast_length e (f :: q)
      cases ha : takeLeast e (f :: q) with
      | mk a q1 =>
        rw [ha] at hp hn
        cases q1 with
        | nil => simp at hn
        | cons g q2 =>
          have hp2 := takeLeast_perm q2 g
          have hn2 := takeLeast_length g q2
          cases hb : takeLeast g q2 with
          | mk b q3 =>
            rw [hb] at hp2 hn2
            have hlen : (({ weight := a.weight + b.weight, order := 256 + n, node := .internal a.node b.node } :
                QueueEntry) :: q3).length ≤ fuel + 1 := by simp at hn hn2 hl ⊢; omega
            obtain ⟨t, ht, hs⟩ := ih (n + 1) _ (by simp) hlen
            refine ⟨t, ?_, hs.trans ?_⟩
            · simp only [mergeLoop, ha, hb]; exact ht
            · have e1 := queueSymbols_perm hp
              have e2 := queueSymbols_perm hp2
              simp only [queueSymbols, List.flatMap_cons, Tree.symbols, List.append_assoc] at e1 e2 ⊢
              exact (List.Perm.append_left _ e2).trans e1

/-! ### Scripts -/

theorem runAccesses_append (a b : List HostAccess) (s : State) : runAccesses (a ++ b) s =
    match runAccesses a s with
    | .next t => runAccesses b t
    | .fault f => .fault f
    | .refused r => .refused r := by
  induction a generalizing s with
  | nil => rfl
  | cons x a ih =>
    simp only [List.cons_append, runAccesses]
    cases hostAccess x s with
    | next t => exact ih t
    | fault f => rfl
    | refused r => rfl

theorem runAccesses_cons {x : HostAccess} {s t : State} (h : hostAccess x s = .next t) (a : List HostAccess) :
    runAccesses (x :: a) s = runAccesses a t := by rw [runAccesses, h]

/-- Filling `IBUF` byte by byte (R111). -/
theorem runAccesses_fillIbuf : ∀ (d : List Byte) (i : Nat) (s : State) (a : List HostAccess), s.busy = false →
    i + d.length ≤ s.caps.ibuf.val →
    runAccesses (bufWritesFrom .ibuf i d ++ a) s = runAccesses a { s with ibuf := Memory.writeBytes s.ibuf i d } := by
  intro d
  induction d with
  | nil => intro i s a _ _; rfl
  | cons v d ih =>
    intro i s a hb hc
    simp only [List.length_cons] at hc
    rw [bufWritesFrom, List.cons_append, runAccesses_cons (t := { s with ibuf := Memory.write s.ibuf i v })]
    · exact ih (i + 1) _ a hb (by change _ ≤ s.caps.ibuf.val; omega)
    · have : i < s.capacity .ibuf := by change i < s.caps.ibuf.val; omega
      simp only [hostAccess, hostBufWrite]
      rw [if_neg (by simp [hb]), if_pos this]; rfl

/-- Filling `TBUF` byte by byte (R111). -/
theorem runAccesses_fillTbuf : ∀ (d : List Byte) (i : Nat) (s : State) (a : List HostAccess), s.busy = false →
    i + d.length ≤ Config.tbufCap →
    runAccesses (bufWritesFrom .tbuf i d ++ a) s = runAccesses a { s with tbuf := Memory.writeBytes s.tbuf i d } := by
  intro d
  induction d with
  | nil => intro i s a _ _; rfl
  | cons v d ih =>
    intro i s a hb hc
    simp only [List.length_cons] at hc
    rw [bufWritesFrom, List.cons_append, runAccesses_cons (t := { s with tbuf := Memory.write s.tbuf i v })]
    · exact ih (i + 1) _ a hb (by omega)
    · have : i < s.capacity .tbuf := by change i < Config.tbufCap; omega
      simp only [hostAccess, hostBufWrite]
      rw [if_neg (by simp [hb]), if_pos this]; rfl

theorem hostAccess_ilen {s : State} (hb : s.busy = false) (v : Word) :
    hostAccess (regWriteOf .ilen v) s = .next { s with ilen := v } := by
  change (if s.busy = true then _ else _) = _
  rw [if_neg (by simp [hb])]; rfl

theorem hostAccess_tlen {s : State} (hb : s.busy = false) (v : Word) :
    hostAccess (regWriteOf .tlen v) s = .next { s with tlen := v.extractLsb' 0 10 } := by
  change (if s.busy = true then _ else _) = _
  rw [if_neg (by simp [hb])]; rfl

/-- A write of a command's word to `CMD` runs the command. -/
theorem hostAccess_cmd {s : State} (hb : s.busy = false) (i : Instr) :
    hostAccess (cmdWrite (encode i)) s = exec i s := by
  simp only [cmdWrite, hostAccess, hostWrite, hb]
  cases i <;> rfl

theorem hostAccess_wait {s : State} (hb : s.busy = false) :
    hostAccess .wait s = .next (s.saw (.reg (Reg.offset .status) s.status)) := by
  simp only [hostAccess, hostWait, hostRegRead, hb]; rfl

/-- Bytes written from index 0 are what the buffer then begins with, whatever stood there. -/
theorem Memory.holds_writeBytes (m : List Host.Cell) (d : List Byte) : Memory.holds (Memory.writeBytes m 0 d) d := by
  intro i h
  rw [Memory.read_writeBytes, dif_pos ⟨Nat.zero_le _, h⟩]; rfl

/-- What the host takes after a success is the result (R138, R139). -/
theorem result_of_produced {s t : State} {r : List Byte} (h : s.Produced t r) (x : HostSeen) :
    (t.saw x).result = .ok r := by
  have e : (t.saw x).result = .ok ((List.range t.olen.toNat).map (t.byteAt .obuf)) := by
    unfold State.result
    change (match t.err with | none => _ | some e => _) = _
    rw [h.err]; rfl
  rw [e, h.olen]
  congr 1
  refine List.ext_getElem (by simp) fun i h1 h2 => ?_
  have := h.obuf i h2
  simp only [List.getElem_map, List.getElem_range, State.byteAt, State.buffer, this, Option.getD_some]

end Sys2Proof.Machine
end

