-- ==== Sys2Proof/Laws/Outcome.lean ====
section
/-! SUPPORT. One inversion lemma per command: everything its steps can do, case by case. -/

namespace Sys2Proof.Machine

/-- Everything `LDTREE` can do after its issue. -/
inductive LdtreeOutcome (s : State) : Except Stop State → Prop where
  | loaded (t : Tree) (ht : t.distinct) (hl : s.tlen.toNat = t.ser.length) (hh : Memory.holds s.tbuf t.ser) :
      LdtreeOutcome s (.ok ((s.startCall.setPhase .header).loadTree (t.records 0)
        (deriveCodes (t.records 0))).scrambleWork)
  | malformed (h : Config.tbufCap < s.tlen.toNat ∨ ∃ d : List Byte, s.tlen.toNat = d.length ∧ Memory.holds s.tbuf d ∧
      ¬∃ t : Tree, t.distinct ∧ d = t.ser) : LdtreeOutcome s (throwErr .malformedContainer)
  | unwritten (i : Nat) (hi : i < s.tlen.toNat) (hc : s.tlen.toNat ≤ Config.tbufCap) (hr : Memory.read s.tbuf i = none) :
      LdtreeOutcome s (refuseCmd (.unwrittenByte .tbuf i))

theorem ldtreeSteps_outcome (s : State) : LdtreeOutcome s (ldtreeSteps s) := by
  unfold ldtreeSteps
  rcases loadTbuf_cases (s.startCall.setPhase .header) with ⟨t, h1, h2, h3, h4⟩ | ⟨h, h1⟩ | ⟨i, h, h1, h2, h3⟩
  · rw [h4]; exact .loaded t h1 h2 h3
  · rw [h]; exact .malformed h1
  · rw [h]; exact .unwritten i h1 h2 h3

/-- Everything `PACK` can do after its issue. -/
inductive PackOutcome (s : State) : Except Stop State → Prop where
  | inputTooLong (h : ¬s.inputFits) : PackOutcome s (refuseCmd .inputBeyondCapacity)
  | illegal (hf : s.inputFits) (hp : s.phase ≠ .treeReady) : PackOutcome s (throwErr .illegalCommand)
  | empty (hf : s.inputFits) (hp : s.phase = .treeReady) (h0 : s.ilen.toNat = 0) : PackOutcome s (throwErr .emptyInput)
  | unwritten (hf : s.inputFits) (hp : s.phase = .treeReady) (i : Nat) (hi : i < s.ilen.toNat)
      (hr : Memory.read s.ibuf i = none) : PackOutcome s (refuseCmd (.unwrittenByte .ibuf i))
  | missing (hf : s.inputFits) (hp : s.phase = .treeReady) (h0 : 0 < s.ilen.toNat) (d : List Byte)
      (hl : s.ilen.toNat = d.length) (hh : Memory.holds s.ibuf d) (hm : ∃ x ∈ d, s.ct.code x = none) :
      PackOutcome s (throwErr .missingCode)
  | resultTooLong (hf : s.inputFits) (hp : s.phase = .treeReady) (d : List Byte) (hl : s.ilen.toNat = d.length)
      (hh : Memory.holds s.ibuf d) (hm : ∀ x ∈ d, (s.ct.code x).isSome)
      (hr : ¬s.resultFits (((codeStream s.ct d).length + 7) / 8)) : PackOutcome s (refuseCmd .resultBeyondCapacity)
  | packed (hf : s.inputFits) (hp : s.phase = .treeReady) (h0 : 0 < s.ilen.toNat) (d : List Byte)
      (hl : s.ilen.toNat = d.length) (hh : Memory.holds s.ibuf d) (hm : ∀ x ∈ d, (s.ct.code x).isSome)
      (hr : s.resultFits (((codeStream s.ct d).length + 7) / 8)) :
      PackOutcome s (.ok (((s.clearWork.setPhase .transcoding).putResult (packedBytes (codeStream s.ct d))).putPackCounts
        (lastValidBits (codeStream s.ct d).length)).endCall)

theorem packSteps_outcome (s : State) : PackOutcome s (packSteps s) := by
  unfold packSteps
  by_cases hf : s.inputFits
  · rw [if_neg (not_not_intro hf)]
    by_cases hp : s.phase = .treeReady
    · rw [if_neg (not_not_intro hp)]
      by_cases h0 : s.ilen.toNat = 0
      · rw [if_pos h0]; exact .empty hf hp h0
      · rw [if_neg h0]
        rcases prefixOf_cases s .ibuf s.ilen.toNat with ⟨d, -, hl, hh⟩ | ⟨i, he, hi, hr⟩
        · rcases packSymbols_cases s.ct d with ⟨hm, -⟩ | ⟨hm, -⟩
          · by_cases hr : s.resultFits (((codeStream s.ct d).length + 7) / 8)
            · rw [packInput_ok (s := s.clearWork.setPhase .transcoding) hl.symm hh hm hr]
              exact .packed hf hp (by omega) d hl.symm hh hm hr
            · have : (s.clearWork.setPhase .transcoding).packInput = refuseCmd .resultBeyondCapacity := by
                rw [State.packInput]
                change (s.prefixOf .ibuf s.ilen.toNat) >>= _ = _
                rw [← hl, prefixOf_ok (s := s) (b := .ibuf) hh]
                change packSymbols s.ct d >>= _ = _
                rw [packSymbols_ok hm]
                change s.admitResult _ >>= _ = _
                rw [admitResult_refused (by rw [packedBytes_length]; exact hr)]
                rfl
              rw [this]; exact .resultTooLong hf hp d hl.symm hh hm hr
          · rw [packInput_missing (s := s.clearWork.setPhase .transcoding) hl.symm hh hm]
            exact .missing hf hp (by omega) d hl.symm hh hm
        · have : (s.clearWork.setPhase .transcoding).packInput = refuseCmd (.unwrittenByte .ibuf i) := by
            rw [State.packInput]
            change (s.prefixOf .ibuf s.ilen.toNat) >>= _ = _
            rw [he]; rfl
          rw [this]; exact .unwritten hf hp i hi hr
    · rw [if_pos hp]; exact .illegal hf hp
  · rw [if_pos hf]; exact .inputTooLong hf

/-- Everything `UNPACK` can do after its issue. -/
inductive UnpackOutcome (s : State) : Except Stop State → Prop where
  | inputTooLong (h : ¬s.inputFits) : UnpackOutcome s (refuseCmd .inputBeyondCapacity)
  | resultTooLong (h : ¬s.resultFits s.symcnt.toNat) : UnpackOutcome s (refuseCmd .resultBeyondCapacity)
  | illegal (hf : s.inputFits) (hr : s.resultFits s.symcnt.toNat) (hp : s.phase ≠ .treeReady) :
      UnpackOutcome s (throwErr .illegalCommand)
  | badCount (hf : s.inputFits) (hr : s.resultFits s.symcnt.toNat) (hp : s.phase = .treeReady)
      (hb : badValidBits s.ilen.toNat s.vbits.toNat = true) : UnpackOutcome s (throwErr .malformedContainer)
  | unwritten (hf : s.inputFits) (hr : s.resultFits s.symcnt.toNat) (hp : s.phase = .treeReady) (i : Nat)
      (hi : i < s.ilen.toNat) (hn : Memory.read s.ibuf i = none) : UnpackOutcome s (refuseCmd (.unwrittenByte .ibuf i))
  | walkFailed (hf : s.inputFits) (hr : s.resultFits s.symcnt.toNat) (hp : s.phase = .treeReady)
      (hb : badValidBits s.ilen.toNat s.vbits.toNat = false) (p : List Byte) (hl : s.ilen.toNat = p.length)
      (hh : Memory.holds s.ibuf p) (e : ErrCode) (he : e = .truncatedStream ∨ e = .corruptCode)
      (hw : unpackBits s.tm p s.vbits.toNat s.symcnt.toNat = throwErr e) : UnpackOutcome s (throwErr e)
  | walked (hf : s.inputFits) (hr : s.resultFits s.symcnt.toNat) (hp : s.phase = .treeReady)
      (hb : badValidBits s.ilen.toNat s.vbits.toNat = false) (p : List Byte) (hl : s.ilen.toNat = p.length)
      (hh : Memory.holds s.ibuf p) (out : List Byte)
      (hw : unpackBits s.tm p s.vbits.toNat s.symcnt.toNat = .ok out) (ho : out.length = s.symcnt.toNat) :
      UnpackOutcome s (.ok ((s.clearWork.setPhase .transcoding).putResult out).endCall)

theorem unpackBits_cases {tm : TreeMem} {p : List Byte} {vb cnt : Nat} (hb : badValidBits p.length vb = false) :
    (∃ out, unpackBits tm p vb cnt = .ok out ∧ out.length = cnt) ∨
    (∃ e, (e = .truncatedStream ∨ e = .corruptCode) ∧ unpackBits tm p vb cnt = throwErr e) := by
  cases h : unpackBits tm p vb cnt with
  | ok out => exact .inl ⟨out, rfl, unpackBits_length h⟩
  | error x =>
    rw [unpackBits_eq, if_neg (by simp [hb])] at h
    rcases walkBits_error h with rfl | rfl
    · exact .inr ⟨_, .inl rfl, rfl⟩
    · exact .inr ⟨_, .inr rfl, rfl⟩

theorem unpackSteps_outcome (s : State) : UnpackOutcome s (unpackSteps s) := by
  unfold unpackSteps
  by_cases hf : s.inputFits
  · rw [if_neg (not_not_intro hf)]
    by_cases hr : s.resultFits s.symcnt.toNat
    · rw [if_neg (not_not_intro hr)]
      by_cases hp : s.phase = .treeReady
      · rw [if_neg (not_not_intro hp)]
        cases hb : badValidBits s.ilen.toNat s.vbits.toNat with
        | true => rw [if_pos rfl]; exact .badCount hf hr hp hb
        | false =>
          rw [if_neg (by decide)]
          rcases prefixOf_cases s .ibuf s.ilen.toNat with ⟨p, -, hl, hh⟩ | ⟨i, he, hi, hn⟩
          · rcases unpackBits_cases (tm := s.tm) (p := p) (cnt := s.symcnt.toNat) (hl ▸ hb) with
              ⟨out, hw, ho⟩ | ⟨e, he, hw⟩
            · rw [unpackInput_ok (s := s.clearWork.setPhase .transcoding) hl.symm hh hw]
              exact .walked hf hr hp hb p hl.symm hh out hw ho
            · rw [unpackInput_raise (s := s.clearWork.setPhase .transcoding) hl.symm hh hw]
              exact .walkFailed hf hr hp hb p hl.symm hh e he hw
          · have : (s.clearWork.setPhase .transcoding).unpackInput = refuseCmd (.unwrittenByte .ibuf i) := by
              rw [State.unpackInput]
              change (s.prefixOf .ibuf s.ilen.toNat) >>= _ = _
              rw [he]; rfl
            rw [this]; exact .unwritten hf hr hp i hi hn
      · rw [if_pos hp]; exact .illegal hf hr hp
    · rw [if_pos hr]; exact .resultTooLong hr
  · rw [if_pos hf]; exact .inputTooLong hf

/-- Everything `ENCODE` can do after its issue. -/
inductive EncodeOutcome (s : State) : Except Stop State → Prop where
  | inputTooLong (h : ¬s.inputFits) : EncodeOutcome s (refuseCmd .inputBeyondCapacity)
  | empty (hf : s.inputFits) (h0 : s.ilen.toNat = 0) : EncodeOutcome s (throwErr .emptyInput)
  | malformed (hf : s.inputFits) (h0 : 0 < s.ilen.toNat) (h : Config.tbufCap < s.tlen.toNat ∨ ∃ d : List Byte,
      s.tlen.toNat = d.length ∧ Memory.holds s.tbuf d ∧ ¬∃ t : Tree, t.distinct ∧ d = t.ser) :
      EncodeOutcome s (throwErr .malformedContainer)
  | unwrittenTbuf (hf : s.inputFits) (h0 : 0 < s.ilen.toNat) (i : Nat) (hi : i < s.tlen.toNat)
      (hc : s.tlen.toNat ≤ Config.tbufCap) (hr : Memory.read s.tbuf i = none) :
      EncodeOutcome s (refuseCmd (.unwrittenByte .tbuf i))
  | unwrittenIbuf (hf : s.inputFits) (i : Nat) (hi : i < s.ilen.toNat) (hr : Memory.read s.ibuf i = none) :
      EncodeOutcome s (refuseCmd (.unwrittenByte .ibuf i))
  | missing (hf : s.inputFits) (h0 : 0 < s.ilen.toNat) (t : Tree) (ht : t.distinct)
      (hl : s.tlen.toNat = t.ser.length) (hh : Memory.holds s.tbuf t.ser) (d : List Byte)
      (hdl : s.ilen.toNat = d.length) (hd : Memory.holds s.ibuf d) (hm : ∃ x ∈ d, x ∉ t.symbols) :
      EncodeOutcome s (throwErr .missingCode)
  | resultTooLong (hf : s.inputFits) (h0 : 0 < s.ilen.toNat) (t : Tree) (ht : t.distinct)
      (hl : s.tlen.toNat = t.ser.length) (hh : Memory.holds s.tbuf t.ser) (d : List Byte)
      (hdl : s.ilen.toNat = d.length) (hd : Memory.holds s.ibuf d) (hm : ∀ x ∈ d, x ∈ t.symbols)
      (hr : ¬s.resultFits (5 + t.ser.length + ((t.stream d).length + 7) / 8)) :
      EncodeOutcome s (refuseCmd .resultBeyondCapacity)
  | framed (hf : s.inputFits) (h0 : 0 < s.ilen.toNat) (t : Tree) (ht : t.distinct)
      (hl : s.tlen.toNat = t.ser.length) (hh : Memory.holds s.tbuf t.ser) (d : List Byte)
      (hdl : s.ilen.toNat = d.length) (hd : Memory.holds s.ibuf d) (hm : ∀ x ∈ d, x ∈ t.symbols)
      (hr : s.resultFits (5 + t.ser.length + ((t.stream d).length + 7) / 8)) :
      EncodeOutcome s (.ok (((((s.startCall.setPhase .header).loadTree (t.records 0)
        (deriveCodes (t.records 0))).setPhase .transcoding).putResult (frameContainer s.ilen
          (lastValidBits (t.stream d).length) t.ser (packedBytes (t.stream d)))).putPackCounts
          (lastValidBits (t.stream d).length)).endCall)

theorem encodeSteps_outcome (s : State) : EncodeOutcome s (encodeSteps s) := by
  unfold encodeSteps
  by_cases hf : s.inputFits
  · rw [if_neg (not_not_intro hf)]
    by_cases h0 : s.ilen.toNat = 0
    · rw [if_pos h0]; exact .empty hf h0
    · rw [if_neg h0]
      have h0 : 0 < s.ilen.toNat := by omega
      rcases loadTbuf_cases (s.startCall.setPhase .header) with ⟨t, ht, hl, hh, he⟩ | ⟨he, h⟩ | ⟨i, he, hi, hc, hr⟩
      · rw [encodeHeader_loaded he]
        have hcode := code_deriveCodes t ht
        have hst := fun d => codeStream_eq_stream hcode d
        have hmem : ∀ d : List Byte, (∀ x ∈ d, ((deriveCodes (t.records 0)).code x).isSome) ↔ ∀ x ∈ d, x ∈ t.symbols :=
          fun d => by rw [← missesCode_eq_false_iff, missesCode_tree hcode]
        generalize hs' : ((s.startCall.setPhase .header).loadTree (t.records 0)
          (deriveCodes (t.records 0))).setPhase .transcoding = s'
        have e1 : s'.ilen = s.ilen := by subst hs'; rfl
        have e2 : s'.ibuf = s.ibuf := by subst hs'; rfl
        have e3 : s'.ct = deriveCodes (t.records 0) := by subst hs'; rfl
        have e4 : s'.caps = s.caps := by subst hs'; rfl
        rcases prefixOf_cases s .ibuf s.ilen.toNat with ⟨d, -, hdl, hd⟩ | ⟨i, he, hi, hr⟩
        · by_cases hm : ∀ x ∈ d, x ∈ t.symbols
          · have hc : ∀ x ∈ d, (s'.ct.code x).isSome := by rw [e3]; exact (hmem d).mpr hm
            by_cases hr : s.resultFits (5 + t.ser.length + ((t.stream d).length + 7) / 8)
            · rw [encodeInput_ok (s := s') (by rw [e1]; exact hdl.symm) (by rw [e2]; exact hd) hc
                (by rw [e3, hst, e4]; exact hr)]
              rw [e1, e3, hst]
              subst hs'
              exact .framed hf h0 t ht hl hh d hdl.symm hd hm hr
            · have : s'.encodeInput t.ser = refuseCmd .resultBeyondCapacity := by
                rw [State.encodeInput, e1, ← hdl, prefixOf_ok (s := s') (b := .ibuf) (by change Memory.holds s'.ibuf d; rw [e2]; exact hd)]
                change packSymbols s'.ct d >>= _ = _
                rw [packSymbols_ok hc]
                change s'.admitResult _ >>= _ = _
                rw [admitResult_refused (by rw [frameContainer_length, packedBytes_length, e3, hst, e4]; exact hr)]
                rfl
              rw [this]; exact .resultTooLong hf h0 t ht hl hh d hdl.symm hd hm hr
          · have hm' : ∃ x ∈ d, x ∉ t.symbols := by simpa using hm
            rw [encodeInput_missing (s := s') (d := d) (by rw [e1]; exact hdl.symm) (by rw [e2]; exact hd)]
            · exact .missing hf h0 t ht hl hh d hdl.symm hd hm'
            · obtain ⟨x, hx, hn⟩ := hm'
              exact ⟨x, hx, by rw [e3, hcode]; exact (t.lookup_codes_none_iff x).mpr hn⟩
        · have : s'.encodeInput t.ser = refuseCmd (.unwrittenByte .ibuf i) := by
            rw [State.encodeInput, e1, prefixOf_congr (t := s) (b := .ibuf) e2, he]; rfl
          rw [this]; exact .unwrittenIbuf hf i hi hr
      · rw [encodeHeader_malformed he]; exact .malformed hf h0 h
      · rw [State.encodeHeader, he]; exact .unwrittenTbuf hf h0 i hi hc hr
  · rw [if_pos hf]; exact .inputTooLong hf

/-- The bytes of a container with a well-formed header and description (R95). -/
def containerBytes (c0 c1 c2 c3 vb : Byte) (t : Tree) (p : List Byte) : List Byte :=
  c0 :: c1 :: c2 :: c3 :: vb :: (t.ser ++ p)

/-- Everything `DECODE` can do after its issue. -/
inductive DecodeOutcome (s : State) : Except Stop State → Prop where
  | inputTooLong (h : ¬s.inputFits) : DecodeOutcome s (refuseCmd .inputBeyondCapacity)
  | tooShort (hf : s.inputFits) (h5 : s.ilen.toNat < 5) : DecodeOutcome s (throwErr .malformedContainer)
  | unwritten (hf : s.inputFits) (h5 : 5 ≤ s.ilen.toNat) (i : Nat) (hi : i < s.ilen.toNat) (hr : Memory.read s.ibuf i = none) :
      DecodeOutcome s (refuseCmd (.unwrittenByte .ibuf i))
  | malformed (hf : s.inputFits) (h5 : 5 ≤ s.ilen.toNat) (c : List Byte) (hl : s.ilen.toNat = c.length)
      (hh : Memory.holds s.ibuf c) (he : parseContainer c = throwErr .malformedContainer) :
      DecodeOutcome s (throwErr .malformedContainer)
  | resultTooLong (hf : s.inputFits) (c0 c1 c2 c3 vb : Byte) (t : Tree) (ht : t.distinct) (p : List Byte)
      (hl : s.ilen.toNat = (containerBytes c0 c1 c2 c3 vb t p).length)
      (hh : Memory.holds s.ibuf (containerBytes c0 c1 c2 c3 vb t p)) (hb : badValidBits p.length vb.toNat = false)
      (hr : ¬s.resultFits (originalLength c0 c1 c2 c3)) : DecodeOutcome s (refuseCmd .resultBeyondCapacity)
  | walkFailed (hf : s.inputFits) (c0 c1 c2 c3 vb : Byte) (t : Tree) (ht : t.distinct) (p : List Byte)
      (hl : s.ilen.toNat = (containerBytes c0 c1 c2 c3 vb t p).length)
      (hh : Memory.holds s.ibuf (containerBytes c0 c1 c2 c3 vb t p)) (hb : badValidBits p.length vb.toNat = false)
      (hr : s.resultFits (originalLength c0 c1 c2 c3)) (e : ErrCode) (he : e = .truncatedStream ∨ e = .corruptCode)
      (hw : unpackBits (t.records 0) p vb.toNat (originalLength c0 c1 c2 c3) = throwErr e) :
      DecodeOutcome s (throwErr e)
  | walked (hf : s.inputFits) (c0 c1 c2 c3 vb : Byte) (t : Tree) (ht : t.distinct) (p : List Byte)
      (hl : s.ilen.toNat = (containerBytes c0 c1 c2 c3 vb t p).length)
      (hh : Memory.holds s.ibuf (containerBytes c0 c1 c2 c3 vb t p)) (hb : badValidBits p.length vb.toNat = false)
      (hr : s.resultFits (originalLength c0 c1 c2 c3)) (out : List Byte)
      (hw : unpackBits (t.records 0) p vb.toNat (originalLength c0 c1 c2 c3) = .ok out)
      (ho : out.length = originalLength c0 c1 c2 c3) :
      DecodeOutcome s (.ok ((((s.startCall.setPhase .header).loadTree (t.records 0)
        (deriveCodes (t.records 0))).setPhase .transcoding).putResult out).endCall)

theorem decodeSteps_outcome (s : State) : DecodeOutcome s (decodeSteps s) := by
  unfold decodeSteps
  by_cases hf : s.inputFits
  · rw [if_neg (not_not_intro hf)]
    by_cases h5 : s.ilen.toNat < Config.headerSize
    · rw [if_pos h5]; exact .tooShort hf h5
    · rw [if_neg h5]
      rcases prefixOf_cases s .ibuf s.ilen.toNat with ⟨c, -, hl, hh⟩ | ⟨i, he, hi, hr⟩
      · rw [decodeHeader_parsed (s := s.startCall.setPhase .header) hl.symm hh]
        cases hk : parseContainer c with
        | error x =>
          obtain rfl := parseContainer_error hk
          exact .malformed hf (Nat.le_of_not_lt h5) c hl.symm hh hk
        | ok k =>
          obtain ⟨c0, c1, c2, c3, c4, t, ht, rfl, hb, hw, hv, htm, hct⟩ := parseContainer_sound hk
          change DecodeOutcome s (State.decodeInput _ k)
          rw [htm, hct]
          generalize hs' : ((s.startCall.setPhase .header).loadTree (t.records 0)
            (deriveCodes (t.records 0))).setPhase .transcoding = s'
          have e1 : s'.caps = s.caps := by subst hs'; rfl
          have e2 : s'.tm = t.records 0 := by subst hs'; rfl
          by_cases hr : s.resultFits (originalLength c0 c1 c2 c3)
          · have hr' : k.wCnt ≤ s'.caps.obuf.val := by rw [hw, e1]; exact hr
            rcases unpackBits_cases (tm := t.records 0) (p := k.packed) (cnt := originalLength c0 c1 c2 c3) hb with
              ⟨out, h, ho⟩ | ⟨e, he, h⟩
            · rw [decodeInput_ok (out := out) hr' (by rw [e2, hw, hv]; exact h)]
              subst hs'
              exact .walked hf c0 c1 c2 c3 c4 t ht k.packed hl.symm hh hb hr out h ho
            · rw [decodeInput_raise (e := e) hr' (by rw [e2, hw, hv]; exact h)]
              exact .walkFailed hf c0 c1 c2 c3 c4 t ht k.packed hl.symm hh hb hr e he h
          · have : s'.decodeInput k = refuseCmd .resultBeyondCapacity := by
              rw [State.decodeInput, admitResult_refused (by rw [hw, e1]; exact hr)]; rfl
            rw [this]
            exact .resultTooLong hf c0 c1 c2 c3 c4 t ht k.packed hl.symm hh hb hr
      · have : (s.startCall.setPhase .header).decodeHeader = refuseCmd (.unwrittenByte .ibuf i) := by
          rw [State.decodeHeader]
          change s.prefixOf .ibuf s.ilen.toNat >>= _ = _
          rw [he]; rfl
        rw [this]; exact .unwritten hf (Nat.le_of_not_lt h5) i hi hr
  · rw [if_pos hf]; exact .inputTooLong hf

/-- Everything a command but `NOP` can do when it answers a next state: raise an error, reset the call, load a tree, or
write a result (with `VBITS` and `SYMCNT` for `PACK` and `ENCODE`) and end the call. In the last two `x` is the state as
the result is written. -/
theorem exec_next_cases {i : Instr} {s u : State} (hi : i ≠ .nop) (h : exec i s = .next u) :
    (∃ e, u = s.issue.raise e) ∨
    (i = .clear ∧ u = (s.issue.startCall.setPhase .start).complete) ∨
    (i = .ldtree ∧ ∃ t : Tree, t.distinct ∧ s.tlen.toNat = t.ser.length ∧ Memory.holds s.tbuf t.ser ∧
      u = ((s.issue.startCall.setPhase .header).loadTree (t.records 0)
        (deriveCodes (t.records 0))).scrambleWork.complete) ∨
    (i ∈ [Instr.pack, .encode] ∧ ∃ (r : List Byte) (vb : Nat) (x : State), r.length ≤ s.caps.obuf.val ∧
      x.busy = true ∧ x.err = none ∧ x.obuf = [] ∧ s.KeepsInputs x ∧ x.ibuf = s.ibuf ∧ x.tbuf = s.tbuf ∧
      u = ((x.putResult r).putPackCounts vb).endCall.complete) ∨
    (i ∈ [Instr.unpack, .decode] ∧ ∃ (r : List Byte) (x : State), r.length ≤ s.caps.obuf.val ∧
      x.busy = true ∧ x.err = none ∧ x.obuf = [] ∧ s.KeepsInputs x ∧ x.ibuf = s.ibuf ∧ x.tbuf = s.tbuf ∧
      x.vbits = s.vbits ∧ x.symcnt = s.symcnt ∧ u = (x.putResult r).endCall.complete) := by
  cases i with
  | nop => exact absurd rfl hi
  | clear => cases h; exact .inr (.inl ⟨rfl, rfl⟩)
  | ldtree =>
    rcases runCommand_next h with ⟨t, hk, rfl⟩ | ⟨e, hk, rfl⟩
    · have := ldtreeSteps_outcome s.issue
      rw [hk] at this
      cases this
      exact .inr (.inr (.inl ⟨rfl, _, ‹_›, ‹_›, ‹_›, rfl⟩))
    · exact .inl ⟨e, rfl⟩
  | pack =>
    rcases runCommand_next h with ⟨t, hk, rfl⟩ | ⟨e, hk, rfl⟩
    · have := packSteps_outcome s.issue
      rw [hk] at this
      cases this with
      | packed _ _ _ d hl hh hm hr =>
        exact .inr (.inr (.inr (.inl ⟨by simp, _, _, s.issue.clearWork.setPhase .transcoding,
          by rw [packedBytes_length]; exact hr, rfl, rfl, rfl, .of_eq rfl rfl rfl rfl rfl rfl rfl, rfl, rfl, rfl⟩)))
    · exact .inl ⟨e, rfl⟩
  | unpack =>
    rcases runCommand_next h with ⟨t, hk, rfl⟩ | ⟨e, hk, rfl⟩
    · have := unpackSteps_outcome s.issue
      rw [hk] at this
      cases this with
      | walked hf hr _ _ _ _ _ _ _ ho =>
        exact .inr (.inr (.inr (.inr ⟨by simp, _, s.issue.clearWork.setPhase .transcoding, by rw [ho]; exact hr, rfl,
          rfl, rfl, .of_eq rfl rfl rfl rfl rfl rfl rfl, rfl, rfl, rfl, rfl, rfl⟩)))
    · exact .inl ⟨e, rfl⟩
  | encode =>
    rcases runCommand_next h with ⟨t, hk, rfl⟩ | ⟨e, hk, rfl⟩
    · have := encodeSteps_outcome s.issue
      rw [hk] at this
      cases this with
      | framed hf h0 t ht hl hh d hdl hd hm hr =>
        exact .inr (.inr (.inr (.inl ⟨by simp, _, _, ((s.issue.startCall.setPhase .header).loadTree (t.records 0)
          (deriveCodes (t.records 0))).setPhase .transcoding, by rw [frameContainer_length, packedBytes_length]; exact hr,
          rfl, rfl, rfl, .of_eq rfl rfl rfl rfl rfl rfl rfl, rfl, rfl, rfl⟩)))
    · exact .inl ⟨e, rfl⟩
  | decode =>
    rcases runCommand_next h with ⟨t, hk, rfl⟩ | ⟨e, hk, rfl⟩
    · have := decodeSteps_outcome s.issue
      rw [hk] at this
      cases this with
      | walked hf c0 c1 c2 c3 vb t ht p hl hh hb hr out hw ho =>
        exact .inr (.inr (.inr (.inr ⟨by simp, _, ((s.issue.startCall.setPhase .header).loadTree (t.records 0)
          (deriveCodes (t.records 0))).setPhase .transcoding, by rw [ho]; exact hr, rfl, rfl, rfl,
          .of_eq rfl rfl rfl rfl rfl rfl rfl, rfl, rfl, rfl, rfl, rfl⟩)))
    · exact .inl ⟨e, rfl⟩

end Sys2Proof.Machine
end

