-- ==== Sys2Proof/Laws/Invariant.lean ====
section
/-! SUPPORT. The parts of a step that keep the invariant of Safety.lean, one lemma each. -/

namespace Sys2Proof.Machine

/-- The invariant looks only at these fields. -/
theorem State.Inv.congr {s t : State} (h : s.Inv) (h1 : t.busy = s.busy) (h2 : t.err = s.err) (h3 : t.phase = s.phase)
    (h4 : t.olen = s.olen) (h5 : t.tm = s.tm) (h6 : t.ct = s.ct) (h7 : t.ibuf = s.ibuf) (h8 : t.tbuf = s.tbuf)
    (h9 : t.obuf = s.obuf) (h10 : t.caps = s.caps) : t.Inv where
  idle := by rw [h1]; exact h.idle
  phase := by rw [h3]; exact h.phase
  ibufWf := by rw [h7]; exact h.ibufWf
  tbufWf := by rw [h8]; exact h.tbufWf
  obufWf := by rw [h9]; exact h.obufWf
  ibufCap := by rw [h7, h10]; exact h.ibufCap
  tbufCap := by rw [h8]; exact h.tbufCap
  obufCap := by rw [h4, h10]; exact h.obufCap
  obufOlen := by rw [h9, h4]; exact h.obufOlen
  ready := by
    rw [h3]
    intro hp
    obtain ⟨t', ht, hh⟩ := h.ready hp
    exact ⟨t', ht, by rw [h5]; exact hh.tm, by rw [h6]; exact hh.ct⟩
  noTree := by
    rw [h3]
    intro hp
    obtain ⟨ha, hb⟩ := h.noTree hp
    exact ⟨by rw [h5]; exact ha, by rw [h6]; exact hb⟩
  errDone := by rw [h3, h2, h4]; exact h.errDone
  errOlen := by rw [h2, h4]; exact h.errOlen

theorem Memory.read_nil_isSome (i : Nat) : (Memory.read [] i).isSome ↔ i < (0 : BitVec 32).toNat := by
  simp [Memory.read]

theorem treeInvalid_empty {s : State} (h1 : s.tm = []) (h2 : s.ct = CodeTable.empty) : s.treeInvalid :=
  ⟨h1, fun sym => by rw [h2]; exact CodeTable.code_empty sym⟩

/-- A state with no result, no loaded tree and the buffers of an invariant state. -/
theorem State.Inv.emptied {s t : State} (h : s.Inv) (h1 : t.busy = false) (h2 : t.phase = .start ∧ t.err = none ∨ t.phase = .done)
    (h4 : t.olen = 0) (h5 : t.tm = []) (h6 : t.ct = CodeTable.empty) (h7 : t.ibuf = s.ibuf) (h8 : t.tbuf = s.tbuf)
    (h9 : t.obuf = []) (h10 : t.caps = s.caps) : t.Inv where
  idle := h1
  phase := by rcases h2 with ⟨h, -⟩ | h <;> simp [h]
  ibufWf := by rw [h7]; exact h.ibufWf
  tbufWf := by rw [h8]; exact h.tbufWf
  obufWf := by rw [h9]; exact .nil
  ibufCap := by rw [h7, h10]; exact h.ibufCap
  tbufCap := by rw [h8]; exact h.tbufCap
  obufCap := by rw [h4]; exact Nat.zero_le _
  obufOlen := by rw [h9, h4]; exact Memory.read_nil_isSome
  ready := by rcases h2 with ⟨h, -⟩ | h <;> simp [h]
  noTree := fun _ => treeInvalid_empty h5 h6
  errDone := by rcases h2 with ⟨h, he⟩ | h <;> simp_all
  errOlen := fun _ => h4

/-- A state at the end of a successful transcoding with result `r`. -/
theorem State.Inv.produced {s t : State} {r : List Byte} (h : s.Inv) (hr : r.length ≤ s.caps.obuf.val) (h1 : t.busy = false)
    (h2 : t.err = none) (h3 : t.phase = .done) (h4 : t.olen = BitVec.ofNat 32 r.length) (h5 : t.tm = [])
    (h6 : t.ct = CodeTable.empty) (h7 : t.ibuf = s.ibuf) (h8 : t.tbuf = s.tbuf)
    (h9 : t.obuf = Memory.writeBytes [] 0 r) (h10 : t.caps = s.caps) : t.Inv := by
  have hl : t.olen.toNat = r.length := by
    have := s.caps.obuf.isLt
    rw [h4, BitVec.toNat_ofNat, Nat.mod_eq_of_lt (by omega)]
  exact {
    idle := h1
    phase := by simp [h3]
    ibufWf := by rw [h7]; exact h.ibufWf
    tbufWf := by rw [h8]; exact h.tbufWf
    obufWf := by rw [h9]; exact Memory.wf_writeBytes .nil 0 r
    ibufCap := by rw [h7, h10]; exact h.ibufCap
    tbufCap := by rw [h8]; exact h.tbufCap
    obufCap := by rw [hl, h10]; exact hr
    obufOlen := by rw [h9, hl]; intro i; rw [Memory.read_writeBytes_nil]; simp
    ready := by simp [h3]
    noTree := fun _ => treeInvalid_empty h5 h6
    errDone := by simp [h3]
    errOlen := by simp [h2] }

/-- A state with a tree loaded by `LDTREE`. -/
theorem State.Inv.loaded {s t : State} {tree : Tree} (h : s.Inv) (ht : tree.distinct) (h1 : t.busy = false) (h2 : t.err = none)
    (h3 : t.phase = .treeReady) (h4 : t.olen = 0) (h5 : t.tm = tree.records 0) (h6 : t.ct = deriveCodes (tree.records 0))
    (h7 : t.ibuf = s.ibuf) (h8 : t.tbuf = s.tbuf) (h9 : t.obuf = []) (h10 : t.caps = s.caps) : t.Inv where
  idle := h1
  phase := by simp [h3]
  ibufWf := by rw [h7]; exact h.ibufWf
  tbufWf := by rw [h8]; exact h.tbufWf
  obufWf := by rw [h9]; exact .nil
  ibufCap := by rw [h7, h10]; exact h.ibufCap
  tbufCap := by rw [h8]; exact h.tbufCap
  obufCap := by rw [h4]; exact Nat.zero_le _
  obufOlen := by rw [h9, h4]; exact Memory.read_nil_isSome
  ready := fun _ => ⟨tree, ht, h5, by rw [h6]; exact code_deriveCodes tree ht⟩
  noTree := fun hn => absurd h3 hn
  errDone := fun _ => ⟨h2, h4⟩
  errOlen := fun _ => h4

/-- Every command keeps the invariant. -/
theorem exec_keeps_inv {i : Instr} {s u : State} (hs : s.Inv) (h : exec i s = .next u) : u.Inv := by
  by_cases hi : i = .nop
  · subst hi; cases h; exact hs
  rcases exec_next_cases hi h with ⟨e, rfl⟩ | ⟨-, rfl⟩ | ⟨-, t, ht, -, -, rfl⟩ |
      ⟨-, r, vb, x, hr, -, he, ho, hk, h1, h2, rfl⟩ | ⟨-, r, x, hr, -, he, ho, hk, h1, h2, -, -, rfl⟩
  · exact hs.emptied rfl (.inr rfl) rfl rfl rfl rfl rfl rfl rfl
  · exact hs.emptied rfl (.inl ⟨rfl, rfl⟩) rfl rfl rfl rfl rfl rfl rfl
  · exact hs.loaded ht rfl rfl rfl rfl rfl rfl rfl rfl rfl rfl
  · refine hs.produced hr rfl he rfl rfl rfl rfl h1 h2 ?_ hk.caps
    change Memory.writeBytes x.obuf 0 r = _; rw [ho]
  · refine hs.produced hr rfl he rfl rfl rfl rfl h1 h2 ?_ hk.caps
    change Memory.writeBytes x.obuf 0 r = _; rw [ho]

/-- A reserved word keeps it too. -/
theorem execReserved_keeps_inv {s u : State} (hs : s.Inv) (h : execReserved s = .next u) : u.Inv := by
  cases h; exact hs.emptied rfl (.inr rfl) rfl rfl rfl rfl rfl rfl rfl

/-- Hardware reset gives an invariant state from any state. -/
theorem hardReset_inv (s : State) : s.hardReset.Inv where
  idle := rfl
  phase := .inl rfl
  ibufWf := .nil
  tbufWf := .nil
  obufWf := .nil
  ibufCap := by intro c hc; cases hc
  tbufCap := by intro c hc; cases hc
  obufCap := Nat.zero_le _
  obufOlen := Memory.read_nil_isSome
  ready := by intro h; cases h
  noTree := fun _ => treeInvalid_empty rfl rfl
  errDone := fun _ => ⟨rfl, rfl⟩
  errOlen := fun _ => rfl

end Sys2Proof.Machine
end

