-- ==== Sys2Proof/Laws/MicroParse.lean ====
section
/-! SUPPORT. The parse node by node: a subtree read from any point, and a failed parse from any point (R158). -/

namespace Sys2Proof.Machine

/-- What is left of a run after one micro-step. -/
def Micro.after {α : Type} (f : α → Micro α) (fuel : Nat) : Micro α → Option (Option ErrCode × α)
  | .more y => Micro.run f fuel y
  | .done y => some (none, y)
  | .raised e y => some (some e, y)

theorem Micro.run_succ {α : Type} (f : α → Micro α) (fuel : Nat) (x : α) :
    Micro.run f (fuel + 1) x = Micro.after f fuel (f x) := by
  rw [Micro.run]; cases f x <;> rfl

/-- A subtree is complete: the parse is over, or its parent goes on to the right child. -/
def parseNext (w : Work) (tm : TreeMem) : Micro (Work × TreeMem) :=
  match w.stack with
  | [] => .done (w, tm)
  | m :: rest => .more ({ w with stack := rest }, tm.setRight m tm.length)

/-- The working registers after the description of `t` has been read. -/
def Work.past (w : Work) (t : Tree) : Work :=
  { w with rp := w.rp + t.ser.length, seen := w.seen.addAll t.symbols }

theorem getElem?_of_drop {buf : List Byte} {n : Nat} {v : Byte} {bs : List Byte} (h : buf.drop n = v :: bs) :
    buf[n]? = some v := by
  have := congrArg (·[0]?) h; simpa using this

theorem drop_succ_of_drop {buf : List Byte} {n : Nat} {v : Byte} {bs : List Byte} (h : buf.drop n = v :: bs) :
    buf.drop (n + 1) = bs := by rw [← List.drop_drop, h]; rfl

theorem getElem?_of_drop_nil {buf : List Byte} {n : Nat} (h : buf.drop n = []) : buf[n]? = none := by
  rw [List.drop_eq_nil_iff] at h; simpa using h

theorem parseMicro_leaf {buf : List Byte} {w : Work} {tm : TreeMem} {s : Byte} {bs : List Byte}
    (h : buf.drop w.rp = 0x01#8 :: s :: bs) : parseMicro buf (w, tm) =
      if w.seen.has s then .raised .malformedContainer (w, tm)
      else parseNext { w with rp := w.rp + 2, seen := w.seen.add s } (tm ++ [.leaf s]) := by
  simp only [parseMicro, getElem?_of_drop h, getElem?_of_drop (drop_succ_of_drop h), if_true]
  rfl

theorem parseMicro_internal {buf : List Byte} {w : Work} {tm : TreeMem} {bs : List Byte}
    (h : buf.drop w.rp = 0x00#8 :: bs) : parseMicro buf (w, tm) =
      .more ({ w with rp := w.rp + 1, stack := tm.length :: w.stack }, tm ++ [.internal (tm.length + 1) 0]) := by
  simp only [parseMicro, getElem?_of_drop h]
  rw [if_neg (by decide), if_pos trivial]

theorem setRight_records (tm : TreeMem) (l : Tree) (k : Nat) :
    TreeMem.setRight ((tm ++ [.internal (tm.length + 1) 0]) ++ l.records (tm.length + 1)) tm.length k =
      (tm ++ [.internal (tm.length + 1) k]) ++ l.records (tm.length + 1) := by
  simp [TreeMem.setRight]

/-- A subtree's description, from any point of the parse. -/
theorem parseMicro_ser (buf : List Byte) (t : Tree) : ∀ (w : Work) (tm : TreeMem) (rest : List Byte) (fuel : Nat),
    buf.drop w.rp = t.ser ++ rest → t.distinct → (∀ s ∈ t.symbols, w.seen.has s = false) →
    Micro.run (parseMicro buf) (t.size + fuel) (w, tm) =
      Micro.after (parseMicro buf) fuel (parseNext (w.past t) (tm ++ t.records tm.length)) := by
  induction t with
  | leaf s =>
    intro w tm rest fuel hb _ hs
    have h := hs s (by simp [Tree.symbols])
    rw [Tree.size, Nat.add_comm, Micro.run_succ, parseMicro_leaf hb, h]
    rfl
  | internal l r ihl ihr =>
    intro w tm rest fuel hb hd hs
    have hd' := List.nodup_append.mp hd
    simp only [Tree.ser, List.cons_append, List.append_assoc] at hb
    have e : (Tree.internal l r).size + fuel = l.size + (r.size + fuel) + 1 := by simp [Tree.size]; omega
    rw [e, Micro.run_succ, parseMicro_internal hb]
    have hl := ihl { w with rp := w.rp + 1, stack := tm.length :: w.stack } (tm ++ [.internal (tm.length + 1) 0])
      (r.ser ++ rest) (r.size + fuel) (drop_succ_of_drop hb) hd'.1 (fun s h => hs s (by simp [Tree.symbols, h]))
    have e1 : (tm ++ [Node.internal (tm.length + 1) 0]).length = tm.length + 1 := by simp
    rw [e1] at hl
    refine hl.trans ?_
    have e2 : ((tm ++ [Node.internal (tm.length + 1) 0]) ++ l.records (tm.length + 1)).length = tm.length + 1 + l.size := by
      rw [List.length_append, e1, Tree.records_length]
    change Micro.run (parseMicro buf) (r.size + fuel) (_, TreeMem.setRight _ tm.length _) = _
    rw [e2, setRight_records]
    have e3 : ((tm ++ [Node.internal (tm.length + 1) (tm.length + 1 + l.size)]) ++ l.records (tm.length + 1)).length =
        tm.length + 1 + l.size := by
      rw [List.length_append, Tree.records_length]; simp
    rw [ihr _ _ rest fuel ?_ hd'.2.1 ?_, e3]
    · have e4 : ((tm ++ [Node.internal (tm.length + 1) (tm.length + 1 + l.size)]) ++ l.records (tm.length + 1)) ++
          r.records (tm.length + 1 + l.size) = tm ++ (Tree.internal l r).records tm.length := by simp [Tree.records]
      rw [e4]
      congr 2
      simp only [Work.past, Tree.symbols, SeenMap.addAll_append, Tree.ser, List.length_cons, List.length_append]
      congr 1
      omega
    · change buf.drop (w.rp + 1 + l.ser.length) = _
      rw [← List.drop_drop, drop_succ_of_drop hb, List.drop_left]
    · intro s h
      change (w.seen.addAll l.symbols).has s = false
      rw [SeenMap.has_addAll, hs s (by simp [Tree.symbols, h])]
      have : s ∉ l.symbols := fun h' => hd'.2.2 s h' s h rfl
      simp [this]

theorem Tree.size_le_ser_length (t : Tree) : t.size ≤ t.ser.length := by
  have := t.size_add_one; have := t.ser_length; omega

/-- A parse that fails, from any point of the parse. -/
theorem parseMicro_malformed (buf : List Byte) : ∀ (n : Nat) (bs : List Byte) (tm : TreeMem) (seen : SeenMap) (x : Stop),
    parseNode n bs tm seen = .error x → bs.length < n → ∀ (w : Work) (tm' : TreeMem) (fuel : Nat),
    buf.drop w.rp = bs → w.seen = seen → bs.length < fuel →
    (Micro.run (parseMicro buf) fuel (w, tm')).map Prod.fst = some (some .malformedContainer) := by
  intro n
  induction n with
  | zero => intro bs tm seen x h hn; omega
  | succ n ih =>
    intro bs tm seen x h hn w tm' fuel hb hs hf
    obtain ⟨fuel, rfl⟩ : ∃ k, fuel = k + 1 := ⟨fuel - 1, by omega⟩
    rw [Micro.run_succ]
    cases bs with
    | nil => simp only [parseMicro, getElem?_of_drop_nil hb]; rfl
    | cons tag bs =>
      by_cases h1 : tag = 0x01#8
      · subst h1
        cases bs with
        | nil =>
          simp only [parseMicro, getElem?_of_drop hb, getElem?_of_drop_nil (drop_succ_of_drop hb), if_true]; rfl
        | cons s bs =>
          rw [parseNode_leaf] at h
          rw [parseMicro_leaf hb, hs]
          cases hh : seen.has s with
          | true => rfl
          | false => rw [hh] at h; cases h
      · by_cases h0 : tag = 0x00#8
        · subst h0
          rw [parseMicro_internal hb]
          rw [parseNode_internal] at h
          simp only [List.length_cons] at hn hf
          cases ha : parseNode n bs (tm ++ [.internal 0 0]) seen with
          | error y => exact ih _ _ _ _ ha (by omega) _ _ fuel (drop_succ_of_drop hb) hs (by omega)
          | ok y =>
            obtain ⟨a, rest1, tm1, seen1⟩ := y
            rw [ha] at h
            change (do let y ← parseNode n rest1 tm1 seen1; _) = _ at h
            obtain ⟨l, rfl, dl, sl, -, -, rfl⟩ := parseNode_sound _ _ _ _ _ _ _ _ ha
            cases hc : parseNode n rest1 tm1 (seen.addAll l.symbols) with
            | ok y => rw [hc] at h; cases h
            | error y =>
              have hsz := l.size_le_ser_length
              simp only [List.length_append] at hn hf
              obtain ⟨k, rfl⟩ : ∃ k, fuel = l.size + k := ⟨fuel - l.size, by omega⟩
              refine (congrArg (Option.map Prod.fst) (parseMicro_ser buf l _ _ rest1 k (drop_succ_of_drop hb) dl
                (by intro s hh; exact hs ▸ sl s hh))).trans ?_
              refine ih _ _ _ _ hc (by omega) _ _ k ?_ ?_ (by omega)
              · change buf.drop (w.rp + 1 + l.ser.length) = _
                rw [← List.drop_drop, drop_succ_of_drop hb, List.drop_left]
              · change w.seen.addAll l.symbols = _; rw [hs]
        · simp only [parseMicro, getElem?_of_drop hb]
          rw [if_neg h1, if_neg h0]; rfl

end Sys2Proof.Machine
end

