-- ==== Sys2Proof/Laws/MicroDerive.lean ====
section
/-! SUPPORT. The table derivation node by node: a subtree visited from any point (R161, R40). -/

namespace Sys2Proof.Machine

/-- A subtree has been visited: the derivation is over, or goes on at the right child of the node popped. -/
def deriveNext (tm : TreeMem) (w : Work) (ct : CodeTable) : Micro DeriveEngine :=
  match w.stack with
  | [] => .done (w, ct)
  | m :: rest => .more ({ w with cur := tm.rightOf m, path := turnRight w.path, stack := rest }, ct)

/-- Back from the last leaf of a left subtree, the path is that of the right child. -/
theorem turnRight_left (p : Bits) (n : Nat) : turnRight (p ++ [false] ++ List.replicate n true) = p ++ [true] := by
  have h : ∀ q : Bits, (List.replicate n true ++ q).dropWhile id = q.dropWhile id := by
    intro q
    induction n with
    | zero => rfl
    | succ n ih => rw [List.replicate_succ, List.cons_append, List.dropWhile_cons_of_pos rfl, ih]
  rw [turnRight, List.reverse_append, List.reverse_replicate, h]
  simp

theorem rightOf_internal {tm : TreeMem} {n l r : Nat} (h : (tm[n]? : Option Node) = some (.internal l r)) :
    tm.rightOf n = r := by rw [TreeMem.rightOf, h]

/-- The entry of one leaf, or of all leaves of a subtree (R161). -/
def CodeTable.setAll (ct : CodeTable) (l : List (Byte × Bits)) : CodeTable := l.foldl (fun c y => c.set y.1 y.2) ct

theorem CodeTable.setAll_append (ct : CodeTable) (a b : List (Byte × Bits)) :
    ct.setAll (a ++ b) = (ct.setAll a).setAll b := List.foldl_append

/-- A subtree, from any point of the derivation. The root must not be a leaf at index 0: that is R164's. -/
theorem deriveMicro_subtree {tm : TreeMem} (t : Tree) : ∀ (n : Nat) (w : Work) (ct : CodeTable) (fuel : Nat),
    t.sits tm n → w.cur = n → (∀ s, t = .leaf s → n ≠ 0) →
    ∃ k c, Micro.run (deriveMicro tm) (t.size + fuel) (w, ct) =
      Micro.after (deriveMicro tm) fuel
        (deriveNext tm { w with cur := c, path := w.path ++ List.replicate k true } (ct.setAll (t.paths w.path))) := by
  induction t with
  | leaf s =>
    intro n w ct fuel ht hc hn
    refine ⟨0, w.cur, ?_⟩
    have h : (tm[w.cur]? : Option Node) = some (.leaf s) := by rw [hc]; exact ht
    have h0 : w.cur ≠ 0 := hc ▸ hn s rfl
    rw [Tree.size, Nat.add_comm, Micro.run_succ]
    simp only [deriveMicro, h, if_neg h0, List.replicate_zero, List.append_nil]
    rfl
  | internal l r ihl ihr =>
    intro n w ct fuel ht hc _
    obtain ⟨h, hl, hr⟩ := ht
    have e : (Tree.internal l r).size + fuel = l.size + (r.size + fuel) + 1 := by simp [Tree.size]; omega
    obtain ⟨kl, cl, el⟩ := ihl (n + 1) { w with cur := n + 1, path := w.path ++ [false], stack := n :: w.stack } ct
      (r.size + fuel) hl rfl (fun _ _ => by omega)
    obtain ⟨kr, cr, er⟩ := ihr (n + 1 + l.size) { w with cur := n + 1 + l.size, path := w.path ++ [true] }
      (ct.setAll (l.paths (w.path ++ [false]))) fuel hr rfl (fun _ _ => by omega)
    refine ⟨kr + 1, cr, ?_⟩
    have step : deriveMicro tm (w, ct) =
        .more ({ w with cur := n + 1, path := w.path ++ [false], stack := n :: w.stack }, ct) := by
      simp only [deriveMicro, hc, h]
    rw [e, Micro.run_succ, step]
    refine el.trans ?_
    simp only [deriveNext, rightOf_internal h, turnRight_left]
    refine er.trans ?_
    have ep : w.path ++ List.replicate (kr + 1) true = w.path ++ [true] ++ List.replicate kr true := by
      rw [List.replicate_succ]; simp
    rw [ep, Tree.paths, CodeTable.setAll_append]; rfl

end Sys2Proof.Machine
end

