-- ==== Sys2Proof/Laws/MicroPack.lean ====
section
/-! SUPPORT. The packer bit by bit: what `acc`, `accn`, `wp` and `OBUF` hold after any number of code bits (R185). -/

namespace Sys2Proof.Machine

/-- Bits shifted into `acc` from the right, one after another (R185). -/
def shiftIn (acc : Byte) (bits : Bits) : Byte :=
  bits.foldl (fun a c => (a <<< 1) ||| (BitVec.ofBool c).setWidth 8) acc

theorem shiftIn_append (acc : Byte) (x y : Bits) : shiftIn acc (x ++ y) = shiftIn (shiftIn acc x) y := by
  simp [shiftIn]

/-- The bits of the byte under construction: those past the last full byte. -/
def lastBits (bits : Bits) : Bits := bits.drop (8 * (bits.length / 8))

theorem lastBits_length (bits : Bits) : (lastBits bits).length = bits.length % 8 := by
  simp [lastBits]; omega

theorem lastBits_snoc (bits : Bits) (c : Bool) :
    lastBits (bits ++ [c]) = if bits.length % 8 = 7 then [] else lastBits bits ++ [c] := by
  unfold lastBits
  split
  · next h => rw [List.drop_eq_nil_iff.mpr]; simp; omega
  · next h =>
    have e : (bits ++ [c]).length / 8 = bits.length / 8 := by simp; omega
    rw [e, List.drop_append_of_le_length (by omega)]

/-- The first `n` packed bytes. -/
def fullBytes (bits : Bits) : List Byte := (List.range (bits.length / 8)).map (packedByte bits)

theorem packedByte_append (x y : Bits) (j : Nat) (h : 8 * j + 8 ≤ x.length) : packedByte (x ++ y) j = packedByte x j := by
  have e : ∀ m < 8, (x ++ y).getD (8 * j + m) false = x.getD (8 * j + m) false := by
    intro m hm; rw [List.getD_eq_getElem?_getD, List.getD_eq_getElem?_getD, List.getElem?_append_left (by omega)]
  simp only [packedByte, byteOf_eq, e _ (by decide : 0 < 8), e _ (by decide : 1 < 8), e _ (by decide : 2 < 8),
    e _ (by decide : 3 < 8), e _ (by decide : 4 < 8), e _ (by decide : 5 < 8), e _ (by decide : 6 < 8),
    e _ (by decide : 7 < 8)]

theorem fullBytes_length (bits : Bits) : (fullBytes bits).length = bits.length / 8 := by simp [fullBytes]

/-- A byte of at most 8 bits, the first of them highest, the rest 0, is those bits shifted in and then aligned (R181, R185). -/
theorem packedByte_zero_shiftIn : ∀ bits : Bits, bits.length ≤ 8 → packedByte bits 0 = shiftIn 0 bits <<< (8 - bits.length) := by
  have key : ∀ b0 b1 b2 b3 b4 b5 b6 b7 : Bool,
      packedByte [] 0 = shiftIn 0 [] <<< 8 ∧
      packedByte [b0] 0 = shiftIn 0 [b0] <<< 7 ∧
      packedByte [b0, b1] 0 = shiftIn 0 [b0, b1] <<< 6 ∧
      packedByte [b0, b1, b2] 0 = shiftIn 0 [b0, b1, b2] <<< 5 ∧
      packedByte [b0, b1, b2, b3] 0 = shiftIn 0 [b0, b1, b2, b3] <<< 4 ∧
      packedByte [b0, b1, b2, b3, b4] 0 = shiftIn 0 [b0, b1, b2, b3, b4] <<< 3 ∧
      packedByte [b0, b1, b2, b3, b4, b5] 0 = shiftIn 0 [b0, b1, b2, b3, b4, b5] <<< 2 ∧
      packedByte [b0, b1, b2, b3, b4, b5, b6] 0 = shiftIn 0 [b0, b1, b2, b3, b4, b5, b6] <<< 1 ∧
      packedByte [b0, b1, b2, b3, b4, b5, b6, b7] 0 = shiftIn 0 [b0, b1, b2, b3, b4, b5, b6, b7] <<< 0 := by decide
  intro bits h
  match bits, h with
  | [], _ => exact (key false false false false false false false false).1
  | [a], _ => exact (key a false false false false false false false).2.1
  | [a, b], _ => exact (key a b false false false false false false).2.2.1
  | [a, b, c], _ => exact (key a b c false false false false false).2.2.2.1
  | [a, b, c, d], _ => exact (key a b c d false false false false).2.2.2.2.1
  | [a, b, c, d, e], _ => exact (key a b c d e false false false).2.2.2.2.2.1
  | [a, b, c, d, e, f], _ => exact (key a b c d e f false false).2.2.2.2.2.2.1
  | [a, b, c, d, e, f, g], _ => exact (key a b c d e f g false).2.2.2.2.2.2.2.1
  | [a, b, c, d, e, f, g, i], _ => exact (key a b c d e f g i).2.2.2.2.2.2.2.2
  | _ :: _ :: _ :: _ :: _ :: _ :: _ :: _ :: _ :: _, h => simp at h; omega

/-- The last byte, full or not, is its own bits shifted in and aligned. -/
theorem packedByte_eq_shiftIn (bits : Bits) (j : Nat) (h1 : 8 * j ≤ bits.length) (h2 : bits.length ≤ 8 * j + 8) :
    packedByte bits j = shiftIn 0 (bits.drop (8 * j)) <<< (8 - (bits.length - 8 * j)) := by
  have e : packedByte bits j = packedByte (bits.drop (8 * j)) 0 := by
    simp only [packedByte, Nat.mul_zero, Nat.zero_add, List.getD_eq_getElem?_getD, List.getElem?_drop]
  rw [e, packedByte_zero_shiftIn _ (by simp; omega)]; simp

/-- The engine after `bits` have been packed and `rp` symbols taken. -/
def packState (bits : Bits) (rp : Nat) : PackEngine :=
  ({ Work.cleared with rp := rp, wp := bits.length / 8, acc := shiftIn 0 (lastBits bits), accn := bits.length % 8 },
    Memory.writeBytes [] 0 (fullBytes bits))

theorem packState_nil : packState [] 0 = (Work.cleared, []) := rfl

theorem writeBytes_snoc (m : List Host.Cell) (d : List Byte) (v : Byte) :
    Memory.writeBytes m 0 (d ++ [v]) = Memory.write (Memory.writeBytes m 0 d) d.length v := by
  rw [Memory.writeBytes_append, Nat.zero_add]; rfl

theorem fullBytes_snoc (bits : Bits) (c : Bool) : fullBytes (bits ++ [c]) =
    if bits.length % 8 = 7 then fullBytes bits ++ [packedByte (bits ++ [c]) (bits.length / 8)] else fullBytes bits := by
  have hmap : (List.range (bits.length / 8)).map (packedByte (bits ++ [c])) = fullBytes bits :=
    List.map_congr_left fun j hj => packedByte_append bits [c] j (by simp at hj; omega)
  split
  · next h =>
    have e : (bits ++ [c]).length / 8 = bits.length / 8 + 1 := by simp; omega
    rw [fullBytes, e, List.range_succ, List.map_append, hmap]; rfl
  · next h =>
    have e : (bits ++ [c]).length / 8 = bits.length / 8 := by simp; omega
    rw [fullBytes, e, hmap]

/-- One more bit. -/
theorem packBitStep_packState (bits : Bits) (rp : Nat) (c : Bool) :
    packBitStep (packState bits rp) c = packState (bits ++ [c]) rp := by
  have hs : (shiftIn 0 (lastBits bits) <<< 1) ||| (BitVec.ofBool c).setWidth 8 = shiftIn 0 (lastBits bits ++ [c]) := by
    rw [shiftIn_append]; rfl
  unfold packBitStep packState
  simp only
  rw [hs, lastBits_snoc, fullBytes_snoc]
  by_cases h : bits.length % 8 = 7
  · have e1 : (bits ++ [c]).length / 8 = bits.length / 8 + 1 := by simp; omega
    have e2 : (bits ++ [c]).length % 8 = 0 := by simp; omega
    have hb : packedByte (bits ++ [c]) (bits.length / 8) = shiftIn 0 (lastBits bits ++ [c]) := by
      rw [packedByte_eq_shiftIn _ _ (by simp; omega) (by simp; omega), List.drop_append_of_le_length (by omega)]
      have : 8 - ((bits ++ [c]).length - 8 * (bits.length / 8)) = 0 := by simp; omega
      rw [this]; simp [lastBits]
    rw [if_pos (by omega), if_pos h, if_pos h, e1, e2, hb, writeBytes_snoc, fullBytes_length]; rfl
  · have e1 : (bits ++ [c]).length / 8 = bits.length / 8 := by simp; omega
    have e2 : (bits ++ [c]).length % 8 = bits.length % 8 + 1 := by simp; omega
    rw [if_neg (by omega), if_neg h, if_neg h, e1, e2]

/-- One more code. -/
theorem packBits_packState (code : Bits) : ∀ (bits : Bits) (rp : Nat),
    code.foldl packBitStep (packState bits rp) = packState (bits ++ code) rp := by
  induction code with
  | nil => intro bits rp; simp
  | cons c code ih => intro bits rp; rw [List.foldl_cons, packBitStep_packState, ih]; simp

theorem packLoop_cons (ct : CodeTable) (s : Byte) (d : List Byte) (bits : Bits) (rp : Nat) :
    packLoop ct (s :: d) (packState bits rp) =
      match ct.code s with
      | none => (some .missingCode, packState bits (rp + 1))
      | some c => packLoop ct d (packState (bits ++ c) (rp + 1)) := by
  change (match ct.code s with
    | none => _
    | some c => packLoop ct d (c.foldl packBitStep (packState bits (rp + 1)))) = _
  cases ct.code s with
  | none => rfl
  | some c => simp only; rw [packBits_packState]

/-- The loops of R185 over an input all of whose symbols have codes. -/
theorem packLoop_ok (ct : CodeTable) : ∀ (d : List Byte) (bits : Bits) (rp : Nat), missesCode ct d = false →
    packLoop ct d (packState bits rp) = (none, packState (bits ++ codeStream ct d) (rp + d.length)) := by
  intro d
  induction d with
  | nil => intro bits rp _; simp [packLoop, codeStream]
  | cons s d ih =>
    intro bits rp hm
    rw [packLoop_cons]
    cases h : ct.code s with
    | none => simp [missesCode, h] at hm
    | some c =>
      have e1 : missesCode ct d = false := by simpa [missesCode, h] using hm
      have e2 : codeStream ct (s :: d) = c ++ codeStream ct d := by simp [codeStream, h]
      simp only
      rw [ih _ _ e1, e2, List.append_assoc, List.length_cons, Nat.add_assoc, Nat.add_comm 1]

/-- The loops of R185 stop at the first symbol without a code, with the codes before it packed. -/
theorem packLoop_missing (ct : CodeTable) : ∀ (d : List Byte) (bits : Bits) (rp : Nat), missesCode ct d = true →
    ∃ a x b, d = a ++ x :: b ∧ (∀ y ∈ a, (ct.code y).isSome) ∧ ct.code x = none ∧
      packLoop ct d (packState bits rp) = (some .missingCode, packState (bits ++ codeStream ct a) (rp + a.length + 1)) := by
  intro d
  induction d with
  | nil => intro bits rp hm; simp [missesCode] at hm
  | cons s d ih =>
    intro bits rp hm
    rw [packLoop_cons]
    cases h : ct.code s with
    | none => exact ⟨[], s, d, rfl, by simp, h, by simp [codeStream]⟩
    | some c =>
      have e1 : missesCode ct d = true := by simpa [missesCode, h] using hm
      obtain ⟨a, x, b, rfl, ha, hx, hp⟩ := ih (bits ++ c) (rp + 1) e1
      refine ⟨s :: a, x, b, rfl, ?_, hx, ?_⟩
      · intro y hy
        rcases List.mem_cons.mp hy with rfl | hy
        · rw [h]; rfl
        · exact ha y hy
      · have e2 : codeStream ct (s :: a) = c ++ codeStream ct a := by simp [codeStream, h]
        simp only
        rw [hp, e2, List.append_assoc, List.length_cons, Nat.add_right_comm rp, Nat.add_assoc rp]

/-- The full bytes are the packed bytes without the partial one. -/
theorem fullBytes_eq_take (bits : Bits) : fullBytes bits = (packedBytes bits).take (bits.length / 8) := by
  rw [packedBytes, ← List.map_take, List.take_range, fullBytes, Nat.min_eq_left (by omega)]

/-- The flush of R185: all packed bytes stand in `OBUF`, `wp` counts them, and the valid-bit count is right. -/
theorem packFlush_packState (bits : Bits) (rp : Nat) (h0 : bits ≠ []) :
    ∃ w, packFlush (packState bits rp) = ((w, Memory.writeBytes [] 0 (packedBytes bits)), lastValidBits bits.length) ∧
      w.wp = (packedBytes bits).length ∧ w.rp = rp := by
  have hl := List.length_pos_of_ne_nil h0
  by_cases h : bits.length % 8 = 0
  · have e : packedBytes bits = fullBytes bits := by
      have : (bits.length + 7) / 8 = bits.length / 8 := by omega
      rw [packedBytes, this]; rfl
    have e2 : lastValidBits bits.length = 8 := by simp [lastValidBits]; omega
    refine ⟨(packState bits rp).1, ?_, ?_, rfl⟩
    · rw [packFlush, packState]; simp only; rw [if_neg (by omega), e, e2]
    · rw [e, fullBytes_length]; rfl
  · have e : packedBytes bits = fullBytes bits ++ [packedByte bits (bits.length / 8)] := by
      have : (bits.length + 7) / 8 = bits.length / 8 + 1 := by omega
      rw [packedBytes, this, List.range_succ, List.map_append]; rfl
    have e2 : lastValidBits bits.length = bits.length % 8 := by simp [lastValidBits]; omega
    refine ⟨{ (packState bits rp).1 with wp := bits.length / 8 + 1 }, ?_, ?_, rfl⟩
    · rw [packFlush, packState]; simp only
      have e3 : bits.length - 8 * (bits.length / 8) = bits.length % 8 := by omega
      rw [if_pos (by omega), e, e2, writeBytes_snoc, fullBytes_length,
        packedByte_eq_shiftIn bits _ (by omega) (by omega), e3]; rfl
    · rw [e, List.length_append, fullBytes_length]; rfl

end Sys2Proof.Machine
end

