-- ==== Sys2Proof/Laws/MicroWalk.lean ====
section
/-! SUPPORT. The decoder bit by bit: from any point of the walk the micro-steps end as the walk does (R209). -/

namespace Sys2Proof.Machine

/-- The engine with `k` bits consumed, `cur` the current node and `out` emitted: `wp = emitted`, and `rp` is just past the
byte of the last bit consumed. -/
def walkState (p0 vb cnt nv k cur : Nat) (out : List Byte) : UnpackEngine :=
  ({ Work.cleared with
      rp := p0 + (k + 7) / 8, wp := out.length, p0 := p0, wVb := vb, wCnt := cnt, nvalid := nv, k := k,
      emitted := out.length, cur := cur }, Memory.writeBytes [] 0 out)

theorem walkStart_eq (p0 n vb cnt : Nat) : walkStart p0 n vb cnt = walkState p0 vb cnt (nValid n vb) 0 0 [] := rfl

theorem nextBit_walkState (p0 vb cnt nv k cur : Nat) (out : List Byte) :
    (walkState p0 vb cnt nv k cur out).1.nextBit = (walkState p0 vb cnt nv (k + 1) cur out).1 := by
  have e : p0 + k / 8 + 1 = p0 + (k + 1 + 7) / 8 := by omega
  simp only [Work.nextBit, walkState, e]

theorem emitSymbol_walkState (p0 vb cnt nv k cur : Nat) (out : List Byte) (s : Byte) :
    emitSymbol (walkState p0 vb cnt nv k cur out).1 (walkState p0 vb cnt nv k cur out).2 s =
      walkState p0 vb cnt nv k 0 (out ++ [s]) := by
  simp only [emitSymbol, walkState, writeBytes_snoc, List.length_append, List.length_cons, List.length_nil]

/-- Stream bit `k` of the packed bytes is the bit the engine reads (R209). -/
theorem validBits_head {buf : List Byte} {p0 vb k : Nat} {b : Bool} {bs : Bits}
    (h : (validBits (buf.drop p0) vb).drop k = b :: bs) : (buf.getD (p0 + k / 8) 0).getLsbD (7 - k % 8) = b := by
  have hk : (validBits (buf.drop p0) vb)[k]? = some b := by
    have := congrArg (·[0]?) h; simpa using this
  rw [List.getElem?_eq_some_iff] at hk
  obtain ⟨hl, he⟩ := hk
  have hl' : k < 8 * (buf.drop p0).length := by
    rw [validBits, List.length_take, streamBits_length] at hl; omega
  simp only [validBits, List.getElem_take] at he
  rw [streamBits_getElem _ _ hl', streamBit] at he
  rw [← he, List.getD_eq_getElem?_getD, List.getD_eq_getElem?_getD, List.getElem?_drop]

/-- How the micro-steps end when `walk n` is what the walk gives for `n` symbols from here and `need` are owed: with its
bytes, or with its error after the bytes decoded before it. -/
def WalkEnds (p0 vb cnt nv : Nat) (out : List Byte) (walk : Nat → Except Stop (List Byte)) (need : Nat)
    (m : Option (Option ErrCode × UnpackEngine)) : Prop :=
  match walk need with
  | .ok d => ∃ k, m = some (none, walkState p0 vb cnt nv k 0 (out ++ d))
  | .error (.raise e) => ∃ k cur d, m = some (some e, walkState p0 vb cnt nv k cur (out ++ d)) ∧ walk d.length = .ok d
  | .error (.refuse _) => False

/-- The walk goes on after a leaf. -/
theorem WalkEnds.cons {p0 vb cnt nv n : Nat} {out : List Byte} {s : Byte} {walk walk' : Nat → Except Stop (List Byte)}
    {m : Option (Option ErrCode × UnpackEngine)} (hw : ∀ j, walk' (j + 1) = (walk j).map (s :: ·))
    (h : WalkEnds p0 vb cnt nv (out ++ [s]) walk n m) : WalkEnds p0 vb cnt nv out walk' (n + 1) m := by
  unfold WalkEnds at h ⊢
  rw [hw]
  cases hr : walk n with
  | ok d => rw [hr] at h; simpa [Except.map] using h
  | error x =>
    rw [hr] at h
    cases x with
    | raise e =>
      obtain ⟨k, cur, d, hm, hd⟩ := h
      exact ⟨k, cur, s :: d, by simpa using hm, by rw [List.length_cons, hw, hd]; rfl⟩
    | refuse _ => exact h

/-- The walk fails here, with nothing more decoded. -/
theorem WalkEnds.fails {p0 vb cnt nv n k cur : Nat} {out : List Byte} {e : ErrCode} {walk : Nat → Except Stop (List Byte)}
    {m : Option (Option ErrCode × UnpackEngine)} (hn : walk n = throwErr e) (h0 : walk 0 = .ok [])
    (hm : m = some (some e, walkState p0 vb cnt nv k cur out)) : WalkEnds p0 vb cnt nv out walk n m := by
  unfold WalkEnds; rw [hn]; exact ⟨k, cur, [], by simpa using hm, h0⟩

/-- The walk ends here, with nothing more owed. -/
theorem WalkEnds.ends {p0 vb cnt nv k : Nat} {out : List Byte} {walk : Nat → Except Stop (List Byte)}
    {m : Option (Option ErrCode × UnpackEngine)} (h0 : walk 0 = .ok [])
    (hm : m = some (none, walkState p0 vb cnt nv k 0 out)) : WalkEnds p0 vb cnt nv out walk 0 m := by
  unfold WalkEnds; rw [h0]; exact ⟨k, by simpa using hm⟩

/-- Every walk gives nothing for no symbol, so it is known by what it gives for one symbol or more. -/
theorem WalkEnds.congr {p0 vb cnt nv n : Nat} {out : List Byte} {walk walk' : Nat → Except Stop (List Byte)}
    {m : Option (Option ErrCode × UnpackEngine)} (hw : ∀ j, walk' j = walk j) (h : WalkEnds p0 vb cnt nv out walk n m) :
    WalkEnds p0 vb cnt nv out walk' n m := by rwa [show walk' = walk from funext hw]

/-- The two loop tests of R203, at any point of the walk. -/
theorem walkMicro_done {tm : TreeMem} {buf : List Byte} {p0 vb cnt nv k cur : Nat} {out : List Byte}
    (h : cnt ≤ out.length) : walkMicro tm buf (walkState p0 vb cnt nv k cur out) = .done (walkState p0 vb cnt nv k cur out) :=
  if_neg (Nat.not_lt.mpr h)

theorem walkMicro_truncated {tm : TreeMem} {buf : List Byte} {p0 vb cnt nv k cur : Nat} {out : List Byte}
    (h : out.length < cnt) (hk : nv ≤ k) :
    walkMicro tm buf (walkState p0 vb cnt nv k cur out) =
      .raised .truncatedStream (walkState p0 vb cnt nv k cur out) :=
  (if_pos h).trans (if_pos hk)

/-- The bit consumed, at any point of the walk. -/
theorem walkMicro_bit {tm : TreeMem} {buf : List Byte} {p0 vb cnt nv k cur : Nat} {out : List Byte} {b : Bool}
    (h : out.length < cnt) (hk : k < nv) (hb : (buf.getD (p0 + k / 8) 0).getLsbD (7 - k % 8) = b) :
    walkMicro tm buf (walkState p0 vb cnt nv k cur out) = walkBit tm b (walkState p0 vb cnt nv (k + 1) cur out) := by
  subst hb
  refine (if_pos h).trans ((if_neg (Nat.not_le.mpr hk)).trans ?_)
  exact congrArg (fun w => walkBit tm _ (w, Memory.writeBytes [] 0 out)) (nextBit_walkState p0 vb cnt nv k cur out)

/-- What it does under a degenerate tree. -/
theorem walkBit_leaf {tm : TreeMem} {p0 vb cnt nv k cur : Nat} {out : List Byte} {s : Byte} (b : Bool)
    (h0 : (tm[0]? : Option Node) = some (.leaf s)) :
    walkBit tm b (walkState p0 vb cnt nv k cur out) =
      if b then .raised .corruptCode (walkState p0 vb cnt nv k cur out)
      else .more (walkState p0 vb cnt nv k 0 (out ++ [s])) := by
  rw [← emitSymbol_walkState p0 vb cnt nv k cur out, walkBit, h0]

/-- What it does under any other contents of `TM`. -/
theorem walkBit_tree {tm : TreeMem} {p0 vb cnt nv k cur : Nat} {out : List Byte} (b : Bool)
    (h0 : ∀ s, (tm[0]? : Option Node) ≠ some (.leaf s)) :
    walkBit tm b (walkState p0 vb cnt nv k cur out) =
      match (tm[cur]? : Option Node) with
      | some (.internal l r) =>
        match (tm[if b then r else l]? : Option Node) with
        | some (.leaf s) => .more (walkState p0 vb cnt nv k 0 (out ++ [s]))
        | some (.internal _ _) => .more (walkState p0 vb cnt nv k (if b then r else l) out)
        | none => .raised .corruptCode (walkState p0 vb cnt nv k cur out)
      | some (.leaf _) => .raised .corruptCode (walkState p0 vb cnt nv k cur out)
      | none => .raised .corruptCode (walkState p0 vb cnt nv k cur out) := by
  simp only [← emitSymbol_walkState p0 vb cnt nv k cur out]
  rw [walkBit]
  cases hr : (tm[0]? : Option Node) with
  | none => rfl
  | some x =>
    cases x with
    | leaf s => exact absurd hr (h0 s)
    | internal _ _ => rfl

theorem walkLeaf_cons (s : Byte) (b : Bool) (bs : Bits) (n : Nat) :
    walkLeaf s (b :: bs) (n + 1) = if b then throwErr .corruptCode else (walkLeaf s bs n).map (s :: ·) := rfl

/-- Under a degenerate tree, from any point. -/
theorem walkLeaf_micro {tm : TreeMem} {buf : List Byte} {p0 vb cnt nv : Nat} {s : Byte}
    (h0 : (tm[0]? : Option Node) = some (.leaf s)) (hv : (validBits (buf.drop p0) vb).length = nv) :
    ∀ (bs : Bits) (k fuel : Nat) (out : List Byte), (validBits (buf.drop p0) vb).drop k = bs → k ≤ nv →
      bs.length < fuel → out.length ≤ cnt →
      WalkEnds p0 vb cnt nv out (walkLeaf s bs) (cnt - out.length)
        (Micro.run (walkMicro tm buf) fuel (walkState p0 vb cnt nv k 0 out)) := by
  intro bs
  induction bs with
  | nil =>
    intro k fuel out hd hk hf ho
    obtain ⟨f, rfl⟩ : ∃ f, fuel = f + 1 := ⟨fuel - 1, by omega⟩
    have hkn : nv ≤ k := by rw [List.drop_eq_nil_iff] at hd; omega
    by_cases hc : cnt ≤ out.length
    · rw [Nat.sub_eq_zero_of_le hc, Micro.run, walkMicro_done hc]
      exact .ends (walkLeaf_zero s []) rfl
    · obtain ⟨n, hn⟩ : ∃ n, cnt - out.length = n + 1 := ⟨cnt - out.length - 1, by omega⟩
      rw [hn, Micro.run, walkMicro_truncated (by omega) hkn]
      exact .fails rfl (walkLeaf_zero s []) rfl
  | cons b bs ih =>
    intro k fuel out hd hk hf ho
    obtain ⟨f, rfl⟩ : ∃ f, fuel = f + 1 := ⟨fuel - 1, by omega⟩
    have hl : k < nv := by
      have := congrArg List.length hd
      simp at this; omega
    by_cases hc : cnt ≤ out.length
    · rw [Nat.sub_eq_zero_of_le hc, Micro.run, walkMicro_done hc]
      exact .ends (walkLeaf_zero s _) rfl
    · obtain ⟨n, hn⟩ : ∃ n, cnt - out.length = n + 1 := ⟨cnt - out.length - 1, by omega⟩
      rw [hn, Micro.run, walkMicro_bit (by omega) hl (validBits_head hd), walkBit_leaf b h0]
      cases b with
      | true => exact .fails rfl (walkLeaf_zero s _) rfl
      | false =>
        have hn' : n = cnt - (out ++ [s]).length := by simp; omega
        refine WalkEnds.cons (walk := walkLeaf s bs) (fun j => rfl) ?_
        rw [hn']
        refine ih (k + 1) f (out ++ [s]) ?_ hl (by simp at hf; omega) (by simp; omega)
        rw [← List.drop_drop, hd]; rfl

/-- Under any other contents of `TM`, from any point. -/
theorem walkTree_micro {tm : TreeMem} {buf : List Byte} {p0 vb cnt nv : Nat}
    (h0 : ∀ s, (tm[0]? : Option Node) ≠ some (.leaf s)) (hv : (validBits (buf.drop p0) vb).length = nv) :
    ∀ (bs : Bits) (k cur fuel : Nat) (out : List Byte), (validBits (buf.drop p0) vb).drop k = bs → k ≤ nv →
      bs.length < fuel → out.length ≤ cnt → (out.length = cnt → cur = 0) →
      WalkEnds p0 vb cnt nv out (walkTree tm cur bs) (cnt - out.length)
        (Micro.run (walkMicro tm buf) fuel (walkState p0 vb cnt nv k cur out)) := by
  intro bs
  induction bs with
  | nil =>
    intro k cur fuel out hd hk hf ho hz
    obtain ⟨f, rfl⟩ : ∃ f, fuel = f + 1 := ⟨fuel - 1, by omega⟩
    have hkn : nv ≤ k := by rw [List.drop_eq_nil_iff] at hd; omega
    by_cases hc : cnt ≤ out.length
    · rw [Nat.sub_eq_zero_of_le hc, Micro.run, walkMicro_done hc, hz (by omega)]
      exact .ends (walkTree_zero tm _ []) rfl
    · obtain ⟨n, hn⟩ : ∃ n, cnt - out.length = n + 1 := ⟨cnt - out.length - 1, by omega⟩
      rw [hn, Micro.run, walkMicro_truncated (by omega) hkn]
      exact .fails rfl (walkTree_zero tm _ []) rfl
  | cons b bs ih =>
    intro k cur fuel out hd hk hf ho hz
    obtain ⟨f, rfl⟩ : ∃ f, fuel = f + 1 := ⟨fuel - 1, by omega⟩
    have hl : k < nv := by
      have := congrArg List.length hd
      simp at this; omega
    by_cases hc : cnt ≤ out.length
    · rw [Nat.sub_eq_zero_of_le hc, Micro.run, walkMicro_done hc, hz (by omega)]
      exact .ends (walkTree_zero tm _ _) rfl
    · obtain ⟨n, hn⟩ : ∃ n, cnt - out.length = n + 1 := ⟨cnt - out.length - 1, by omega⟩
      have hd' : (validBits (buf.drop p0) vb).drop (k + 1) = bs := by rw [← List.drop_drop, hd]; rfl
      rw [hn, Micro.run, walkMicro_bit (by omega) hl (validBits_head hd), walkBit_tree b h0]
      cases hx : (tm[cur]? : Option Node) with
      | none => exact .fails (by rw [walkTree_cons, hx]) (walkTree_zero tm _ _) rfl
      | some x =>
        cases x with
        | leaf _ => exact .fails (by rw [walkTree_cons, hx]) (walkTree_zero tm _ _) rfl
        | internal l r =>
          simp only
          cases hy : (tm[if b then r else l]? : Option Node) with
          | none => exact .fails (by rw [walkTree_cons, hx]; simp only; rw [hy]) (walkTree_zero tm _ _) rfl
          | some y =>
            cases y with
            | leaf s =>
              have hn' : n = cnt - (out ++ [s]).length := by simp; omega
              refine WalkEnds.cons (walk := walkTree tm 0 bs) (fun j => by rw [walkTree_cons, hx]; simp only; rw [hy]) ?_
              rw [hn']
              exact ih (k + 1) 0 f (out ++ [s]) hd' hl (by simp at hf; omega) (by simp; omega) fun _ => rfl
            | internal _ _ =>
              simp only
              rw [← hn]
              refine WalkEnds.congr (walk := walkTree tm (if b then r else l) bs) (fun j => ?_)
                (ih (k + 1) _ f out hd' hl (by simp at hf; omega) ho fun h => absurd h (by omega))
              cases j with
              | zero => rw [walkTree_zero, walkTree_zero]
              | succ j => rw [walkTree_cons, hx]; simp only; rw [hy]

end Sys2Proof.Machine
end

