-- ==== Sys2Proof/Laws/PerInstr.lean ====
section
/-! SUPPORT. Statements about every command as syntax, made per constructor. -/

namespace Sys2Proof.Laws.RoundTrip

/-- A command is well-formed, its word is (R90, R93), and the decoder reads the word, whole or as the opcode table numbers its
bits, as that command. -/
def Statement (i : Instr) : Prop :=
  i.wf = true ∧ wfCommandWord (encode i) = true ∧ decode (encode i) = .ok i ∧
    decodeTableWord 32 (encode i).toNat = some i

theorem nop : Statement .nop := by unfold Statement; decide
theorem clear : Statement .clear := by unfold Statement; decide
theorem ldtree : Statement .ldtree := by unfold Statement; decide
theorem pack : Statement .pack := by unfold Statement; decide
theorem unpack : Statement .unpack := by unfold Statement; decide
theorem encode : Statement .encode := by unfold Statement; decide
theorem decode : Statement .decode := by unfold Statement; decide

end Sys2Proof.Laws.RoundTrip
end

