-- ==== Sys2Proof/Laws/Steps.lean ====
section
/-! SUPPORT. The steps of a transcoding command where its operands are good, and where its walk fails. -/

namespace Sys2Proof.Machine

theorem packSteps_ok {s : State} {d : List Byte} (hp : s.phase = .treeReady) (h0 : d ≠ [])
    (hl : s.ilen.toNat = d.length) (hf : s.inputFits) (hh : Memory.holds s.ibuf d)
    (hc : ∀ x ∈ d, (s.ct.code x).isSome) (hr : s.resultFits (((codeStream s.ct d).length + 7) / 8)) :
    packSteps s = .ok (((s.clearWork.setPhase .transcoding).putResult (packedBytes (codeStream s.ct d))).putPackCounts
      (lastValidBits (codeStream s.ct d).length)).endCall := by
  have h0 : s.ilen.toNat ≠ 0 := by rw [hl]; simpa using h0
  rw [packSteps, if_neg (not_not_intro hf), if_neg (not_not_intro hp), if_neg h0]
  exact packInput_ok (s := s.clearWork.setPhase .transcoding) hl hh hc hr

theorem unpackSteps_walks {s : State} {p : List Byte} (hp : s.phase = .treeReady) (hl : s.ilen.toNat = p.length)
    (hf : s.inputFits) (hr : s.resultFits s.symcnt.toNat) (hb : badValidBits p.length s.vbits.toNat = false) :
    unpackSteps s = (s.clearWork.setPhase .transcoding).unpackInput := by
  rw [unpackSteps, if_neg (not_not_intro hf), if_neg (not_not_intro hr), if_neg (not_not_intro hp),
    if_neg (by rw [hl, hb]; decide)]

theorem unpackSteps_ok {s : State} {p out : List Byte} (hp : s.phase = .treeReady) (hl : s.ilen.toNat = p.length)
    (hf : s.inputFits) (hr : s.resultFits s.symcnt.toNat) (hh : Memory.holds s.ibuf p)
    (hb : badValidBits p.length s.vbits.toNat = false)
    (h : walkBits s.tm (validBits p s.vbits.toNat) s.symcnt.toNat = .ok out) :
    unpackSteps s = .ok ((s.clearWork.setPhase .transcoding).putResult out).endCall := by
  rw [unpackSteps_walks hp hl hf hr hb]
  exact unpackInput_ok (s := s.clearWork.setPhase .transcoding) hl hh
    (by rw [unpackBits_eq, if_neg (by simp [hb])]; exact h)

theorem unpackSteps_raise {s : State} {p : List Byte} {e : ErrCode} (hp : s.phase = .treeReady)
    (hl : s.ilen.toNat = p.length) (hf : s.inputFits) (hr : s.resultFits s.symcnt.toNat) (hh : Memory.holds s.ibuf p)
    (hb : badValidBits p.length s.vbits.toNat = false)
    (h : walkBits s.tm (validBits p s.vbits.toNat) s.symcnt.toNat = throwErr e) : unpackSteps s = throwErr e := by
  rw [unpackSteps_walks hp hl hf hr hb]
  exact unpackInput_raise (s := s.clearWork.setPhase .transcoding) hl hh
    (by rw [unpackBits_eq, if_neg (by simp [hb])]; exact h)

theorem encodeSteps_header {s : State} (h0 : 0 < s.ilen.toNat) (hf : s.inputFits) :
    encodeSteps s = (s.startCall.setPhase .header).encodeHeader := by
  rw [encodeSteps, if_neg (not_not_intro hf), if_neg (by omega)]

/-- `ENCODE` once its tree is loaded: all that is left is the input. -/
theorem encodeSteps_loaded {s : State} {t : Tree} (h0 : 0 < s.ilen.toNat) (hf : s.inputFits) (ht : t.distinct)
    (hl : s.tlen.toNat = t.ser.length) (hh : Memory.holds s.tbuf t.ser) :
    encodeSteps s = (((s.startCall.setPhase .header).loadTree (t.records 0) (deriveCodes (t.records 0))).setPhase
      .transcoding).encodeInput t.ser := by
  rw [encodeSteps_header h0 hf]
  exact encodeHeader_loaded (loadTbuf_ok (s := s.startCall.setPhase .header) ht hl hh)

theorem encodeSteps_ok {s : State} {t : Tree} {d : List Byte} (ht : t.distinct)
    (hl : s.tlen.toNat = t.ser.length) (hh : Memory.holds s.tbuf t.ser) (h0 : d ≠ []) (hd : s.ilen.toNat = d.length)
    (hf : s.inputFits) (hi : Memory.holds s.ibuf d) (hm : ∀ x ∈ d, x ∈ t.symbols)
    (hr : s.resultFits (5 + t.ser.length + ((t.stream d).length + 7) / 8)) :
    encodeSteps s = .ok (((((s.startCall.setPhase .header).loadTree (t.records 0)
      (deriveCodes (t.records 0))).setPhase .transcoding).putResult (frameContainer s.ilen
        (lastValidBits (t.stream d).length) t.ser (packedBytes (t.stream d)))).putPackCounts
        (lastValidBits (t.stream d).length)).endCall := by
  have h0 : 0 < s.ilen.toNat := by rw [hd]; exact List.length_pos_of_ne_nil h0
  rw [encodeSteps_loaded h0 hf ht hl hh]
  have hcode := code_deriveCodes t ht
  have e := codeStream_eq_stream hcode d
  have hm' := (missesCode_eq_false_iff _ _).mp ((missesCode_tree hcode d).mpr hm)
  generalize hs' : ((s.startCall.setPhase .header).loadTree (t.records 0)
    (deriveCodes (t.records 0))).setPhase .transcoding = s'
  have e1 : s'.ilen = s.ilen := by subst hs'; rfl
  have e2 : s'.ibuf = s.ibuf := by subst hs'; rfl
  have e3 : s'.ct = deriveCodes (t.records 0) := by subst hs'; rfl
  have e4 : s'.caps = s.caps := by subst hs'; rfl
  rw [encodeInput_ok (s := s') (by rw [e1]; exact hd) (by rw [e2]; exact hi) (by rw [e3]; exact hm')
    (by rw [e3, e, e4]; exact hr), e1, e3, e]

theorem encodeSteps_missing {s : State} {t : Tree} {d : List Byte} (ht : t.distinct)
    (hl : s.tlen.toNat = t.ser.length) (hh : Memory.holds s.tbuf t.ser) (hd : s.ilen.toNat = d.length)
    (hf : s.inputFits) (hi : Memory.holds s.ibuf d) (hm : ∃ x ∈ d, x ∉ t.symbols) :
    encodeSteps s = throwErr .missingCode := by
  obtain ⟨x, hx, hn⟩ := hm
  have h0 : 0 < s.ilen.toNat := by rw [hd]; exact List.length_pos_of_mem hx
  rw [encodeSteps_loaded h0 hf ht hl hh]
  exact encodeInput_missing (s := ((s.startCall.setPhase .header).loadTree (t.records 0)
    (deriveCodes (t.records 0))).setPhase .transcoding) hd hi
    ⟨x, hx, (code_deriveCodes t ht x).trans ((t.lookup_codes_none_iff x).mpr hn)⟩

theorem decodeSteps_parsed {s : State} {n : Word} {vb : Byte} {t : Tree} {p : List Byte} (ht : t.distinct)
    (hl : s.ilen.toNat = (be32 n ++ [vb] ++ t.ser ++ p).length) (hf : s.inputFits)
    (hh : Memory.holds s.ibuf (be32 n ++ [vb] ++ t.ser ++ p)) (hb : badValidBits p.length vb.toNat = false) :
    decodeSteps s = (((s.startCall.setPhase .header).loadTree (t.records 0) (deriveCodes (t.records 0))).setPhase
      .transcoding).decodeInput
        { wCnt := n.toNat, wVb := vb.toNat, tm := t.records 0, ct := deriveCodes (t.records 0), packed := p } := by
  have h5 : ¬s.ilen.toNat < Config.headerSize := by
    rw [hl]; simp only [be32, List.length_append, List.length_cons, List.length_nil, Config.headerSize]; omega
  rw [decodeSteps, if_neg (not_not_intro hf), if_neg h5,
    decodeHeader_parsed (s := s.startCall.setPhase .header) hl hh]
  have e : parseContainer (be32 n ++ [vb] ++ t.ser ++ p) = .ok
      { wCnt := n.toNat, wVb := vb.toNat, tm := t.records 0, ct := deriveCodes (t.records 0), packed := p } := by
    have := originalLength_be32 n
    simp only [be32, List.cons_append, List.nil_append, parseContainer]
    rw [parseBody_ok ht _ _ hb, this]
  rw [e]; rfl

theorem decodeSteps_ok {s : State} {n : Word} {vb : Byte} {t : Tree} {p out : List Byte} (ht : t.distinct)
    (hl : s.ilen.toNat = (be32 n ++ [vb] ++ t.ser ++ p).length) (hf : s.inputFits)
    (hh : Memory.holds s.ibuf (be32 n ++ [vb] ++ t.ser ++ p)) (hb : badValidBits p.length vb.toNat = false)
    (hr : s.resultFits n.toNat) (h : walkBits (t.records 0) (validBits p vb.toNat) n.toNat = .ok out) :
    decodeSteps s = .ok ((((s.startCall.setPhase .header).loadTree (t.records 0)
      (deriveCodes (t.records 0))).setPhase .transcoding).putResult out).endCall := by
  rw [decodeSteps_parsed ht hl hf hh hb]
  exact decodeInput_ok hr (by
    change unpackBits (t.records 0) p vb.toNat n.toNat = _
    rw [unpackBits_eq, if_neg (by simp [hb])]; exact h)

theorem decodeSteps_raise {s : State} {n : Word} {vb : Byte} {t : Tree} {p : List Byte} {e : ErrCode}
    (ht : t.distinct) (hl : s.ilen.toNat = (be32 n ++ [vb] ++ t.ser ++ p).length) (hf : s.inputFits)
    (hh : Memory.holds s.ibuf (be32 n ++ [vb] ++ t.ser ++ p)) (hb : badValidBits p.length vb.toNat = false)
    (hr : s.resultFits n.toNat) (h : walkBits (t.records 0) (validBits p vb.toNat) n.toNat = throwErr e) :
    decodeSteps s = throwErr e := by
  rw [decodeSteps_parsed ht hl hf hh hb]
  exact decodeInput_raise hr (by
    change unpackBits (t.records 0) p vb.toNat n.toNat = _
    rw [unpackBits_eq, if_neg (by simp [hb])]; exact h)

end Sys2Proof.Machine
end

