-- ==== Sys2Proof/Laws/WalkErrors.lean ====
section
/-! SUPPORT. The two ways a walk fails: the valid bits end inside the codes owed, or a bit 1 in a degenerate tree. -/

namespace Sys2Proof.Machine

/-- Bits that end inside a leaf's path, walked from a node, run out (R204). -/
theorem walkTree_path_cut {tm : TreeMem} : ∀ (t : Tree) (cur : Nat), t.sits tm cur → ∀ x ∈ t.paths [],
    ∀ (bs cut : Bits), x.2 = bs ++ cut → cut ≠ [] → ∀ n, walkTree tm cur bs (n + 1) = throwErr .truncatedStream := by
  intro t
  induction t with
  | leaf s => intro cur _ x hx bs cut he hc; simp [Tree.paths] at hx; simp [hx] at he; exact absurd he.2 hc
  | internal l r ihl ihr =>
    intro cur hs x hx bs cut he hc n
    cases bs with
    | nil => rfl
    | cons b bs =>
      rw [walkTree_step hs]
      simp only [Tree.paths, List.nil_append, List.mem_append] at hx
      rw [Tree.paths_eq_map l, Tree.paths_eq_map r, List.mem_map, List.mem_map] at hx
      have key : ∀ (sub : Tree) (k : Nat), sub.sits tm k → (∀ cur : Nat, sub.sits tm cur → ∀ x ∈ sub.paths [],
          ∀ (bs cut : Bits), x.2 = bs ++ cut → cut ≠ [] → ∀ n, walkTree tm cur bs (n + 1) = throwErr .truncatedStream) →
          ∀ a ∈ sub.paths [], a.2 = bs ++ cut →
          (match sub with
            | .leaf s => (walkTree tm 0 bs n).map (s :: ·)
            | .internal _ _ => walkTree tm k bs (n + 1)) = throwErr .truncatedStream := by
        intro sub k hk ih a ha hea
        cases sub with
        | leaf s => simp [Tree.paths] at ha; simp [ha] at hea; exact absurd hea.2 hc
        | internal _ _ => exact ih k hk a ha bs cut hea hc n
      rcases hx with ⟨a, ha, rfl⟩ | ⟨a, ha, rfl⟩ <;> simp at he <;> obtain ⟨rfl, he⟩ := he
      · exact key l (cur + 1) hs.2.1 ihl a ha he
      · exact key r (cur + 1 + l.size) hs.2.2 ihr a ha he

/-- Bits that end inside a code run out. -/
theorem walkBits_code_cut (t : Tree) {x : Byte × Bits} (hx : x ∈ t.codes) {bs cut : Bits} (he : x.2 = bs ++ cut)
    (hc : cut ≠ []) (n : Nat) : walkBits (t.records 0) bs (n + 1) = throwErr .truncatedStream := by
  cases t with
  | leaf s =>
    simp [Tree.codes] at hx
    subst hx
    cases bs with
    | nil => rfl
    | cons b bs => simp at he; exact absurd he.2.2 hc
  | internal l r =>
    have hs := Tree.sits_records_zero (.internal l r)
    simp only [walkBits, Tree.sits_internal_root hs]
    exact walkTree_path_cut (.internal l r) 0 hs x hx bs cut he hc n

/-- When the valid bits are a proper beginning of the codes owed the walk runs out of bits (R204, R288). -/
theorem walkBits_truncated (t : Tree) : ∀ (d : List Byte), (∀ s ∈ d, s ∈ t.symbols) → ∀ bs rest : Bits,
    t.stream d = bs ++ rest → rest ≠ [] → walkBits (t.records 0) bs d.length = throwErr .truncatedStream := by
  intro d
  induction d with
  | nil => intro _ bs rest he hr; simp [Tree.stream] at he; exact absurd he.2 hr
  | cons s d ih =>
    intro hd bs rest he hr
    obtain ⟨c, hc, hm⟩ := t.lookup_of_mem_symbols (hd s (by simp))
    rw [t.stream_cons, hc, Option.getD_some] at he
    have whole : ∀ a, bs = c ++ a → t.stream d = a ++ rest →
        walkBits (t.records 0) bs (d.length + 1) = throwErr .truncatedStream := by
      rintro a rfl h
      rw [walkBits_code t hm, ih (fun x hx => hd x (by simp [hx])) a rest h hr]; rfl
    rcases List.append_eq_append_iff.mp he with ⟨a, h1, h2⟩ | ⟨a, h1, h2⟩
    · exact whole a h1 h2
    · by_cases ha : a = []
      · subst ha; exact whole [] (by simpa using h1.symm) (by simpa using h2.symm)
      · exact walkBits_code_cut t hm h1 ha d.length

/-- Under a degenerate tree the first bit 1 among the bits needed is corrupt (R205, R289). -/
theorem walkLeaf_corrupt (x : Byte) (rest : Bits) : ∀ n cnt : Nat, n < cnt →
    walkLeaf x (List.replicate n false ++ true :: rest) cnt = throwErr .corruptCode := by
  intro n
  induction n with
  | zero => intro cnt h; obtain ⟨m, rfl⟩ := Nat.exists_eq_add_of_lt h; simp [walkLeaf]
  | succ n ih =>
    intro cnt h
    obtain ⟨m, rfl⟩ : ∃ m, cnt = m + 1 := ⟨cnt - 1, by omega⟩
    rw [List.replicate_succ, List.cons_append, walkLeaf, ih m (by omega)]; rfl

end Sys2Proof.Machine
end

