-- ==== Sys2Proof/Tests/Slice0.lean ====
section
/-! SUPPORT. Tests. Expected results are the spec's (worked examples of the rules named, 95_test_vectors.md) or worked out
by hand from the rule named. The second half shows, for each statement with hypotheses, operands that meet them. -/

namespace Sys2Proof.Tests

open Sys2Proof.Machine

/-! ## What is well-formed (R66, R90, R93) -/

theorem test_wf_accepts_last_opcode : wfCommandWord 0x00000006#32 = true := by decide
theorem test_wf_rejects_reserved_opcode : wfCommandWord 0x00000007#32 = false := by decide
theorem test_wf_rejects_upper_bits : wfCommandWord 0x00000102#32 = false := by decide
theorem test_wf_rejects_top_bit : wfCommandWord 0x80000000#32 = false := by decide
theorem test_wf_accepts_word_access : wfRegAccess 32 8 = true := by decide
theorem test_wf_rejects_byte_access : wfRegAccess 8 8 = false := by decide
theorem test_wf_rejects_misaligned_access : wfRegAccess 32 6 = false := by decide

/-! ## Decoding, words written out from R90: bits 31:8 zero, opcode in bits 7:0 -/

theorem test_decode_nop : decode 0b00000000000000000000000000000000#32 = .ok .nop := by decide
theorem test_decode_clear : decode 0b00000000000000000000000000000001#32 = .ok .clear := by decide
theorem test_decode_ldtree : decode 0b00000000000000000000000000000010#32 = .ok .ldtree := by decide
theorem test_decode_pack : decode 0b00000000000000000000000000000011#32 = .ok .pack := by decide
theorem test_decode_unpack : decode 0b00000000000000000000000000000100#32 = .ok .unpack := by decide
theorem test_decode_encode : decode 0b00000000000000000000000000000101#32 = .ok .encode := by decide
theorem test_decode_decode : decode 0b00000000000000000000000000000110#32 = .ok .decode := by decide
theorem test_decode_reserved_opcode : decode 0b00000000000000000000000000000111#32 = .error .reservedOpcode := by decide
theorem test_decode_reserved_zero_field : decode 0b00000000000000000000000100000000#32 = .error .reservedUpperBits := by
  decide
theorem test_decode_table_word : decodeTableWord 32 5 = some .encode ∧ decodeTableWord 8 5 = some .encode ∧
    decodeTableWord 32 7 = none ∧ decodeTableWord 32 0x105 = none := by decide

/-! ## Helpers -/

/-- After reset, with `tb` in `TBUF`, `ib` in `IBUF` and their lengths in `TLEN`, `ILEN`. -/
def filled (tb ib : List Byte) : State :=
  { State.reset with
    tbuf := Memory.writeBytes [] 0 tb
    tlen := BitVec.ofNat 10 tb.length
    ibuf := Memory.writeBytes [] 0 ib
    ilen := BitVec.ofNat 32 ib.length }

/-- The same in `TreeReady` with the tree `t` loaded, and `VBITS`, `SYMCNT` set. -/
def ready (t : Tree) (ib : List Byte) (vb : BitVec 4) (cnt : Word) : State :=
  { filled [] ib with phase := .treeReady, tm := t.records 0, ct := deriveCodes (t.records 0), vbits := vb, symcnt := cnt }

/-- The host's next access is the command word `w`. -/
def issuing (s : State) (w : Word) : State := { s with host := { s.host with script := [cmdWrite w] } }

/-- What a host can read once a command is over: `STATUS`, `OLEN`, `VBITS`, `SYMCNT` and the result bytes. -/
structure Seen where
  status : Word
  olen   : Nat
  vbits  : Nat
  symcnt : Nat
  result : List (Option Byte)
  deriving DecidableEq, Repr

/-- What a host sees after an outcome. -/
def sees (o : Host.Outcome State Fault Refusal) : Option Seen :=
  match o with
  | .next u => some ⟨u.status, u.olen.toNat, u.vbits.toNat, u.symcnt.toNat,
      (List.range u.olen.toNat).map (Memory.read u.obuf)⟩
  | .fault _ => none
  | .refused _ => none

/-- The next state, or the state given. -/
def after (s : State) (o : Host.Outcome State Fault Refusal) : State :=
  match o with
  | .next u => u
  | .fault _ => s
  | .refused _ => s

/-- `00 01 61 01 62`: a = '0', b = '1' (R166). -/
def ab : Tree := .internal (.leaf 0x61) (.leaf 0x62)

/-- The tree of "abracadabra" (R137, R166). -/
def abracadabra : Tree :=
  .internal (.leaf 0x61) (.internal (.internal (.leaf 0x63) (.leaf 0x64)) (.internal (.leaf 0x62) (.leaf 0x72)))

/-! ## One step of each command -/

/-- R255: in `TreeReady` `NOP` leaves `STATUS = 0x0000_0200`. -/
theorem test_nop_keeps_status : sees (step (issuing (ready ab [] 0 0) 0)) = some ⟨0x00000200#32, 0, 0, 0, []⟩ := by
  decide
/-- R255: `NOP` does not clear `ERR`. -/
theorem test_nop_keeps_error :
    sees (exec .nop { State.reset with phase := .done, err := some .malformedContainer }) =
      some ⟨0x00000420#32, 0, 0, 0, []⟩ := by decide
/-- R256: after a failed `DECODE` (`STATUS = 0x0000_0420`), `CLEAR` gives 0; `VBITS`, `SYMCNT` are kept. -/
theorem test_clear_after_error :
    sees (exec .clear { State.reset with phase := .done, err := some .malformedContainer, vbits := 9, symcnt := 7 }) =
      some ⟨0x00000000#32, 0, 9, 7, []⟩ := by decide
/-- R253, R256: `CLEAR` in `TreeReady` drops the tree. -/
theorem test_clear_drops_tree : (after State.reset (exec .clear (ready ab [] 0 0))).tm = [] := by decide
/-- R150's example: `STATUS = 0x0000_0200`, `TM` and `CT` as given. -/
theorem test_ldtree_example :
    let u := after State.reset (exec .ldtree (filled [0x00, 0x01, 0x61, 0x01, 0x62] []))
    u.status = 0x00000200#32 ∧ u.tm = [.internal 1 2, .leaf 0x61, .leaf 0x62] ∧ u.ct.code 0x61 = some [false] ∧
      u.ct.code 0x62 = some [true] ∧ u.ct.code 0x63 = none := by decide
/-- R153: `01 61 00` has a byte after the description. -/
theorem test_ldtree_trailing_byte : sees (exec .ldtree (filled [0x01, 0x61, 0x00] [])) = some ⟨0x00000420#32, 0, 0, 0, []⟩ := by
  decide
/-- R180's example: `OBUF[0] = 0x40`, `OLEN = 1`, `VBITS = 2`, `SYMCNT = 2`. -/
theorem test_pack_example : sees (exec .pack (ready ab [0x61, 0x62] 0 0)) = some ⟨0x00000400#32, 1, 2, 2, [some 0x40]⟩ := by
  decide
/-- R183: the symbol 0x63 has no code. -/
theorem test_pack_missing_code : sees (exec .pack (ready ab [0x61, 0x63] 5 9)) = some ⟨0x00000450#32, 0, 5, 9, []⟩ := by
  decide
/-- R200's example: bits 0, 1 give `61 62`. -/
theorem test_unpack_example : sees (exec .unpack (ready ab [0x40] 2 2)) =
    some ⟨0x00000400#32, 2, 2, 2, [some 0x61, some 0x62]⟩ := by decide
/-- R205: under the degenerate tree a bit 1 is corrupt (bits 0, 1). -/
theorem test_unpack_corrupt : sees (exec .unpack (ready (.leaf 0x61) [0x40] 2 2)) = some ⟨0x00000440#32, 0, 2, 2, []⟩ := by
  decide
/-- R137, R166, R222: "abracadabra" has T = 23 code bits, 0 110 111 0 100 0 101 0 110 111 0. -/
theorem test_encode_abracadabra :
    sees (exec .encode (filled [0x00, 0x01, 0x61, 0x00, 0x00, 0x01, 0x63, 0x01, 0x64, 0x00, 0x01, 0x62, 0x01, 0x72]
      [0x61, 0x62, 0x72, 0x61, 0x63, 0x61, 0x64, 0x61, 0x62, 0x72, 0x61])) =
    some ⟨0x00000400#32, 22, 7, 11, ([0x00, 0x00, 0x00, 0x0B, 0x07, 0x00, 0x01, 0x61, 0x00, 0x00, 0x01, 0x63, 0x01, 0x64,
      0x00, 0x01, 0x62, 0x01, 0x72, 0x6E, 0x8A, 0xDC] : List Byte).map some⟩ := by decide
/-- R222's example: one distinct symbol. -/
theorem test_encode_degenerate : sees (exec .encode (filled [0x01, 0x61] [0x61, 0x61, 0x61, 0x61])) =
    some ⟨0x00000400#32, 8, 4, 4, ([0x00, 0x00, 0x00, 0x04, 0x04, 0x01, 0x61, 0x00] : List Byte).map some⟩ := by
  decide
/-- R230's example. -/
theorem test_decode_example :
    sees (step (issuing (filled [] [0x00, 0x00, 0x00, 0x04, 0x04, 0x01, 0x61, 0x00]) 6)) =
      some ⟨0x00000400#32, 4, 0, 0, [some 0x61, some 0x61, some 0x61, some 0x61]⟩ := by decide
/-- R237: zero packed bytes and one symbol owed. -/
theorem test_decode_truncated : sees (exec .decode (filled [] [0x00, 0x00, 0x00, 0x01, 0x00, 0x01, 0x61])) =
    some ⟨0x00000430#32, 0, 0, 0, []⟩ := by decide
/-- R257: `CMD <- 0x0000_0007` in `Start` gives `STATUS = 0x0000_0460`. -/
theorem test_reserved_word : sees (step (issuing State.reset 7)) = some ⟨0x00000460#32, 0, 0, 0, []⟩ := by decide

/-- R50: after reset the buffers are in canonical form. -/
theorem test_reset_buffers_wf : Memory.wf State.reset.ibuf ∧ Memory.wf State.reset.tbuf ∧ Memory.wf State.reset.obuf := by
  decide

/-! ## The fetch the host uses; the host's accesses -/

/-- R150: `LDTREE` straight after reset, `TLEN = 0`. -/
theorem test_fetch_ldtree : sees (step (State.reset.withFetchWord 32 2)) = some ⟨0x00000420#32, 0, 0, 0, []⟩ := by
  decide
/-- R332: a `DECODE` straight after reset works; with `ILEN = 0` it is malformed (R231). -/
theorem test_fetch_decode : sees (step (State.reset.withFetchWord 8 6)) = some ⟨0x00000420#32, 0, 0, 0, []⟩ := by
  decide
/-- R22, R27: `TLEN` keeps 10 bits. -/
theorem test_tlen_keeps_ten_bits :
    (after State.reset (hostAccess (regWriteOf .tlen 0xFFFFFFFF#32) State.reset)).readReg (some .tlen) = 0x000003FF#32 := by
  decide
/-- R136, R137: the reference tree of "abracadabra". -/
theorem test_refBuild_abracadabra :
    refBuild (freq [0x61, 0x62, 0x72, 0x61, 0x63, 0x61, 0x64, 0x61, 0x62, 0x72, 0x61]) = abracadabra := by decide
/-- R132: its weighted path length is the number of code bits, 23 (5·1 + 2·3 + 1·3 + 1·3 + 2·3). -/
theorem test_weightedPathLength_abracadabra :
    weightedPathLength [(0x61, 5), (0x62, 2), (0x63, 1), (0x64, 1), (0x72, 2)] abracadabra = 23 := by decide
/-- R185: the micro-steps pack "abracadabra" into `6E 8A DC`, 7 valid bits in the last byte. -/
theorem test_packMicro_abracadabra :
    ((packMicro (deriveCodes (abracadabra.records 0))
      [0x61, 0x62, 0x72, 0x61, 0x63, 0x61, 0x64, 0x61, 0x62, 0x72, 0x61]).map fun x => (x.1.2, x.2)).toOption =
      some ([(0, 0x6E), (1, 0x8A), (2, 0xDC)], 7) := by decide
/-- R209: three symbols owed, two there: the error, both bytes still in `OBUF`, `wp = emitted`; one packed byte read. -/
theorem test_walkMicro_truncated :
    let r := Micro.run (walkMicro (ab.records 0) [0x40]) 3 (walkStart 0 1 2 3)
    r.map (fun x => (x.1, x.2.2)) = some (some .truncatedStream, [(0, 0x61), (1, 0x62)]) ∧
      r.map (fun x => [x.2.1.wp, x.2.1.emitted, x.2.1.rp]) = some [2, 2, 1] := by decide
/-- R137, R161: in nine steps, one for each node of the tree of "abracadabra", b = 110 and r = 111. -/
theorem test_deriveMicro_abracadabra :
    (Micro.run (deriveMicro (abracadabra.records 0)) 9 deriveStart).map
      (fun x => (x.1, x.2.2.code 0x62, x.2.2.code 0x72, x.2.2.code 0x65)) =
      some (none, some [true, true, false], some [true, true, true], none) := by decide

/-! ## Operands that meet the hypotheses of each statement

`witness_<Statement>` shows a state and operands that meet all the hypotheses of that statement (or of one clause of it)
together. `o = .next (after s o)` says that the outcome `o` is a next state. -/

/-- A description with one byte more, a container of "ab" (R95 to R98), a container under a degenerate tree. -/
def abTail : List Byte := ab.ser ++ [0x00]
def abBox (vb : Byte) (p : List Byte) : List Byte := be32 2 ++ [vb] ++ ab.ser ++ p
def leafBox (vb : Byte) (p : List Byte) : List Byte := be32 2 ++ [vb] ++ (Tree.leaf 0x61).ser ++ p

/-- The right comb over a list of symbols: a tree builder that is not the reference one. -/
def comb : List Byte → Tree
  | [] => .leaf 0
  | [s] => .leaf s
  | s :: t :: d => .internal (.leaf s) (comb (t :: d))

theorem comb_symbols : ∀ d : List Byte, d ≠ [] → (comb d).symbols = d
  | [], h => absurd rfl h
  | [_], _ => rfl
  | s :: t :: d, _ => by rw [comb, Tree.symbols, comb_symbols (t :: d) (by simp)]; rfl

theorem next_after {s : State} {o : Host.Outcome State Fault Refusal} (h : (sees o).isSome) : o = .next (after s o) := by
  cases o <;> simp_all [sees, after]

theorem holds_tbuf (tb ib : List Byte) : Memory.holds (filled tb ib).tbuf tb := Memory.holds_writeBytes_nil tb
theorem holds_ibuf (tb ib : List Byte) : Memory.holds (filled tb ib).ibuf ib := Memory.holds_writeBytes_nil ib
theorem ready_holds (t : Tree) (ib : List Byte) (vb : BitVec 4) (cnt : Word) :
    Memory.holds (ready t ib vb cnt).ibuf ib := Memory.holds_writeBytes_nil ib
theorem ready_hasTree (t : Tree) (h : t.distinct) (ib : List Byte) (vb : BitVec 4) (cnt : Word) :
    (ready t ib vb cnt).HasTree t := ⟨rfl, code_deriveCodes t h⟩

theorem no_description {d : List Byte} (h : parseTree d = throwErr .malformedContainer) :
    ¬∃ (t : Tree) (rest : List Byte), t.distinct ∧ d = t.ser ++ rest := by
  rintro ⟨t, rest, ht, rfl⟩; rw [parseTree_ser t ht] at h; cases h

theorem no_whole_description {d rest : List Byte} {tm : TreeMem} (h : parseTree d = .ok (tm, rest)) (hr : rest ≠ []) :
    ¬∃ t : Tree, t.distinct ∧ d = t.ser := by
  rintro ⟨t, ht, rfl⟩
  have := parseTree_ser t ht []
  rw [List.append_nil, h] at this
  cases this; exact hr rfl

/-! ### Command words and steps -/

theorem witness_ReservedWord : ∀ w ∈ [0x00000007#32, 0x000000FF#32, 0x00000100#32, 0xFFFFFFFF#32],
    (w.extractLsb' 8 24 ≠ 0#24 ∨ 7 ≤ (w.extractLsb' 0 8).toNat) ∧ (issuing State.reset w).busy = false ∧
      (issuing State.reset w).host.script = cmdWrite w :: [] := by
  intro w h
  refine ⟨?_, rfl, rfl⟩
  simp at h
  rcases h with rfl | rfl | rfl | rfl
  · exact .inr (Nat.le_of_ble_eq_true rfl)
  · exact .inr (Nat.le_of_ble_eq_true rfl)
  · exact .inl (by decide)
  · exact .inl (by decide)
theorem witness_ReservedWord_not : ¬((0x00000006#32).extractLsb' 8 24 ≠ 0#24 ∨ 7 ≤ ((0x00000006#32).extractLsb' 0 8).toNat) := by
  decide
theorem witness_StepRunsDecodedCommand : (State.reset.withFetchWord 32 6).busy = false ∧
    (State.reset.withFetchWord 32 6).host.script = cmdWrite 0x00000006#32 :: [] ∧ decode 0x00000006#32 = .ok .decode := by
  decide
theorem witness_IdleBlockHoldsItsState : (ready ab [0x40] 2 2).busy = false ∧ (ready ab [0x40] 2 2).host.script = [] := by
  decide

/-! ### Descriptions and trees -/

theorem witness_ParseTree_ok : parseTree abTail = .ok (ab.records 0, [0x00]) ∧ ab.distinct := by decide
theorem witness_ParseTree_unique : ∃ x : List Byte, abTail = ab.ser ++ x := ⟨[0x00], rfl⟩
theorem witness_ParseTree_empty : ¬∃ (t : Tree) (rest : List Byte), t.distinct ∧ [] = t.ser ++ rest :=
  no_description (by decide)
theorem witness_ParseTree_tag : ¬∃ (t : Tree) (rest : List Byte), t.distinct ∧ [0x02#8, 0x61#8] = t.ser ++ rest :=
  no_description (by decide)
theorem witness_ParseTree_duplicate :
    ¬∃ (t : Tree) (rest : List Byte), t.distinct ∧ [0x00#8, 0x01#8, 0x61#8, 0x01#8, 0x61#8] = t.ser ++ rest :=
  no_description (by decide)
/-- One symbol and all 256: the ends of the range of R13. -/
theorem witness_TreeSizes : (Tree.leaf 0x61).distinct ∧ (comb allSymbols).distinct ∧
    (comb allSymbols).symbols.length = Config.alphabet := by
  have h : (comb allSymbols).symbols = allSymbols := comb_symbols _ (List.ne_nil_of_mem (mem_allSymbols 0))
  exact ⟨by decide, by rw [Tree.distinct, h]; exact nodup_allSymbols, by rw [h, allSymbols, List.length_map, List.length_range]⟩
theorem witness_DeriveCodes : abracadabra.distinct ∧ ∃ l r, abracadabra = .internal l r := ⟨by decide, _, _, rfl⟩
theorem witness_DeriveCodes_leaf : (Tree.leaf 0x61).distinct ∧ ∃ s, Tree.leaf 0x61 = .leaf s := ⟨by decide, _, rfl⟩
theorem witness_CodeTable : abracadabra.distinct ∧
    (deriveCodes (abracadabra.records 0)).code 0x61 = some [false] ∧
    (deriveCodes (abracadabra.records 0)).code 0x72 = some [true, true, true] ∧ (0x61#8 : Byte) ≠ 0x72#8 := by decide
theorem witness_CodeTable_leaf : (Tree.leaf 0x61).distinct ∧
    (deriveCodes ((Tree.leaf 0x61).records 0)).code 0x61 = some [false] := by decide
theorem witness_Ldtree : ab.distinct ∧ (filled ab.ser []).tlen.toNat = ab.ser.length ∧
    Memory.holds (filled ab.ser []).tbuf ab.ser := ⟨by decide, by decide, holds_tbuf _ _⟩
theorem witness_Tbuf_tail : (filled abTail [0x61]).tlen.toNat = abTail.length ∧
    Memory.holds (filled abTail [0x61]).tbuf abTail ∧ (¬∃ t : Tree, t.distinct ∧ abTail = t.ser) ∧
    0 < (filled abTail [0x61]).ilen.toNat ∧ (filled abTail [0x61]).ilen.toNat ≤ (filled abTail [0x61]).caps.ibuf.val :=
  ⟨by decide, holds_tbuf _ _, no_whole_description (rest := [0x00]) (tm := ab.records 0) (by decide) (by decide), by decide,
    by decide⟩
theorem witness_Tbuf_empty : (filled [] [0x61]).tlen.toNat = ([] : List Byte).length ∧
    Memory.holds (filled [] [0x61]).tbuf [] ∧ (¬∃ t : Tree, t.distinct ∧ [] = t.ser) :=
  ⟨by decide, holds_tbuf _ _, fun ⟨t, ht, h⟩ => no_description (d := []) (by decide) ⟨t, [], ht, by simpa using h⟩⟩
theorem witness_Tlen_large : 767 < ({ filled [] [0x61] with tlen := 768 } : State).tlen.toNat ∧
    0 < ({ filled [] [0x61] with tlen := 768 } : State).ilen.toNat := by decide
theorem witness_Tlen_zero : (filled [] [0x61]).tlen.toNat = 0 ∧ 0 < (filled [] [0x61]).ilen.toNat := by decide
theorem witness_Tlen_one : (filled [0x01] [0x61]).tlen.toNat = 1 ∧ Memory.written (filled [0x01] [0x61]).tbuf 1 :=
  ⟨by decide, (Memory.written_iff_exists_holds _ _).mpr ⟨[0x01], rfl, holds_tbuf _ _⟩⟩

/-! ### Packing -/

theorem witness_PackedBytes : ∃ S : Bits, S = [0x61#8, 0x62#8].flatMap (fun s => ((deriveCodes (ab.records 0)).code s).getD []) ∧
    0 < S.length ∧ S.length ≤ 7 ∧ 7 < 8 * ((S.length + 7) / 8) := ⟨[false, true], by decide⟩
theorem witness_LastByte : 1 ≤ 1 ∧ 1 ≤ 8 ∧ 1 ≤ 9 := by decide
theorem witness_Pack : (ready ab [0x61, 0x62] 0 0).phase = .treeReady ∧
    (ready ab [0x61, 0x62] 0 0).ilen.toNat = [0x61#8, 0x62#8].length ∧
    (ready ab [0x61, 0x62] 0 0).ilen.toNat ≤ (ready ab [0x61, 0x62] 0 0).caps.ibuf.val ∧
    Memory.holds (ready ab [0x61, 0x62] 0 0).ibuf [0x61, 0x62] ∧
    (∀ x ∈ [0x61#8, 0x62#8], ((ready ab [0x61, 0x62] 0 0).ct.code x).isSome) ∧
    ((codeStream (ready ab [0x61, 0x62] 0 0).ct [0x61, 0x62]).length + 7) / 8 ≤ (ready ab [0x61, 0x62] 0 0).caps.obuf.val :=
  ⟨by decide, by decide, by decide, ready_holds _ _ _ _, by decide, by decide⟩
theorem witness_NeedTree : State.reset.phase ≠ .treeReady ∧ State.reset.ilen.toNat ≤ State.reset.caps.ibuf.val ∧
    State.reset.symcnt.toNat ≤ State.reset.caps.obuf.val := by decide
theorem witness_EmptyInput : (ready ab [] 0 0).ilen.toNat = 0 ∧ (ready ab [] 0 0).phase = .treeReady := by decide
theorem witness_MissingCode_pack : (ready ab [0x61, 0x63] 0 0).ilen.toNat = [0x61#8, 0x63#8].length ∧
    (ready ab [0x61, 0x63] 0 0).ilen.toNat ≤ (ready ab [0x61, 0x63] 0 0).caps.ibuf.val ∧
    Memory.holds (ready ab [0x61, 0x63] 0 0).ibuf [0x61, 0x63] ∧ (ready ab [0x61, 0x63] 0 0).phase = .treeReady ∧
    ∃ x ∈ [0x61#8, 0x63#8], (ready ab [0x61, 0x63] 0 0).ct.code x = none :=
  ⟨by decide, by decide, ready_holds _ _ _ _, by decide, by decide⟩
theorem witness_MissingCode_encode : (filled ab.ser [0x63]).ilen.toNat = [0x63#8].length ∧
    (filled ab.ser [0x63]).ilen.toNat ≤ (filled ab.ser [0x63]).caps.ibuf.val ∧
    Memory.holds (filled ab.ser [0x63]).ibuf [0x63] ∧ ab.distinct ∧
    (filled ab.ser [0x63]).tlen.toNat = ab.ser.length ∧ Memory.holds (filled ab.ser [0x63]).tbuf ab.ser ∧
    ∃ x ∈ [0x63#8], x ∉ ab.symbols :=
  ⟨by decide, by decide, holds_ibuf _ _, by decide, by decide, holds_tbuf _ _, by decide⟩

/-! ### Unpacking -/

/-- The premises the statements about `UNPACK` share. -/
theorem witness_Unpack_base : ∀ t ∈ [ab, .leaf 0x61], ∀ p ∈ [[], [0x40#8]], ∀ cnt ∈ [0#32, 2#32, 3#32],
    (ready t p 2 cnt).phase = .treeReady ∧ t.distinct ∧ (ready t p 2 cnt).HasTree t ∧
    (ready t p 2 cnt).ilen.toNat = p.length ∧ (ready t p 2 cnt).ilen.toNat ≤ (ready t p 2 cnt).caps.ibuf.val ∧
    Memory.holds (ready t p 2 cnt).ibuf p ∧ badValidBits p.length (ready t p 2 cnt).vbits.toNat = false ∧
    (ready t p 2 cnt).symcnt.toNat ≤ (ready t p 2 cnt).caps.obuf.val := by
  intro t ht p hp cnt hc
  have hd : t.distinct := by simp at ht; rcases ht with rfl | rfl <;> decide
  refine ⟨rfl, hd, ready_hasTree t hd p 2 cnt, ?_, ?_, ready_holds t p 2 cnt, ?_, ?_⟩
  · simp at hp; rcases hp with rfl | rfl <;> rfl
  · simp at hp; rcases hp with rfl | rfl <;> exact Nat.le_of_ble_eq_true rfl
  · simp at hp; rcases hp with rfl | rfl <;> rfl
  · simp at hc; rcases hc with rfl | rfl | rfl <;> exact Nat.le_of_ble_eq_true rfl
/-- With `witness_Unpack_base` at `ab`, `[0x40]`, 2: the two codes and nothing left over. -/
theorem witness_Unpack : (∀ x ∈ [0x61#8, 0x62#8], x ∈ ab.symbols) ∧
    validBits [0x40] 2 = ab.stream [0x61, 0x62] ++ [] ∧ (2#32).toNat = [0x61#8, 0x62#8].length := by decide
/-- At `ab`, `[]`, 0: nothing packed, nothing owed. -/
theorem witness_Unpack_empty : validBits [] 2 = ab.stream [] ++ [] ∧ (0#32).toNat = ([] : List Byte).length := by decide
/-- At `ab`, `[0x40]`, 3: three symbols owed, two there. -/
theorem witness_Truncated : (∀ x ∈ [0x61#8, 0x62#8, 0x62#8], x ∈ ab.symbols) ∧ [true] ≠ [] ∧
    ab.stream [0x61, 0x62, 0x62] = validBits [0x40] 2 ++ [true] ∧ (3#32).toNat = [0x61#8, 0x62#8, 0x62#8].length := by decide
/-- At the degenerate tree, `[0x40]`, 2: the bits 0, 1. -/
theorem witness_Corrupt : validBits [0x40] 2 = List.replicate 1 false ++ true :: [] ∧ 1 < (2#32).toNat := by decide
theorem witness_ValidBits_unpack : ∀ vb ∈ [0#4, 9#4], (ready ab [0x40] vb 2).ilen.toNat ≤ (ready ab [0x40] vb 2).caps.ibuf.val ∧
    (ready ab [0x40] vb 2).phase = .treeReady ∧ (ready ab [0x40] vb 2).symcnt.toNat ≤ (ready ab [0x40] vb 2).caps.obuf.val ∧
    1 ≤ (ready ab [0x40] vb 2).ilen.toNat ∧
    ((ready ab [0x40] vb 2).vbits.toNat < 1 ∨ 8 < (ready ab [0x40] vb 2).vbits.toNat) := by decide
theorem witness_ValidBits_decode : ∀ vb ∈ [0#8, 9#8], (filled [] (abBox vb [0x40])).ilen.toNat = (abBox vb [0x40]).length ∧
    (filled [] (abBox vb [0x40])).ilen.toNat ≤ (filled [] (abBox vb [0x40])).caps.ibuf.val ∧
    Memory.holds (filled [] (abBox vb [0x40])).ibuf (abBox vb [0x40]) ∧ (vb.toNat < 1 ∨ 8 < vb.toNat) := by
  intro vb h
  refine ⟨?_, ?_, holds_ibuf _ _, ?_⟩ <;> (simp at h; rcases h with rfl | rfl <;> decide)

/-! ### The container -/

theorem witness_ParseContainer : (comb allSymbols).distinct ∧ ab.distinct ∧ 1 ≤ 1 ∧ 8 ≤ 8 :=
  ⟨witness_TreeSizes.2.1, by decide, by decide, by decide⟩
theorem witness_Encode : ab.distinct ∧ (filled ab.ser [0x61, 0x62]).tlen.toNat = ab.ser.length ∧
    Memory.holds (filled ab.ser [0x61, 0x62]).tbuf ab.ser ∧
    (filled ab.ser [0x61, 0x62]).ilen.toNat = [0x61#8, 0x62#8].length ∧
    (filled ab.ser [0x61, 0x62]).ilen.toNat ≤ (filled ab.ser [0x61, 0x62]).caps.ibuf.val ∧
    Memory.holds (filled ab.ser [0x61, 0x62]).ibuf [0x61, 0x62] ∧ (∀ x ∈ [0x61#8, 0x62#8], x ∈ ab.symbols) ∧
    5 + ab.ser.length + ((ab.stream [0x61, 0x62]).length + 7) / 8 ≤ (filled ab.ser [0x61, 0x62]).caps.obuf.val :=
  ⟨by decide, by decide, holds_tbuf _ _, by decide, by decide, holds_ibuf _ _, by decide, by decide⟩
/-- The premises the statements about `DECODE` share; the valid-bit field is free when there is no packed byte. -/
theorem witness_Decode_base : ∀ c ∈ [abBox 2 [0x40], leafBox 2 [0x40], be32 0 ++ [0xFF#8] ++ ab.ser ++ []],
    (filled [] c).ilen.toNat = c.length ∧ (filled [] c).ilen.toNat ≤ (filled [] c).caps.ibuf.val ∧
    Memory.holds (filled [] c).ibuf c ∧ (2#32).toNat ≤ (filled [] c).caps.obuf.val := by
  intro c h
  refine ⟨?_, ?_, holds_ibuf _ _, ?_⟩ <;> (simp at h; rcases h with rfl | rfl | rfl <;> decide)
/-- With `witness_Decode_base` at `abBox 2 [0x40]`, and at the empty container. -/
theorem witness_Decode : ab.distinct ∧ badValidBits [0x40#8].length (2#8).toNat = false ∧
    (2#32).toNat = [0x61#8, 0x62#8].length ∧ (∀ x ∈ [0x61#8, 0x62#8], x ∈ ab.symbols) ∧
    validBits [0x40] (2#8).toNat = ab.stream [0x61, 0x62] ++ [] ∧
    badValidBits ([] : List Byte).length (0xFF#8).toNat = false ∧ validBits [] (0xFF#8).toNat = ab.stream [] ++ [] := by decide
theorem witness_DecodeMalformed_short : (filled [] [0, 0, 0, 1]).ilen.toNat < 5 ∧
    (filled [] [0, 0, 0, 1]).ilen.toNat ≤ (filled [] [0, 0, 0, 1]).caps.ibuf.val := by decide
/-- A header and nothing more (`ILEN = 5`), and a bad tag. -/
theorem witness_DecodeMalformed : ∀ b ∈ [[], [0x02#8]],
    (filled [] (be32 1 ++ [0x01#8] ++ b)).ilen.toNat = (be32 1 ++ [0x01#8] ++ b).length ∧
    Memory.holds (filled [] (be32 1 ++ [0x01#8] ++ b)).ibuf (be32 1 ++ [0x01#8] ++ b) ∧
    ¬∃ (t : Tree) (p : List Byte), t.distinct ∧ b = t.ser ++ p := by
  intro b h
  refine ⟨?_, holds_ibuf _ _, no_description ?_⟩ <;> (simp at h; rcases h with rfl | rfl <;> decide)
/-- With `witness_Decode_base` at `abBox 2 [0x40]`: two symbols owed whose codes are longer than the valid bits cannot be had
from `ab`, so the tree of "abracadabra" here. -/
theorem witness_DecodeTruncated : abracadabra.distinct ∧
    (filled [] (be32 2 ++ [0x02#8] ++ abracadabra.ser ++ [0x40])).ilen.toNat =
      (be32 2 ++ [0x02#8] ++ abracadabra.ser ++ [0x40]).length ∧
    Memory.holds (filled [] (be32 2 ++ [0x02#8] ++ abracadabra.ser ++ [0x40])).ibuf
      (be32 2 ++ [0x02#8] ++ abracadabra.ser ++ [0x40]) ∧
    (∀ x ∈ [0x61#8, 0x62#8], x ∈ abracadabra.symbols) ∧ [true, false] ≠ [] ∧
    abracadabra.stream [0x61, 0x62] = validBits [0x40] (2#8).toNat ++ [true, false] :=
  ⟨by decide, by decide, holds_ibuf _ _, by decide, by decide, by decide⟩
/-- With `witness_Decode_base` at `leafBox 2 [0x40]`. -/
theorem witness_DecodeCorrupt : badValidBits [0x40#8].length (2#8).toNat = false ∧
    validBits [0x40] (2#8).toNat = List.replicate 1 false ++ true :: [] ∧ 1 < (2#32).toNat := by decide

/-! ### Laws between commands -/

/-- The state after `ENCODE` of "ab", and its container (R222). -/
def encoded : State := after State.reset (exec .encode (filled ab.ser [0x61, 0x62]))

theorem holds_of_bytes {m : List Host.Cell} {d : List Byte} (h : Memory.readBytes m 0 d.length = .ok d) :
    Memory.holds m d := ((Memory.readBytes_zero_eq_ok_iff m d.length d).mp h).2

theorem witness_DecodeInvertsEncode : (filled ab.ser [0x61, 0x62]).ilen.toNat = [0x61#8, 0x62#8].length ∧
    Memory.holds (filled ab.ser [0x61, 0x62]).ibuf [0x61, 0x62] ∧
    exec .encode (filled ab.ser [0x61, 0x62]) = .next encoded ∧ encoded.err = none ∧
    encoded.olen.toNat = (abBox 2 [0x40]).length ∧ Memory.holds encoded.obuf (abBox 2 [0x40]) ∧
    (filled [] (abBox 2 [0x40])).ilen.toNat = (abBox 2 [0x40]).length ∧
    Memory.holds (filled [] (abBox 2 [0x40])).ibuf (abBox 2 [0x40]) ∧
    (filled [] (abBox 2 [0x40])).ilen.toNat ≤ (filled [] (abBox 2 [0x40])).caps.ibuf.val ∧
    [0x61#8, 0x62#8].length ≤ (filled [] (abBox 2 [0x40])).caps.obuf.val :=
  ⟨by decide, holds_ibuf _ _, next_after (by decide), by decide, by decide, holds_of_bytes (by decide), by decide,
    holds_ibuf _ _, by decide, by decide⟩
/-- `LDTREE` and then `PACK`, from the same inputs. -/
def loaded (tb ib : List Byte) : State := after State.reset (exec .ldtree (filled tb ib))
def packed (tb ib : List Byte) : State := after State.reset (exec .pack (loaded tb ib))
/-- The pair succeeds. -/
theorem witness_EncodeIsLdtreeThenPack : exec .ldtree (filled ab.ser [0x61, 0x62]) = .next (loaded ab.ser [0x61, 0x62]) ∧
    exec .pack (loaded ab.ser [0x61, 0x62]) = .next (packed ab.ser [0x61, 0x62]) ∧
    (packed ab.ser [0x61, 0x62]).err = none ∧ (filled ab.ser [0x61, 0x62]).tlen.toNat = ab.ser.length ∧
    Memory.holds (filled ab.ser [0x61, 0x62]).tbuf ab.ser ∧ (packed ab.ser [0x61, 0x62]).olen.toNat = [0x40#8].length ∧
    Memory.holds (packed ab.ser [0x61, 0x62]).obuf [0x40] ∧
    5 + ab.ser.length + [0x40#8].length ≤ (filled ab.ser [0x61, 0x62]).caps.obuf.val :=
  ⟨next_after (by decide), next_after (by decide), by decide, by decide, holds_tbuf _ _, by decide, holds_of_bytes (by decide),
    by decide⟩
/-- `PACK` fails (a symbol without a code, no input), `LDTREE` fails (with input and without). -/
theorem witness_EncodeIsLdtreeThenPack_fails : ∀ x ∈ [(ab.ser, [0x63#8], none, some ErrCode.missingCode),
      (ab.ser, [], none, some .emptyInput), (abTail, [0x61#8], some .malformedContainer, some .illegalCommand),
      (abTail, [], some .malformedContainer, some .illegalCommand)],
    exec .ldtree (filled x.1 x.2.1) = .next (loaded x.1 x.2.1) ∧
    exec .pack (loaded x.1 x.2.1) = .next (packed x.1 x.2.1) ∧ (loaded x.1 x.2.1).err = x.2.2.1 ∧
    (packed x.1 x.2.1).err = x.2.2.2 := by
  intro x h
  refine ⟨next_after ?_, next_after ?_, ?_, ?_⟩ <;>
    (simp at h; rcases h with rfl | rfl | rfl | rfl <;> decide)
/-- `LDTREE` of the description, then `UNPACK` of the packed bytes of the container with valid-bit field `vb`. -/
def unpacking (vb : BitVec 4) : State :=
  { loaded ab.ser [] with ibuf := Memory.writeBytes [] 0 [0x40], ilen := 1, vbits := vb, symcnt := 2 }
theorem witness_DecodeIsLdtreeThenUnpack : ∀ x ∈ [(2#4, 2#8), (0#4, 0#8)],
    (filled [] (abBox x.2 [0x40])).ilen.toNat = (abBox x.2 [0x40]).length ∧
    (filled [] (abBox x.2 [0x40])).ilen.toNat ≤ (filled [] (abBox x.2 [0x40])).caps.ibuf.val ∧
    Memory.holds (filled [] (abBox x.2 [0x40])).ibuf (abBox x.2 [0x40]) ∧
    (2#32).toNat ≤ (filled [] (abBox x.2 [0x40])).caps.obuf.val ∧
    ab.distinct ∧ (filled ab.ser []).tlen.toNat = ab.ser.length ∧ Memory.holds (filled ab.ser []).tbuf ab.ser ∧
    exec .ldtree (filled ab.ser []) = .next (loaded ab.ser []) ∧ (unpacking x.1).phase = (loaded ab.ser []).phase ∧
    (unpacking x.1).tm = (loaded ab.ser []).tm ∧ (unpacking x.1).ct = (loaded ab.ser []).ct ∧
    (unpacking x.1).ilen.toNat = [0x40#8].length ∧ Memory.holds (unpacking x.1).ibuf [0x40] ∧
    (unpacking x.1).vbits.toNat = x.2.toNat ∧ (unpacking x.1).symcnt = 2 ∧
    exec .unpack (unpacking x.1) = .next (after State.reset (exec .unpack (unpacking x.1))) := by
  intro x h
  refine ⟨?_, ?_, holds_ibuf _ _, ?_, by decide, by decide, holds_tbuf _ _, next_after (by decide), rfl, rfl, rfl, rfl,
    Memory.holds_writeBytes_nil _, ?_, rfl, next_after ?_⟩ <;> (simp at h; rcases h with rfl | rfl <;> decide)
/-! ### Sequencing, errors, frames, the invariant -/

/-- Every word from a state in `TreeReady` with "ab" everywhere: each completes. -/
def every : State := { ready ab [0x61, 0x62] 2 2 with tbuf := Memory.writeBytes [] 0 ab.ser, tlen := 5 }
/-- A state as unlike `every` as can be in what no command reads of it. -/
def unlike : State :=
  { State.reset with err := some .corruptCode, olen := 1, obuf := [(0, 7)], work := Config.freeWork 5, vbits := 9, symcnt := 7 }
/-- `PACK` from two states that differ in `TBUF`, `TLEN`, `VBITS`, `SYMCNT`, `ERR`, `OLEN`, `OBUF` and beyond `ILEN`. -/
theorem witness_SameOperands_pack : State.SameOperands .pack every
    { unlike with ibuf := Memory.write every.ibuf 2 0xFF, ilen := 2, phase := .treeReady, tm := every.tm, ct := every.ct } :=
  ⟨rfl, by simp, fun _ => ⟨rfl, by decide⟩, by simp, fun _ => ⟨rfl, fun _ => ⟨rfl, rfl⟩⟩⟩
theorem witness_SameOperands_unpack : State.SameOperands .unpack every
    { unlike with ibuf := every.ibuf, ilen := 2, vbits := 2, symcnt := 2, phase := .treeReady, tm := every.tm, ct := every.ct } :=
  ⟨rfl, by simp, fun _ => ⟨rfl, by decide⟩, fun _ => ⟨rfl, rfl⟩, fun _ => ⟨rfl, fun _ => ⟨rfl, rfl⟩⟩⟩
/-- `LDTREE`, `ENCODE` and `DECODE` from a state with a tree loaded and from one without. -/
theorem witness_SameOperands_ldtree : State.SameOperands .ldtree every { unlike with tbuf := every.tbuf, tlen := 5 } :=
  ⟨rfl, fun _ => ⟨rfl, fun _ _ => rfl⟩, by simp, by simp, by simp⟩
theorem witness_SameOperands_encode : State.SameOperands .encode every
    { unlike with tbuf := every.tbuf, tlen := 5, ibuf := every.ibuf, ilen := 2 } :=
  ⟨rfl, fun _ => ⟨rfl, fun _ _ => rfl⟩, fun _ => ⟨rfl, fun _ _ => rfl⟩, by simp, by simp⟩
theorem witness_SameOperands_decode : State.SameOperands .decode every { unlike with ibuf := every.ibuf, ilen := 2 } :=
  ⟨rfl, by simp, fun _ => ⟨rfl, fun _ _ => rfl⟩, by simp, by simp⟩
theorem witness_SameOperands_clear : State.SameOperands .clear every unlike := ⟨rfl, by simp, by simp, by simp, by simp⟩
theorem witness_PhaseTable : ∀ w ∈ [0#32, 1#32, 2#32, 3#32, 4#32, 5#32, 6#32, 7#32, 0x100#32],
    issueWord w every = .next (after State.reset (issueWord w every)) := by
  intro w h
  refine next_after ?_
  simp at h
  rcases h with rfl | rfl | rfl | rfl | rfl | rfl | rfl | rfl | rfl <;> decide
/-- The commands after which the tree is gone, and that complete without error here. -/
theorem witness_TreeServesOneTranscoding : ∀ i ∈ [Instr.clear, .ldtree, .pack, .unpack, .encode, .decode], i ≠ .nop ∧
    exec i every = .next (after State.reset (exec i every)) := fun i h => ⟨by revert i; decide, next_after (by revert i; decide)⟩
theorem witness_TreeServesOneTranscoding_done : (after State.reset (exec .pack every)).phase = .done ∧
    (after State.reset (exec .clear every)).phase = .start ∧
    (after State.reset (exec .pack every)).ilen.toNat ≤ (after State.reset (exec .pack every)).caps.ibuf.val ∧
    (after State.reset (exec .pack every)).symcnt.toNat ≤ (after State.reset (exec .pack every)).caps.obuf.val := by decide
theorem witness_RaisedErrorEndsTheCall : ∀ x ∈ [(Instr.ldtree, ErrCode.malformedContainer), (.pack, .illegalCommand),
      (.unpack, .illegalCommand), (.encode, .emptyInput), (.decode, .malformedContainer)],
    x.1 ≠ .nop ∧ exec x.1 State.reset = .next (after State.reset (exec x.1 State.reset)) ∧
    (after State.reset (exec x.1 State.reset)).err = some x.2 :=
  fun x h => ⟨by revert x; decide, next_after (by revert x; decide), by revert x; decide⟩
theorem witness_CommandsKeepTheHostsInputs : exec .pack every = .next (after State.reset (exec .pack every)) ∧
    exec .unpack every = .next (after State.reset (exec .unpack every)) ∧
    ¬(Instr.unpack ∈ [Instr.pack, .encode] ∧ (after State.reset (exec .unpack every)).err = none) :=
  ⟨next_after (by decide), next_after (by decide), by decide⟩
theorem every_ibuf (d : List Byte) (hl : d.length = every.ilen.toNat) (h : Memory.holds every.ibuf d) : d = [0x61, 0x62] :=
  Memory.holds_unique (by rw [hl]; rfl) h (ready_holds ab [0x61, 0x62] 2 2)
theorem every_ibuf_written : Memory.written every.ibuf every.ilen.toNat :=
  (Memory.written_iff_exists_holds _ _).mpr ⟨[0x61, 0x62], rfl, ready_holds ab [0x61, 0x62] 2 2⟩
theorem every_tbuf_written : Memory.written every.tbuf every.tlen.toNat :=
  (Memory.written_iff_exists_holds _ _).mpr ⟨ab.ser, rfl, Memory.holds_writeBytes_nil _⟩
theorem witness_Admits_nop_clear_ldtree : every.Admits .nop ∧ every.Admits .clear ∧ every.Admits .ldtree :=
  ⟨trivial, trivial, fun _ => every_tbuf_written⟩
theorem witness_Admits_pack : every.Admits .pack :=
  ⟨by decide, fun _ => ⟨every_ibuf_written, fun d hl h => by rw [every_ibuf d hl h]; decide⟩⟩
theorem witness_Admits_unpack : every.Admits .unpack := ⟨by decide, by decide, fun _ => every_ibuf_written⟩
theorem witness_Admits_encode : every.Admits .encode := by
  refine ⟨by decide, fun _ => ⟨every_ibuf_written, fun _ => ⟨every_tbuf_written, fun t d h1 h2 h3 h4 => ?_⟩⟩⟩
  have ht : t.ser = ab.ser := Memory.holds_unique (by rw [h1]; rfl) h2 (Memory.holds_writeBytes_nil _)
  rw [(Tree.ser_append_inj (congrArg (· ++ []) ht)).1, every_ibuf d h3 h4]; decide
theorem witness_Admits_decode : (filled [] (abBox 2 [0x40])).Admits .decode := by
  refine ⟨by decide, fun _ => ⟨(Memory.written_iff_exists_holds _ _).mpr ⟨abBox 2 [0x40], by decide, holds_ibuf _ _⟩,
    fun c0 c1 c2 c3 c h1 h2 => ?_⟩⟩
  have h : c0 :: c1 :: c2 :: c3 :: c = abBox 2 [0x40] :=
    Memory.holds_unique (by rw [h1]; decide) h2 (holds_ibuf [] (abBox 2 [0x40]))
  cases h; decide
/-- The reason a command was refused. -/
def whyRefused (o : Host.Outcome State Fault Refusal) : Option Refusal :=
  match o with
  | .refused r => some r
  | .next _ => none
  | .fault _ => none
/-- The smallest capacities (R14). -/
def small : Config.Caps := { ibuf := ⟨5, by decide⟩, obuf := ⟨1, by decide⟩ }
/-- An input of one byte too many; a byte of each valid prefix without a value. -/
theorem witness_CommandStops :
    whyRefused (exec .pack { State.reset with ilen := 6, caps := small }) = some .inputBeyondCapacity ∧
    whyRefused (exec .pack { ready ab [0x61] 0 0 with ilen := 2 }) = some (.unwrittenByte .ibuf 1) ∧
    whyRefused (exec .ldtree { filled [0x01] [] with tlen := 2 }) = some (.unwrittenByte .tbuf 1) := by decide
/-- Capacities of 16 bytes in and `n` bytes out. -/
def tight (n : Fin (2 ^ 32)) : Config.Caps := { ibuf := ⟨16, by decide⟩, obuf := n }
/-- A result of one byte too many: 2 symbols, 9 code bits, `5 + 2 + 1` bytes, an original length of 2. -/
theorem witness_CommandStops_result :
    whyRefused (exec .unpack { ready ab [0x40] 2 2 with caps := tight ⟨1, by decide⟩ }) = some .resultBeyondCapacity ∧
    whyRefused (exec .pack { ready ab [0x61, 0x62, 0x61, 0x62, 0x61, 0x62, 0x61, 0x62, 0x61] 0 0 with
      caps := tight ⟨1, by decide⟩ }) = some .resultBeyondCapacity ∧
    whyRefused (exec .encode { filled [0x01, 0x61] [0x61] with caps := tight ⟨7, by decide⟩ }) =
      some .resultBeyondCapacity ∧
    whyRefused (exec .decode { filled [] (abBox 2 [0x40]) with caps := tight ⟨1, by decide⟩ }) =
      some .resultBeyondCapacity := by decide
/-- A state between two steps, with a command to come. -/
theorem witness_StepKeepsTheInvariant : (issuing State.reset.hardReset 6).Inv ∧ step (issuing State.reset.hardReset 6) =
    .next (after State.reset (step (issuing State.reset.hardReset 6))) :=
  ⟨(hardReset_inv State.reset).congr rfl rfl rfl rfl rfl rfl rfl rfl rfl rfl, next_after (by decide)⟩

/-! ### The host's accesses -/

/-- Every register, and the offsets at the ends of what lies above them. -/
theorem witness_RegisterOffsets : every.busy = false ∧
    ∀ off ∈ [0x00, 0x04, 0x08, 0x0C, 0x10, 0x14, 0x18, 0x1C, 0x20, 0xFFC], off % 4 = 0 := by decide
/-- The first and the last byte of each buffer; the first index beyond it. -/
theorem witness_BufferIndices : every.busy = false ∧ (0 < every.capacity .ibuf ∧ 4294967294 < every.capacity .ibuf) ∧
    (0 < every.capacity .tbuf ∧ 766 < every.capacity .tbuf) ∧ 0 < every.capacity .obuf ∧
    every.capacity .tbuf ≤ 767 ∧ every.capacity .ibuf ≤ 4294967295 ∧ every.capacity .obuf ≤ 4294967295 := by decide
theorem witness_ReadsAreIdempotent : ∀ a ∈ [HostAccess.regRead 32 0x10, .bufRead .tbuf 766, .bufRead .obuf 5],
    hostAccess a every = .next (after State.reset (hostAccess a every)) := fun a h => next_after (by revert a; decide)
theorem witness_ReadsAreIdempotent_stored : Memory.read (every.buffer .tbuf) 4 = some 0x62 := by decide
theorem witness_WrongShape : (16 ≠ 32 ∨ 0 % 4 ≠ 0) ∧ (32 ≠ 32 ∨ 2 % 4 ≠ 0) := by decide
theorem witness_Busy : ({ every with busy := true } : State).busy = true ∧ (0 % 4 = 0 ∧ 0 ≠ 4) ∧ (0x1C % 4 = 0 ∧ 0x1C ≠ 4) := by
  decide
theorem witness_Reset : ({ every with busy := true, host := { script := [.reset, .wait], seen := [] } } : State).host.script =
    .reset :: [.wait] := rfl
theorem witness_BufferReadAfterWrite : Memory.wf [(0, 0x61), (4, 0x62)] := by decide

/-! ### Micro-steps and host stages -/

/-- A description at index 5, as in a container; a malformed one; the shortest fuel. -/
theorem witness_ParseMicro : 5 ≤ (abBox 2 [0x40]).length ∧ (abBox 2 [0x40]).length - 5 < 7 ∧
    parseTree ((abBox 2 [0x40]).drop 5) = .ok (ab.records 0, [0x40]) ∧ 5 ≤ 5 ∧ 5 - 5 < 1 ∧
    parseTree ((be32 0 ++ [0x00#8]).drop 5) = throwErr .malformedContainer := by decide
/-- All symbols have codes; the second has none; the only one has none. -/
theorem witness_PackMicro : codeStream (deriveCodes (ab.records 0)) [0x61, 0x62] ≠ [] ∧
    packSymbols (deriveCodes (ab.records 0)) [0x61, 0x62] = .ok ([0x40], 2) ∧
    packSymbols (deriveCodes (ab.records 0)) [0x61, 0x63] = throwErr .missingCode ∧
    packSymbols (deriveCodes (ab.records 0)) [0x63] = throwErr .missingCode := by decide
theorem witness_DeriveMicro : (abracadabra.records 0).length ≤ 9 ∧ ((Tree.leaf 0x61).records 0).length ≤ 1 := by decide
theorem witness_WalkMicro : 10 ≤ (abBox 2 [0x40]).length ∧
    badValidBits ((abBox 2 [0x40]).length - 10) 2 = false ∧ nValid ((abBox 2 [0x40]).length - 10) 2 < 3 ∧
    unpackBits (ab.records 0) ((abBox 2 [0x40]).drop 10) 2 2 = .ok [0x61, 0x62] ∧
    unpackBits (ab.records 0) ((abBox 2 [0x40]).drop 10) 2 3 = throwErr .truncatedStream := by decide
theorem witness_HostRoundTrip : TreeBuilder (fun F => comb (F.map Prod.fst)) ∧ [0x61#8] ≠ [] ∧ [0x61#8].length < 2 ^ 32 ∧
    State.reset.busy = false ∧ [0x61#8].length ≤ State.reset.caps.ibuf.val ∧
    772 + 32 * [0x61#8].length ≤ State.reset.caps.obuf.val ∧ [0x61#8].length ≤ State.reset.caps.obuf.val ∧
    772 + 32 * [0x61#8].length ≤ State.reset.caps.ibuf.val := by
  refine ⟨fun F hF hn => ?_, by decide⟩
  have h : (comb (F.map Prod.fst)).symbols = F.map Prod.fst := comb_symbols _ (by simpa using hF)
  exact ⟨by rw [Tree.distinct, h]; exact hn, fun s => by rw [h]⟩

end Sys2Proof.Tests
end

/-! PROOFS. The scope's size bounds on trees (spec 00_scope.md R13, 30_encoding.md R100). -/

namespace Sys2Proof.Machine

/-- A full binary tree has one node less than twice its leaves, and `TM` holds one record a node (R13, R32). -/
theorem Tree.records_length_add_one (t : Tree) (n : Nat) : (t.records n).length + 1 = 2 * t.symbols.length := by
  rw [t.records_length n, t.size_add_one]

/-- Settles O9: nodes, depth and description are each bounded by the number `L` of leaf symbols, and `L ≤ 256` gives the
fixed limits. -/
theorem treeSizesAreBounded : Obligations.TreeSizesAreBounded := by
  intro t hdistinct
  have hsymbols : t.symbols.length ≤ 256 := nodup_bytes_length_le hdistinct
  have hnodes := t.records_length_add_one 0
  have hdepth : t.depth + 1 ≤ t.symbols.length := t.depth_lt_symbols_length
  have hser := t.ser_length
  refine ⟨hsymbols, hnodes, ?maxNodes, hdepth, ?maxCodeLen, hser, ?tbufCap⟩
  case maxNodes => rw [Config.maxNodes]; omega
  case maxCodeLen => rw [Config.maxCodeLen]; omega
  case tbufCap => rw [Config.tbufCap]; omega

end Sys2Proof.Machine

/-! PROOFS. What one host access does to an idle block, and the invariant every step keeps (spec 10_state.md R24, R31, R33,
R38, 60_exceptions.md R283). -/

namespace Sys2Proof.Machine

/-! ### A step is the next host access -/

theorem step_of_script {s : State} {a : HostAccess} {rest : List HostAccess} (h : s.host.script = a :: rest) :
    step s = hostAccess a s.takeAccess := by
  rw [step, h]

theorem State.takeAccess_of_script {s : State} {a : HostAccess} {rest : List HostAccess} (h : s.host.script = a :: rest) :
    s.takeAccess = { s with host := { s.host with script := rest } } := by
  rw [State.takeAccess, h, List.tail_cons]

theorem step_next_cases {s u : State} (h : step s = .next u) :
    u = s ∨ ∃ a, hostAccess a s.takeAccess = .next u := by
  unfold step at h
  split at h
  next =>
    unfold idle at h
    split at h
    · cases h
    · cases h; exact .inl rfl
  next a rest _ => exact .inr ⟨a, h⟩

/-! ### What a host access can do while `BUSY = 0` -/

theorem hostAccess_cmdWrite {s : State} (hb : s.busy = false) (w : Word) : hostAccess (cmdWrite w) s = issueWord w s := by
  change (if s.busy = true then _ else _) = _
  rw [if_neg (by simp [hb])]

theorem issueWord_command {w : Word} {i : Instr} (h : decode w = .ok i) (s : State) : issueWord w s = exec i s := by
  rw [issueWord, h]

theorem hostWrite_next_cases {width offset : Nat} {v : Word} {s u : State} (h : hostWrite width offset v s = .next u) :
    issueWord v s = .next u ∨ u = s.writeReg (regAt offset) v := by
  unfold hostWrite hostRegWrite at h
  split at h
  · cases h
  split at h <;> split at h
  · cases h
  · exact .inl h
  · cases h
  · cases h; exact .inr rfl

theorem hostRegRead_next {width offset : Nat} {s u : State} (hb : s.busy = false)
    (h : hostRegRead width offset s = .next u) : u = s.saw (.reg offset (s.readReg (regAt offset))) := by
  unfold hostRegRead at h
  split at h
  · cases h
  · rw [if_neg (by simp [hb])] at h; cases h; rfl

theorem hostBufWrite_next {b : Buffer} {i : Nat} {v : Byte} {s u : State} (h : hostBufWrite b i v s = .next u) :
    i < s.capacity b ∧ u = s.writeBuffer b i v := by
  unfold hostBufWrite at h
  split at h
  · cases h
  split at h
  next hi => cases h; exact ⟨hi, rfl⟩
  · cases h

theorem hostBufRead_next {b : Buffer} {i : Nat} {s u : State} (h : hostBufRead b i s = .next u) :
    u = s.saw (.byte b i (s.byteAt b i)) := by
  unfold hostBufRead at h
  split at h
  · cases h
  split at h
  · cases h; rfl
  · cases h

/-- Everything a host access can do to an idle block when it answers a next state: issue a command word, write a register,
write a buffer byte below the capacity, be recorded as a read, or reset the block. -/
theorem hostAccess_next_cases {a : HostAccess} {s u : State} (hb : s.busy = false) (h : hostAccess a s = .next u) :
    (∃ w, issueWord w s = .next u) ∨ (∃ r v, u = s.writeReg r v) ∨
    (∃ b i v, i < s.capacity b ∧ u = s.writeBuffer b i v) ∨ (∃ x, u = s.saw x) ∨ u = s.hardReset := by
  cases a with
  | regWrite width offset v =>
    rcases hostWrite_next_cases h with hi | hw
    · exact .inl ⟨v, hi⟩
    · exact .inr (.inl ⟨_, v, hw⟩)
  | regRead width offset => exact .inr (.inr (.inr (.inl ⟨_, hostRegRead_next hb h⟩)))
  | bufWrite b i v => exact .inr (.inr (.inl ⟨b, i, v, hostBufWrite_next h⟩))
  | bufRead b i => exact .inr (.inr (.inr (.inl ⟨_, hostBufRead_next h⟩)))
  | wait =>
    rw [hostAccess_wait hb] at h
    cases h
    exact .inr (.inr (.inr (.inl ⟨_, rfl⟩)))
  | reset => cases h; exact .inr (.inr (.inr (.inr rfl)))

/-! ### Each of them keeps the invariant -/

theorem issueWord_keeps_inv {w : Word} {s u : State} (hs : s.Inv) (h : issueWord w s = .next u) : u.Inv := by
  unfold issueWord at h
  split at h
  · exact exec_keeps_inv hs h
  · exact execReserved_keeps_inv hs h

/-- `ILEN`, `TLEN`, `VBITS` and `SYMCNT` are no part of the invariant. -/
theorem State.Inv.writeReg {s : State} (hs : s.Inv) (r : Option Reg) (v : Word) : (s.writeReg r v).Inv := by
  rcases r with _ | r
  case none => exact hs
  cases r with
  | ilen | tlen | vbits | symcnt => exact hs.congr rfl rfl rfl rfl rfl rfl rfl rfl rfl rfl
  | cmd | status | olen => exact hs

theorem Memory.write_below {m : List Host.Cell} {n i : Nat} (hm : ∀ c ∈ m, c.1 < n) (hi : i < n) (v : Byte) :
    ∀ c ∈ Memory.write m i v, c.1 < n := by
  intro c hc
  rcases Memory.mem_write hc with rfl | hc
  · exact hi
  · exact hm c hc

/-- The invariant asks of `IBUF` and `TBUF` only the canonical form and the capacities. -/
theorem State.Inv.withInputs {s : State} (hs : s.Inv) {ib tb : List Host.Cell} (hiWf : Memory.wf ib) (htWf : Memory.wf tb)
    (hiCap : ∀ c ∈ ib, c.1 < s.caps.ibuf.val) (htCap : ∀ c ∈ tb, c.1 < Config.tbufCap) :
    ({ s with ibuf := ib, tbuf := tb } : State).Inv :=
  { hs with
    ibufWf := hiWf
    tbufWf := htWf
    ibufCap := hiCap
    tbufCap := htCap
    ready := fun hp =>
      let ⟨t, ht, hloaded⟩ := hs.ready hp
      ⟨t, ht, hloaded.tm, hloaded.ct⟩ }

/-- The host writes below the capacity only (R65), and its writes to `OBUF` are ignored (R260). -/
theorem State.Inv.writeBuffer {s : State} (hs : s.Inv) {b : Buffer} {i : Nat} (hi : i < s.capacity b) (v : Byte) :
    (s.writeBuffer b i v).Inv := by
  cases b with
  | ibuf =>
    exact hs.withInputs (Memory.wf_write hs.ibufWf i v) hs.tbufWf (Memory.write_below hs.ibufCap hi v) hs.tbufCap
  | tbuf =>
    exact hs.withInputs hs.ibufWf (Memory.wf_write hs.tbufWf i v) hs.ibufCap (Memory.write_below hs.tbufCap hi v)
  | obuf => exact hs

theorem State.Inv.saw {s : State} (hs : s.Inv) (x : HostSeen) : (s.saw x).Inv :=
  hs.congr rfl rfl rfl rfl rfl rfl rfl rfl rfl rfl

theorem State.Inv.takeAccess {s : State} (hs : s.Inv) : s.takeAccess.Inv :=
  hs.congr rfl rfl rfl rfl rfl rfl rfl rfl rfl rfl

theorem hostAccess_keeps_inv {a : HostAccess} {s u : State} (hs : s.Inv) (h : hostAccess a s = .next u) : u.Inv := by
  rcases hostAccess_next_cases hs.idle h with ⟨w, hw⟩ | ⟨r, v, rfl⟩ | ⟨b, i, v, hi, rfl⟩ | ⟨x, rfl⟩ | rfl
  · exact issueWord_keeps_inv hs hw
  · exact hs.writeReg r v
  · exact hs.writeBuffer hi v
  · exact hs.saw x
  · exact hardReset_inv s

/-- Settles O43: a step leaves the state as it is or makes one host access, and every host access keeps the invariant. -/
theorem stepKeepsTheInvariant : Obligations.StepKeepsTheInvariant := by
  intro s u hs h
  rcases step_next_cases h with rfl | ⟨a, ha⟩
  · exact hs
  · exact hostAccess_keeps_inv hs.takeAccess ha

/-- Settles O42: `State.reset` and a hardware reset of it differ only in the counters of the free values. -/
theorem resetMeetsTheInvariant : Obligations.ResetMeetsTheInvariant :=
  (hardReset_inv State.reset).congr rfl rfl rfl rfl rfl rfl rfl rfl rfl rfl

/-- Settles O4: the step makes the `CMD` write, the write issues its word, and the word decodes to the command. -/
theorem stepRunsDecodedCommand : Obligations.StepRunsDecodedCommand := by
  intro s w i rest hbusy hscript hdecode
  calc step s = hostAccess (cmdWrite w) s.takeAccess := step_of_script hscript
    _ = issueWord w s.takeAccess := hostAccess_cmdWrite (s := s.takeAccess) hbusy w
    _ = exec i s.takeAccess := issueWord_command hdecode _
    _ = exec i { s with host := { s.host with script := rest } } := by rw [State.takeAccess_of_script hscript]

end Sys2Proof.Machine

/-! PROOFS. The codes of a tree: no one of them begins another (spec 10_state.md R35). -/

namespace Sys2Proof.Machine

/-- No code begins another one, the single code of the degenerate tree included. -/
theorem Tree.codes_prefix_free (t : Tree) (h : t.distinct) :
    ∀ x ∈ t.codes, ∀ y ∈ t.codes, x.2 <+: y.2 → x = y := by
  cases t with
  | leaf s => simp [Tree.codes]
  | internal l r => exact (Tree.internal l r).paths_prefix_free h

theorem mem_codes_of_code_deriveCodes {t : Tree} (h : t.distinct) {s : Byte} {c : Bits}
    (hc : (deriveCodes (t.records 0)).code s = some c) : (s, c) ∈ t.codes :=
  mem_of_lookup_eq_some (by rw [← code_deriveCodes t h s, hc])

theorem mem_symbols_iff_code_isSome (t : Tree) (h : t.distinct) (s : Byte) :
    s ∈ t.symbols ↔ ((deriveCodes (t.records 0)).code s).isSome := by
  rw [code_deriveCodes t h, Option.isSome_iff_ne_none, Ne, t.lookup_codes_none_iff, not_not]

/-- Settles O11: the table's entries are the tree's codes, none of which begins another; each has 1 to 255 bits and
belongs to one leaf. -/
theorem codeTableIsPrefixFree : Obligations.CodeTableIsPrefixFree := by
  intro t hdistinct a b ca cb hca hcb
  have ha := mem_codes_of_code_deriveCodes hdistinct hca
  have hb := mem_codes_of_code_deriveCodes hdistinct hcb
  obtain ⟨hmin, hmax⟩ := t.code_length hdistinct _ ha
  refine ⟨fun hne hprefix => ?prefixFree, hmin, hmax, mem_symbols_iff_code_isSome t hdistinct, fun hleaf => ?degenerate⟩
  case prefixFree => exact hne (congrArg Prod.fst (t.codes_prefix_free hdistinct _ ha _ hb hprefix))
  case degenerate =>
    subst hleaf
    simpa [Tree.codes] using ha

end Sys2Proof.Machine

/-! PROOFS. What a command leaves of the host's inputs, why a command is refused, and what the host's reads and refused
accesses do (spec 20_memory.md R65 to R68, R72, 45_control.md R260, 70_reset_and_hazards.md R335). -/

namespace Sys2Proof.Machine

/-! ### What a command keeps -/

theorem State.KeepsInputs.trans {s t u : State} (h : s.KeepsInputs t) (h' : t.KeepsInputs u) : s.KeepsInputs u where
  ilen := h'.ilen.trans h.ilen
  tlen := h'.tlen.trans h.tlen
  ibuf := fun k => (h'.ibuf k).trans (h.ibuf k)
  tbuf := fun k => (h'.tbuf k).trans (h.tbuf k)
  resets := h'.resets.trans h.resets
  caps := h'.caps.trans h.caps
  host := h'.host.trans h.host

/-- The free bytes of `IBUF` and `TBUF` are drawn anew at a reset only, so an unspecified byte reads alike as well. -/
theorem State.KeepsInputs.byteAt_eq {s t : State} (h : s.KeepsInputs t) {b : Buffer} (hb : b ≠ .obuf) (k : Nat) :
    t.byteAt b k = s.byteAt b k := by
  cases b with
  | ibuf => simp only [State.byteAt, State.buffer, State.freeIndex, h.ibuf, h.resets]
  | tbuf => simp only [State.byteAt, State.buffer, State.freeIndex, h.tbuf, h.resets]
  | obuf => exact absurd rfl hb

theorem exec_keepsInputs {i : Instr} {s u : State} (h : exec i s = .next u) : s.KeepsInputs u := by
  by_cases hi : i = .nop
  case pos => subst hi; cases h; exact .refl s
  rcases exec_next_cases hi h with ⟨e, rfl⟩ | ⟨-, rfl⟩ | ⟨-, t, -, -, -, rfl⟩ |
      ⟨-, r, vb, x, -, -, -, -, hkeeps, -, -, rfl⟩ | ⟨-, r, x, -, -, -, -, hkeeps, -, -, -, -, rfl⟩
  · exact (s.raise_failed e).inputs
  · exact .of_eq rfl rfl rfl rfl rfl rfl rfl
  · exact .of_eq rfl rfl rfl rfl rfl rfl rfl
  · exact hkeeps.trans (.of_eq rfl rfl rfl rfl rfl rfl rfl)
  · exact hkeeps.trans (.of_eq rfl rfl rfl rfl rfl rfl rfl)

theorem exec_keeps_counts {i : Instr} {s u : State} (h : exec i s = .next u)
    (hcounts : ¬(i ∈ [Instr.pack, .encode] ∧ u.err = none)) : u.vbits = s.vbits ∧ u.symcnt = s.symcnt := by
  by_cases hi : i = .nop
  case pos => subst hi; cases h; exact ⟨rfl, rfl⟩
  rcases exec_next_cases hi h with ⟨e, rfl⟩ | ⟨-, rfl⟩ | ⟨-, t, -, -, -, rfl⟩ |
      ⟨hpack, r, vb, x, -, -, herr, -, -, -, -, rfl⟩ | ⟨-, r, x, -, -, -, -, -, -, -, hvbits, hsymcnt, rfl⟩
  · exact ⟨rfl, rfl⟩
  · exact ⟨rfl, rfl⟩
  · exact ⟨rfl, rfl⟩
  · exact absurd ⟨hpack, herr⟩ hcounts
  · exact ⟨hvbits, hsymcnt⟩

/-- Settles O39: of everything a command can do, only the success of `PACK` and `ENCODE` writes a field the host set. -/
theorem commandsKeepTheHostsInputs : Obligations.CommandsKeepTheHostsInputs := by
  intro i s u h
  have hkeeps := exec_keepsInputs h
  exact ⟨hkeeps, hkeeps.byteAt_eq (by decide), hkeeps.byteAt_eq (by decide), exec_keeps_counts h⟩

/-! ### Why a command is refused -/

/-- Every reason a command can be refused for (R72, R335), with the name of the refusal. -/
inductive RefusalReason (s : State) : Instr → Refusal → Prop where
  | inputTooLong {i : Instr} (hi : i ∈ [Instr.pack, .unpack, .encode, .decode]) (h : s.caps.ibuf.val < s.ilen.toNat) :
      RefusalReason s i .inputBeyondCapacity
  | unpackResult (h : s.caps.obuf.val < s.symcnt.toNat) : RefusalReason s .unpack .resultBeyondCapacity
  | packResult (d : List Byte) (hl : s.ilen.toNat = d.length) (hh : Memory.holds s.ibuf d)
      (h : s.caps.obuf.val < ((codeStream s.ct d).length + 7) / 8) : RefusalReason s .pack .resultBeyondCapacity
  | encodeResult (t : Tree) (d : List Byte) (ht : t.distinct) (htl : s.tlen.toNat = t.ser.length)
      (hth : Memory.holds s.tbuf t.ser) (hl : s.ilen.toNat = d.length) (hh : Memory.holds s.ibuf d)
      (h : s.caps.obuf.val < 5 + s.tlen.toNat + ((t.stream d).length + 7) / 8) :
      RefusalReason s .encode .resultBeyondCapacity
  | decodeResult (c0 c1 c2 c3 : Byte) (hh : Memory.holds s.ibuf [c0, c1, c2, c3])
      (h : s.caps.obuf.val < originalLength c0 c1 c2 c3) : RefusalReason s .decode .resultBeyondCapacity
  | unwrittenIbuf {i : Instr} (hi : i ∈ [Instr.pack, .unpack, .encode, .decode]) (k : Nat) (hk : k < s.ilen.toNat)
      (hr : Memory.read s.ibuf k = none) : RefusalReason s i (.unwrittenByte .ibuf k)
  | unwrittenTbuf {i : Instr} (hi : i ∈ [Instr.ldtree, .encode]) (k : Nat) (hk : k < s.tlen.toNat)
      (hr : Memory.read s.tbuf k = none) : RefusalReason s i (.unwrittenByte .tbuf k)

section
variable {s : State} {r : Refusal}

theorem LdtreeOutcome.refusalReason (h : LdtreeOutcome s.issue (refuseCmd r)) : RefusalReason s .ldtree r := by
  cases h with
  | unwritten k hk _ hr => exact .unwrittenTbuf (by decide) k hk hr

theorem PackOutcome.refusalReason (h : PackOutcome s.issue (refuseCmd r)) : RefusalReason s .pack r := by
  cases h with
  | inputTooLong hf => exact .inputTooLong (by decide) (Nat.lt_of_not_le hf)
  | unwritten _ _ k hk hr => exact .unwrittenIbuf (by decide) k hk hr
  | resultTooLong _ _ d hl hh _ hr => exact .packResult d hl hh (Nat.lt_of_not_le hr)

theorem UnpackOutcome.refusalReason (h : UnpackOutcome s.issue (refuseCmd r)) : RefusalReason s .unpack r := by
  cases h with
  | inputTooLong hf => exact .inputTooLong (by decide) (Nat.lt_of_not_le hf)
  | resultTooLong hr => exact .unpackResult (Nat.lt_of_not_le hr)
  | unwritten _ _ _ k hk hr => exact .unwrittenIbuf (by decide) k hk hr

theorem EncodeOutcome.refusalReason (h : EncodeOutcome s.issue (refuseCmd r)) : RefusalReason s .encode r := by
  cases h with
  | inputTooLong hf => exact .inputTooLong (by decide) (Nat.lt_of_not_le hf)
  | unwrittenTbuf _ _ k hk _ hr => exact .unwrittenTbuf (by decide) k hk hr
  | unwrittenIbuf _ k hk hr => exact .unwrittenIbuf (by decide) k hk hr
  | resultTooLong _ _ t ht htl hth d hl hh _ hr =>
    rw [State.issue_tlen] at htl
    exact .encodeResult t d ht htl hth hl hh (by rw [htl]; exact Nat.lt_of_not_le hr)

theorem Memory.holds_of_append {m : List Host.Cell} {d e : List Byte} (h : Memory.holds m (d ++ e)) : Memory.holds m d := by
  intro k hk
  rw [h k (by rw [List.length_append]; omega), List.getElem_append_left hk]

theorem DecodeOutcome.refusalReason (h : DecodeOutcome s.issue (refuseCmd r)) : RefusalReason s .decode r := by
  cases h with
  | inputTooLong hf => exact .inputTooLong (by decide) (Nat.lt_of_not_le hf)
  | unwritten _ _ k hk hr => exact .unwrittenIbuf (by decide) k hk hr
  | resultTooLong _ c0 c1 c2 c3 vb t _ p _ hh _ hr =>
    have hlength : Memory.holds s.ibuf [c0, c1, c2, c3] := Memory.holds_of_append (e := vb :: (t.ser ++ p)) hh
    exact .decodeResult c0 c1 c2 c3 hlength (Nat.lt_of_not_le hr)

theorem exec_refusalReason {i : Instr} (h : exec i s = .refused r) : RefusalReason s i r := by
  cases i with
  | nop => cases h
  | clear => cases h
  | ldtree => exact LdtreeOutcome.refusalReason (runCommand_refused h ▸ ldtreeSteps_outcome s.issue)
  | pack => exact PackOutcome.refusalReason (runCommand_refused h ▸ packSteps_outcome s.issue)
  | unpack => exact UnpackOutcome.refusalReason (runCommand_refused h ▸ unpackSteps_outcome s.issue)
  | encode => exact EncodeOutcome.refusalReason (runCommand_refused h ▸ encodeSteps_outcome s.issue)
  | decode => exact DecodeOutcome.refusalReason (runCommand_refused h ▸ decodeSteps_outcome s.issue)

end

/-- Settles O41: `Fault` has no constructor, and each refusal a command's steps can end with has one of R72's or R335's
reasons. -/
theorem commandStopsOnlyWhenNotAdmitted : Obligations.CommandStopsOnlyWhenNotAdmitted := by
  intro i s
  refine ⟨fun f => (nomatch f), fun r h => ?_⟩
  cases exec_refusalReason h with
  | inputTooLong hi hlong => exact .inl ⟨rfl, hi, hlong⟩
  | unpackResult hlong => exact .inr (.inl ⟨rfl, .inl ⟨rfl, hlong⟩⟩)
  | packResult d hl hh hlong => exact .inr (.inl ⟨rfl, .inr (.inl ⟨rfl, d, hl, hh, hlong⟩)⟩)
  | encodeResult t d ht htl hth hl hh hlong =>
    exact .inr (.inl ⟨rfl, .inr (.inr (.inl ⟨rfl, t, d, ht, htl, hth, hl, hh, hlong⟩))⟩)
  | decodeResult c0 c1 c2 c3 hh hlong =>
    exact .inr (.inl ⟨rfl, .inr (.inr (.inr ⟨rfl, c0, c1, c2, c3, hh, hlong⟩))⟩)
  | unwrittenIbuf hi k hk hr => exact .inr (.inr (.inl ⟨k, rfl, hi, hk, hr⟩))
  | unwrittenTbuf hi k hk hr => exact .inr (.inr (.inr ⟨k, rfl, hi, hk, hr⟩))

/-! ### Buffer accesses of the host -/

theorem hostAccess_bufRead {s : State} {b : Buffer} {i : Nat} (hb : s.busy = false) (hi : i < s.capacity b) :
    hostAccess (.bufRead b i) s = .next (s.saw (.byte b i (s.byteAt b i))) := by
  rw [hostAccess, hostBufRead, if_neg (by simp [hb]), if_pos hi]

theorem hostAccess_bufRead_beyond {s : State} {b : Buffer} {i : Nat} (hb : s.busy = false) (hi : s.capacity b ≤ i) :
    hostAccess (.bufRead b i) s = .refused (.noSuchByte b i) := by
  rw [hostAccess, hostBufRead, if_neg (by simp [hb]), if_neg (Nat.not_lt.mpr hi)]

theorem hostAccess_bufWrite_beyond {s : State} {b : Buffer} {i : Nat} (hb : s.busy = false) (hi : s.capacity b ≤ i)
    (v : Byte) : hostAccess (.bufWrite b i v) s = .refused (.noSuchByte b i) := by
  rw [hostAccess, hostBufWrite, if_neg (by simp [hb]), if_neg (Nat.not_lt.mpr hi)]

/-- Settles O49: with `BUSY = 0` the capacity is the only test a buffer access has left. -/
theorem bufferAccessBeyondCapacityStops : Obligations.BufferAccessBeyondCapacityStops := by
  intro s b i v hbusy hbeyond
  exact ⟨hostAccess_bufRead_beyond hbusy hbeyond, hostAccess_bufWrite_beyond hbusy hbeyond v⟩

/-- Settles O52: `Memory.write` changes what one index reads, and keeps the rising order. -/
theorem bufferReadAfterWrite : Obligations.BufferReadAfterWrite := by
  intro m i j v
  exact ⟨Memory.read_write m i j v, fun hwf => Memory.wf_write hwf i v⟩

/-! ### Reads change the host's record only -/

@[simp] theorem State.saw_capacity (s : State) (x : HostSeen) (b : Buffer) : (s.saw x).capacity b = s.capacity b := by
  cases b <;> rfl

@[simp] theorem State.saw_byteAt (s : State) (x : HostSeen) (b : Buffer) (i : Nat) :
    (s.saw x).byteAt b i = s.byteAt b i := by
  cases b <;> rfl

theorem State.byteAt_of_read {s : State} {b : Buffer} {i : Nat} {v : Byte} (h : Memory.read (s.buffer b) i = some v) :
    s.byteAt b i = v := by
  rw [State.byteAt, h, Option.getD_some]

/-- A register or buffer read of an idle block is recorded, and that is all it does. -/
theorem hostAccess_read_next {a : HostAccess} {s t : State} (hb : s.busy = false)
    (ha : (∃ width off, a = .regRead width off) ∨ ∃ c j, a = .bufRead c j) (h : hostAccess a s = .next t) :
    ∃ x, t = s.saw x := by
  rcases ha with ⟨width, off, rfl⟩ | ⟨c, j, rfl⟩
  · exact ⟨_, hostRegRead_next hb h⟩
  · exact ⟨_, hostBufRead_next h⟩

/-- Settles O47: a read that completes is recorded by the host, and the record is no part of what a buffer read returns. -/
theorem readsAreIdempotent : Obligations.ReadsAreIdempotent := by
  intro s t a b i hbusy hi ha h
  obtain ⟨x, rfl⟩ := hostAccess_read_next hbusy (ha.imp_left fun ⟨off, hoff⟩ => ⟨32, off, hoff⟩) h
  refine ⟨rfl, hostAccess_bufRead hbusy hi, ?again, fun v => State.byteAt_of_read⟩
  case again =>
    have hread := hostAccess_bufRead (s := s.saw x) (b := b) (i := i) hbusy (by rwa [State.saw_capacity])
    rwa [State.saw_byteAt] at hread

/-! ### Register accesses of the wrong shape -/

theorem wfRegAccess_iff (width off : Nat) : wfRegAccess width off = true ↔ width = 32 ∧ off % 4 = 0 := by
  simp [wfRegAccess]

theorem regAccessRefusal_eq_none_iff (width off : Nat) :
    regAccessRefusal width off = none ↔ width = 32 ∧ off % 4 = 0 := by
  unfold regAccessRefusal
  by_cases hwidth : width = 32
  case neg => simp [hwidth]
  by_cases hoffset : off % 4 = 0 <;> simp [hwidth, hoffset]

theorem hostRegRead_refused {width off : Nat} {r : Refusal} (h : regAccessRefusal width off = some r) (s : State) :
    hostRegRead width off s = .refused r := by
  rw [hostRegRead, h]

theorem hostWrite_refused {width off : Nat} {r : Refusal} (h : regAccessRefusal width off = some r) (v : Word)
    (s : State) : hostWrite width off v s = .refused r := by
  rw [hostWrite, h]

/-- Settles O48: the shape is tested before anything of the state is looked at, for reads and for writes. -/
theorem registerAccessOfWrongShapeIsRefused : Obligations.RegisterAccessOfWrongShapeIsRefused := by
  intro s width off v
  refine ⟨fun hshape => ?refused, wfRegAccess_iff width off⟩
  case refused =>
    have hne : regAccessRefusal width off ≠ none := by
      rw [Ne, regAccessRefusal_eq_none_iff, not_and_or]
      exact hshape
    obtain ⟨r, hr⟩ := Option.ne_none_iff_exists'.mp hne
    exact ⟨⟨r, hostRegRead_refused hr s⟩, ⟨r, hostWrite_refused hr v s⟩⟩

end Sys2Proof.Machine

/-! PROOFS. The command word: what the decoder reads of it, and what issuing a reserved one does (spec 30_encoding.md R90,
R93, 45_control.md R257). -/

namespace Sys2Proof

/-! ### The opcode column -/

@[simp] theorem instrOfOpcode_opcodeOf (i : Instr) : instrOfOpcode (opcodeOf i) = some i := by
  cases i <;> rfl

theorem opcodeOf_of_instrOfOpcode {op : BitVec 8} {i : Instr} (h : instrOfOpcode op = some i) : op = opcodeOf i := by
  unfold instrOfOpcode at h
  split at h <;> cases h <;> exact BitVec.eq_of_toNat_eq ‹_›

theorem instrOfOpcode_eq_some_iff (op : BitVec 8) (i : Instr) : instrOfOpcode op = some i ↔ op = opcodeOf i :=
  ⟨opcodeOf_of_instrOfOpcode, fun h => h ▸ instrOfOpcode_opcodeOf i⟩

theorem instrOfOpcode_eq_none_iff (op : BitVec 8) : instrOfOpcode op = none ↔ 7 ≤ op.toNat := by
  unfold instrOfOpcode
  split
  case h_8 => simp only [imp_false, true_iff] at *; omega
  all_goals simp only [reduceCtorEq, false_iff]; omega

/-! ### The two fields of a command word -/

theorem extractLsb'_append_opcode (w : Word) : w.extractLsb' 8 24 ++ w.extractLsb' 0 8 = w :=
  (BitVec.extractLsb'_append_extractLsb'_eq_extractLsb' rfl).trans BitVec.extractLsb'_eq_self

theorem eq_encode_iff (w : Word) (i : Instr) :
    w = encode i ↔ w.extractLsb' 8 24 = 0#24 ∧ w.extractLsb' 0 8 = opcodeOf i := by
  constructor
  · rintro rfl
    exact ⟨BitVec.extractLsb'_append_eq_left, BitVec.extractLsb'_append_eq_right⟩
  · rintro ⟨hupper, hopcode⟩
    rw [encode, ← hupper, ← hopcode, extractLsb'_append_opcode]

/-! ### The decoder -/

theorem decode_eq_ok_iff (w : Word) (i : Instr) :
    decode w = .ok i ↔ w.extractLsb' 8 24 = 0#24 ∧ instrOfOpcode (w.extractLsb' 0 8) = some i := by
  unfold decode
  by_cases hupper : w.extractLsb' 8 24 = 0#24
  case neg => simp [hupper]
  cases hopcode : instrOfOpcode (w.extractLsb' 0 8) <;> simp [hupper]

theorem decode_eq_error_iff (w : Word) :
    (∃ e, decode w = .error e) ↔ w.extractLsb' 8 24 ≠ 0#24 ∨ instrOfOpcode (w.extractLsb' 0 8) = none := by
  unfold decode
  by_cases hupper : w.extractLsb' 8 24 = 0#24
  case neg => simp [hupper]
  cases hopcode : instrOfOpcode (w.extractLsb' 0 8) <;> simp [hupper]

theorem decode_eq_ok_iff_eq_encode (w : Word) (i : Instr) : decode w = .ok i ↔ w = encode i := by
  rw [decode_eq_ok_iff, instrOfOpcode_eq_some_iff, eq_encode_iff]

/-- R93's condition on the bits is the decoder's. -/
theorem decode_error_iff_reserved (w : Word) :
    (∃ e, decode w = .error e) ↔ w.extractLsb' 8 24 ≠ 0#24 ∨ 7 ≤ (w.extractLsb' 0 8).toNat := by
  rw [decode_eq_error_iff, instrOfOpcode_eq_none_iff]

/-- Settles O1: a word is the encoding of a command exactly when its upper bits are 0 and its opcode is the command's. -/
theorem decoderReadsExactlyTheCommandWords : Obligations.DecoderReadsExactlyTheCommandWords :=
  ⟨rfl, rfl, rfl, rfl, rfl, rfl, rfl, decode_eq_ok_iff_eq_encode⟩

/-- Settles O3, by running the decoder on the seven words. -/
theorem tableWordsDecode : Obligations.TableWordsDecode := by
  unfold Obligations.TableWordsDecode
  decide

namespace Machine

theorem issueWord_reserved {w : Word} {e : DecodeError} (h : decode w = .error e) (s : State) :
    issueWord w s = execReserved s := by
  rw [issueWord, h]

theorem execReserved_failed (s : State) : ∃ t, execReserved s = .next t ∧ s.Failed t .illegalCommand :=
  runCommand_failed rfl

/-- Settles O2: the step makes the `CMD` write, the write issues its word, and a word that does not decode raises
`IllegalCommandError`. -/
theorem reservedWordRaisesIllegalCommand : Obligations.ReservedWordRaisesIllegalCommand := by
  intro w
  refine ⟨decode_error_iff_reserved w, fun s rest hreserved hbusy hscript => ?_⟩
  obtain ⟨e, hdecode⟩ := (decode_error_iff_reserved w).mpr hreserved
  have hstep : step s = execReserved s.takeAccess :=
    calc step s = hostAccess (cmdWrite w) s.takeAccess := step_of_script hscript
      _ = issueWord w s.takeAccess := hostAccess_cmdWrite (s := s.takeAccess) hbusy w
      _ = execReserved s.takeAccess := issueWord_reserved hdecode _
  rw [hstep]
  exact execReserved_failed s.takeAccess

end Machine

end Sys2Proof

/-! PROOFS. Tree descriptions, the packed stream, and `PACK` and `UNPACK` with no tree loaded (spec 30_encoding.md R94, R98
to R102, 41_tree_and_table.md R151). -/

namespace Sys2Proof.Machine

/-! ### `ParseTree` and `Ser` are inverse -/

theorem parseTree_eq_ok_iff (bs rest : List Byte) (tm : TreeMem) :
    parseTree bs = .ok (tm, rest) ↔ ∃ t : Tree, t.distinct ∧ bs = t.ser ++ rest ∧ tm = t.records 0 := by
  constructor
  · intro h
    obtain ⟨t, hser, hdistinct, hrecords⟩ := parseTree_sound h
    exact ⟨t, hdistinct, hser, hrecords⟩
  · rintro ⟨t, hdistinct, rfl, rfl⟩
    exact parseTree_ser t hdistinct rest

theorem parseTree_malformed {bs : List Byte}
    (h : ¬∃ (t : Tree) (rest : List Byte), t.distinct ∧ bs = t.ser ++ rest) :
    parseTree bs = throwErr .malformedContainer := by
  cases hparse : parseTree bs with
  | error x => rw [parseTree_error hparse, throwErr]
  | ok y =>
    obtain ⟨t, hdistinct, hser, -⟩ := (parseTree_eq_ok_iff bs y.2 y.1).mp hparse
    exact absurd ⟨t, y.2, hdistinct, hser⟩ h

/-- Settles O8: the parse reads back what `Ser` wrote and accepts nothing else, a description tells where it ends, and
the only error of the parse is `MalformedContainerError`. -/
theorem parseTreeAcceptsExactlyDescriptions : Obligations.ParseTreeAcceptsExactlyDescriptions := by
  intro bs
  refine ⟨fun tm rest => parseTree_eq_ok_iff bs rest tm, fun t u x y ht hu => ?unique, parseTree_malformed⟩
  case unique => exact Tree.ser_append_inj (ht.symm.trans hu)

/-! ### The packed stream -/

/-- Settles O15: stream bit `k` of the packed bytes is bit `k` of the stream, and 0 from the stream's end on. -/
theorem packedBytesCarryTheStream : Obligations.PackedBytesCarryTheStream := by
  rintro ct d S rfl
  refine ⟨packedBytes_length (codeStream ct d), fun k hk => ?inside, fun k hend hk => ?padding⟩
  case inside =>
    have hbits : k < 8 * (((codeStream ct d).length + 7) / 8) := by rw [codeStream]; omega
    exact (streamBit_packedBytes _ k hbits).trans (List.getD_eq_getElem _ _ hk)
  case padding => exact (streamBit_packedBytes _ k hk).trans (List.getD_eq_default _ _ hend)

/-! ### Outside `TreeReady` -/

theorem packSteps_illegal {s : State} (hp : s.phase ≠ .treeReady) (hf : s.inputFits) :
    packSteps s = throwErr .illegalCommand := by
  rw [packSteps, if_neg (not_not_intro hf), if_pos hp]

theorem unpackSteps_illegal {s : State} (hp : s.phase ≠ .treeReady) (hf : s.inputFits)
    (hr : s.resultFits s.symcnt.toNat) : unpackSteps s = throwErr .illegalCommand := by
  rw [unpackSteps, if_neg (not_not_intro hf), if_neg (not_not_intro hr), if_pos hp]

/-- Settles O18: inside the capacities the phase is the first test of both commands. -/
theorem packAndUnpackNeedALoadedTree : Obligations.PackAndUnpackNeedALoadedTree := by
  intro s hphase hinput
  exact ⟨runCommand_failed (packSteps_illegal (s := s.issue) hphase hinput),
    fun hresult => runCommand_failed (unpackSteps_illegal (s := s.issue) hphase hinput hresult)⟩

end Sys2Proof.Machine

/-! PROOFS. The host's stages: the frequency table, the reference builder, and the round trip of the host's procedures
(spec 40_host_stages.md R130, R135, R136, R138 to R140). -/

namespace Sys2Proof.Machine

/-! ### The frequency table -/

theorem nodup_map_fst_freq (d : List Byte) : ((freq d).map Prod.fst).Nodup := by
  rw [map_fst_freq]
  exact nodup_allSymbols.filter _

theorem mem_freq_iff (d : List Byte) (s : Byte) (n : Nat) : (s, n) ∈ freq d ↔ s ∈ d ∧ n = d.count s := by
  simp only [freq, List.mem_map, List.mem_filter, mem_allSymbols, List.contains_iff_mem, true_and, Prod.mk.injEq]
  constructor
  · rintro ⟨x, hx, rfl, rfl⟩; exact ⟨hx, rfl⟩
  · rintro ⟨hs, rfl⟩; exact ⟨s, hs, rfl, rfl⟩

theorem freq_eq_nil_iff (d : List Byte) : freq d = [] ↔ d = [] := by
  rw [← List.map_eq_nil_iff (f := Prod.fst), List.eq_nil_iff_forall_not_mem, List.eq_nil_iff_forall_not_mem]
  exact forall_congr' fun s => not_congr (mem_map_fst_freq d s)

/-- Settles O57: the table is the symbols that occur, out of the 256 in numeric order, each paired with its count. -/
theorem frequencyTableCounts : Obligations.FrequencyTableCounts := fun d =>
  ⟨nodup_map_fst_freq d, mem_freq_iff d, freq_eq_nil_iff d⟩

/-! ### The reference builder -/

/-- At the start the queue holds one leaf for each row of the table (R136). -/
theorem queueSymbols_leaves (F : FreqTable) :
    queueSymbols (F.map fun x => { weight := x.2, order := x.1.toNat, node := .leaf x.1 }) = F.map Prod.fst := by
  rw [queueSymbols, List.flatMap_map, List.map_eq_flatMap]
  rfl

theorem refBuild_symbols_perm {F : FreqTable} (hF : F ≠ []) : (refBuild F).symbols.Perm (F.map Prod.fst) := by
  obtain ⟨t, hloop, hsymbols⟩ := mergeLoop_symbols F.length 0
    (F.map fun x => { weight := x.2, order := x.1.toNat, node := .leaf x.1 }) (by simpa using hF) (by simp)
  rw [refBuild, hloop, Option.getD_some, ← queueSymbols_leaves]
  exact hsymbols

/-- Settles O58: merging only moves the leaf symbols about, so the tree's are the table's in some order. -/
theorem referenceBuilderIsATreeBuilder : Obligations.ReferenceBuilderIsATreeBuilder := by
  intro F hF hnodup
  have hperm := refBuild_symbols_perm hF
  exact ⟨hperm.nodup_iff.mpr hnodup, fun s => hperm.mem_iff⟩

theorem TreeBuilder.of_freq {buildTree : FreqTable → Tree} (hbuild : TreeBuilder buildTree) {d : List Byte}
    (h0 : d ≠ []) : (buildTree (freq d)).distinct ∧ ∀ x ∈ d, x ∈ (buildTree (freq d)).symbols := by
  obtain ⟨hdistinct, hsymbols⟩ := hbuild (freq d) (mt (freq_eq_nil_iff d).mp h0) (nodup_map_fst_freq d)
  exact ⟨hdistinct, fun x hx => (hsymbols x).mpr ((mem_map_fst_freq d x).mpr hx)⟩

/-! ### `ENCODE` and `DECODE` where their operands are good -/

theorem exec_encode_produced {s : State} {t : Tree} {d : List Byte} (ht : t.distinct) (hl : s.tlen.toNat = t.ser.length)
    (hh : Memory.holds s.tbuf t.ser) (h0 : d ≠ []) (hd : s.ilen.toNat = d.length) (hf : s.inputFits)
    (hi : Memory.holds s.ibuf d) (hm : ∀ x ∈ d, x ∈ t.symbols)
    (hr : s.resultFits (5 + t.ser.length + ((t.stream d).length + 7) / 8)) :
    ∃ u, exec .encode s = .next u ∧ s.Produced u
      (frameContainer s.ilen (lastValidBits (t.stream d).length) t.ser (packedBytes (t.stream d))) := by
  refine ⟨_, runCommand_ok (encodeSteps_ok (s := s.issue) ht hl hh h0 hd hf hi hm hr), ?_⟩
  refine produced_of ?_ rfl rfl rfl rfl rfl rfl rfl (.of_eq rfl rfl rfl rfl rfl rfl rfl)
  rw [frameContainer_length, packedBytes_length]
  exact hr

theorem exec_decode_produced {s : State} {n : Word} {vb : Byte} {t : Tree} {p d : List Byte} {rest : Bits}
    (ht : t.distinct) (hl : s.ilen.toNat = (be32 n ++ [vb] ++ t.ser ++ p).length) (hf : s.inputFits)
    (hh : Memory.holds s.ibuf (be32 n ++ [vb] ++ t.ser ++ p)) (hb : badValidBits p.length vb.toNat = false)
    (hn : n.toNat = d.length) (hm : ∀ x ∈ d, x ∈ t.symbols) (hv : validBits p vb.toNat = t.stream d ++ rest)
    (hr : s.resultFits d.length) :
    ∃ u, exec .decode s = .next u ∧ s.Produced u d := by
  have hwalk : walkBits (t.records 0) (validBits p vb.toNat) n.toNat = .ok d := by
    rw [hv, hn]; exact walkBits_stream_exact t d hm rest
  refine ⟨_, runCommand_ok (decodeSteps_ok (s := s.issue) ht hl hf hh hb (hn ▸ hr) hwalk), ?_⟩
  exact produced_of hr rfl rfl rfl rfl rfl rfl rfl (.of_eq rfl rfl rfl rfl rfl rfl rfl)

/-! ### The container of an input -/

/-- The container `ENCODE` writes for the input `d` and the tree `t` (R222, R223). -/
def Tree.container (t : Tree) (d : List Byte) : List Byte :=
  frameContainer (BitVec.ofNat 32 d.length) (lastValidBits (t.stream d).length) t.ser (packedBytes (t.stream d))

theorem Tree.container_length (t : Tree) (d : List Byte) :
    (t.container d).length = 5 + t.ser.length + ((t.stream d).length + 7) / 8 := by
  rw [Tree.container, frameContainer_length, packedBytes_length]

theorem Tree.ser_length_le {t : Tree} (h : t.distinct) : t.ser.length ≤ Config.tbufCap := by
  have hser := t.ser_length
  have hsymbols := nodup_bytes_length_le h
  rw [Config.tbufCap]
  omega

/-- A description has at most 767 bytes and a code at most 255 bits, which is less than 32 bytes. -/
theorem Tree.container_length_le {t : Tree} (h : t.distinct) (d : List Byte) :
    (t.container d).length ≤ 772 + 32 * d.length := by
  have hser := Tree.ser_length_le h
  have hstream := t.stream_length_le h d
  rw [Config.tbufCap] at hser
  rw [t.container_length]
  omega

theorem exec_decode_container {s : State} {t : Tree} {d : List Byte} (ht : t.distinct) (hm : ∀ x ∈ d, x ∈ t.symbols)
    (h32 : d.length < 2 ^ 32) (hl : s.ilen.toNat = (t.container d).length) (hf : s.inputFits)
    (hh : Memory.holds s.ibuf (t.container d)) (hr : s.resultFits d.length) :
    ∃ u, exec .decode s = .next u ∧ s.Produced u d := by
  have hvb := lastValidBits_toNat8 (t.stream d).length
  refine exec_decode_produced (rest := []) ht hl hf hh ?bits ?count hm ?valid hr
  case count => rw [BitVec.toNat_ofNat, Nat.mod_eq_of_lt h32]
  case bits => rw [hvb]; exact badValidBits_lastValidBits _ _
  case valid => rw [hvb, List.append_nil]; exact validBits_packedBytes _

/-! ### The lines of the host's scripts -/

/-- The state after `FILL` of `IBUF` (R111). -/
def State.fillIbuf (s : State) (d : List Byte) : State :=
  { s with ibuf := Memory.writeBytes s.ibuf 0 d, ilen := BitVec.ofNat 32 d.length }

/-- The state after `FILL` of `TBUF` (R111). -/
def State.fillTbuf (s : State) (d : List Byte) : State :=
  { s with tbuf := Memory.writeBytes s.tbuf 0 d, tlen := (BitVec.ofNat 32 d.length).extractLsb' 0 10 }

theorem State.fillIbuf_ilen (s : State) {d : List Byte} (h : d.length < 2 ^ 32) :
    (s.fillIbuf d).ilen.toNat = d.length := by
  rw [State.fillIbuf, BitVec.toNat_ofNat, Nat.mod_eq_of_lt h]

theorem State.fillTbuf_tlen (s : State) {d : List Byte} (h : d.length ≤ Config.tbufCap) :
    (s.fillTbuf d).tlen.toNat = d.length := by
  rw [Config.tbufCap] at h
  simp only [State.fillTbuf, BitVec.extractLsb'_toNat, BitVec.toNat_ofNat, Nat.shiftRight_zero]
  omega

theorem runAccesses_fillIbuf_line {s : State} (hb : s.busy = false) {d : List Byte} (hc : d.length ≤ s.caps.ibuf.val)
    (a : List HostAccess) :
    runAccesses ((ScriptLine.fillIbuf d).expand ++ a) s = runAccesses a (s.fillIbuf d) := by
  rw [ScriptLine.expand, fillAccesses, List.append_assoc, runAccesses_fillIbuf d 0 s _ hb (by omega)]
  exact runAccesses_cons (hostAccess_ilen (s := { s with ibuf := Memory.writeBytes s.ibuf 0 d }) hb _) a

theorem runAccesses_fillTbuf_line {s : State} (hb : s.busy = false) {d : List Byte} (hc : d.length ≤ Config.tbufCap)
    (a : List HostAccess) :
    runAccesses ((ScriptLine.fillTbuf d).expand ++ a) s = runAccesses a (s.fillTbuf d) := by
  rw [ScriptLine.expand, fillAccesses, List.append_assoc, runAccesses_fillTbuf d 0 s _ hb (by omega)]
  exact runAccesses_cons (hostAccess_tlen (s := { s with tbuf := Memory.writeBytes s.tbuf 0 d }) hb _) a

/-- A command that succeeds is waited for, and what the host then takes is its result (R110, R138, R139). -/
theorem runAccesses_cmd_line {s : State} (hb : s.busy = false) {i : Instr} {r : List Byte}
    (h : ∃ u, exec i s = .next u ∧ s.Produced u r) :
    ∃ u, runAccesses (ScriptLine.cmd i).expand s = .next u ∧ u.result = .ok r := by
  obtain ⟨u, hexec, hproduced⟩ := h
  refine ⟨_, ?_, result_of_produced hproduced (.reg (Reg.offset .status) u.status)⟩
  rw [ScriptLine.expand, runAccesses_cons ((hostAccess_cmd hb i).trans hexec),
    runAccesses_cons (hostAccess_wait hproduced.busy), runAccesses]

/-! ### The host's procedures -/

theorem hostEncode_eq_ok (buildTree : FreqTable → Tree) {d : List Byte} (h0 : d ≠ []) :
    hostEncode buildTree d = .ok [.fillTbuf (buildTree (freq d)).ser, .fillIbuf d, .cmd .encode] := by
  rw [hostEncode, analyze, if_neg h0]
  rfl

theorem runAccesses_encode_script {s : State} {t : Tree} {d : List Byte} (hb : s.busy = false) (ht : t.distinct)
    (h0 : d ≠ []) (hm : ∀ x ∈ d, x ∈ t.symbols) (hi : d.length ≤ s.caps.ibuf.val)
    (hr : (t.container d).length ≤ s.caps.obuf.val) :
    ∃ u, runAccesses (expandScript [.fillTbuf t.ser, .fillIbuf d, .cmd .encode]) s = .next u ∧
      u.result = .ok (t.container d) := by
  have hser := Tree.ser_length_le ht
  have hilen := (s.fillTbuf t.ser).fillIbuf_ilen (Nat.lt_of_le_of_lt hi s.caps.ibuf.isLt)
  simp only [expandScript, List.flatMap_cons, List.flatMap_nil, List.append_nil]
  rw [runAccesses_fillTbuf_line hb hser, runAccesses_fillIbuf_line (s := s.fillTbuf t.ser) hb hi]
  exact runAccesses_cmd_line (s := (s.fillTbuf t.ser).fillIbuf d) hb (exec_encode_produced ht (s.fillTbuf_tlen hser)
    (Memory.holds_writeBytes _ _) h0 hilen (hilen.le.trans hi) (Memory.holds_writeBytes _ _) hm
    (t.container_length d ▸ hr))

theorem runAccesses_decode_script {v : State} {t : Tree} {d : List Byte} (hb : v.busy = false) (ht : t.distinct)
    (h32 : d.length < 2 ^ 32) (hm : ∀ x ∈ d, x ∈ t.symbols) (hi : (t.container d).length ≤ v.caps.ibuf.val)
    (hr : d.length ≤ v.caps.obuf.val) :
    ∃ w, runAccesses (expandScript (hostDecode (t.container d))) v = .next w ∧ w.result = .ok d := by
  have hilen := v.fillIbuf_ilen (Nat.lt_of_le_of_lt hi v.caps.ibuf.isLt)
  simp only [hostDecode, expandScript, List.flatMap_cons, List.flatMap_nil, List.append_nil]
  rw [runAccesses_fillIbuf_line hb hi]
  exact runAccesses_cmd_line (s := v.fillIbuf (t.container d)) hb
    (exec_decode_container ht hm h32 hilen (hilen.le.trans hi) (Memory.holds_writeBytes _ _) hr)

/-- Settles O59: the builder's tree has a code for every byte of `d`, `ENCODE` answers the container of `d` in that tree,
and `DECODE` walks its stream back to `d`. -/
theorem hostRoundTrip : Obligations.HostRoundTrip := by
  intro buildTree d s v hbuild h0 h32 hsBusy hvBusy hsInput hsResult hvResult hvInput
  obtain ⟨ht, hm⟩ := hbuild.of_freq h0
  have hlength := Tree.container_length_le ht d
  obtain ⟨u, hencode, hcontainer⟩ := runAccesses_encode_script hsBusy ht h0 hm hsInput (hlength.trans hsResult)
  obtain ⟨w, hdecode, hbytes⟩ := runAccesses_decode_script hvBusy ht h32 hm (hlength.trans hvInput) hvResult
  exact ⟨_, u, _, w, hostEncode_eq_ok buildTree h0, hencode, hcontainer, hdecode, hbytes⟩

end Sys2Proof.Machine

/-! PROOFS. The code table of a tree, `LDTREE`, the malformed descriptions of `TBUF`, and the parse and the table
derivation node by node (spec 41_tree_and_table.md R150 to R164, 10_state.md R40). -/

namespace Sys2Proof.Machine

/-! ### The code table (R161 to R164) -/

/-- `DeriveCodes` sets the entry of every leaf to its code, left to right, whether or not the symbols are distinct. -/
theorem deriveCodes_records (t : Tree) : deriveCodes (t.records 0) = CodeTable.empty.setAll t.codes := by
  cases t with
  | leaf s => rfl
  | internal l r =>
    have hsits := (Tree.internal l r).sits_records_zero
    have hdepth : (Tree.internal l r).depth < ((Tree.internal l r).records 0).length :=
      Tree.records_length _ 0 ▸ Tree.depth_lt_size _
    rw [deriveCodes, Tree.sits_internal_root hsits]
    exact visit_eq_foldl _ _ 0 [] CodeTable.empty hsits hdepth

theorem Tree.codes_internal (l r : Tree) : (Tree.internal l r).codes =
    (l.paths []).map (fun x => (x.1, false :: x.2)) ++ (r.paths []).map (fun x => (x.1, true :: x.2)) := by
  rw [Tree.codes, Tree.paths, Tree.paths_eq_map l, Tree.paths_eq_map r]
  rfl

/-- Settles O10: the derived table is the list of codes, and a subtree's paths stand behind the bit of its side. -/
theorem deriveCodesFindsThePaths : Obligations.DeriveCodesFindsThePaths := by
  intro t hdistinct
  refine ⟨code_deriveCodes t hdistinct, ?leaf, ?internal⟩
  case leaf => rintro s rfl; rfl
  case internal => rintro l r rfl; exact Tree.codes_internal l r

/-! ### `TBUF` and the two commands that load it (R150, R152, R153) -/

theorem ldtreeSteps_ok {s : State} {t : Tree} (ht : t.distinct) (hl : s.tlen.toNat = t.ser.length)
    (hh : Memory.holds s.tbuf t.ser) : ldtreeSteps s =
      .ok ((s.startCall.setPhase .header).loadTree (t.records 0) (deriveCodes (t.records 0))).scrambleWork := by
  rw [ldtreeSteps, loadTbuf_ok (s := s.startCall.setPhase .header) ht hl hh]
  rfl

theorem ldtreeSteps_malformed {s : State} (h : s.loadTbuf = throwErr .malformedContainer) :
    ldtreeSteps s = throwErr .malformedContainer := by
  have hload : (s.startCall.setPhase .header).loadTbuf = throwErr .malformedContainer := h
  rw [ldtreeSteps, hload]
  rfl

theorem encodeSteps_malformed {s : State} (h0 : 0 < s.ilen.toNat) (hf : s.inputFits)
    (h : s.loadTbuf = throwErr .malformedContainer) : encodeSteps s = throwErr .malformedContainer :=
  (encodeSteps_header h0 hf).trans (encodeHeader_malformed (s := s.startCall.setPhase .header) h)

/-- What `LDTREE` and `ENCODE` both do with a malformed description. -/
theorem exec_malformed_of_loadTbuf {s : State} (h : s.loadTbuf = throwErr .malformedContainer) :
    (∃ u, exec .ldtree s = .next u ∧ s.Failed u .malformedContainer) ∧
    (0 < s.ilen.toNat → s.ilen.toNat ≤ s.caps.ibuf.val →
      ∃ u, exec .encode s = .next u ∧ s.Failed u .malformedContainer) :=
  ⟨runCommand_failed (ldtreeSteps_malformed (s := s.issue) h),
    fun h0 hf => runCommand_failed (encodeSteps_malformed (s := s.issue) h0 hf h)⟩

/-- Settles O12: the steps load the description, and nothing they write is the host's. -/
theorem ldtreeLoadsTheTree : Obligations.LdtreeLoadsTheTree := by
  intro s t hdistinct hlength hholds
  refine ⟨_, runCommand_ok (ldtreeSteps_ok (s := s.issue) hdistinct hlength hholds), ?hasTree, rfl, rfl, rfl, rfl,
    ?inputs, rfl, rfl⟩
  case hasTree => exact ⟨rfl, code_deriveCodes t hdistinct⟩
  case inputs => exact .of_eq rfl rfl rfl rfl rfl rfl rfl

/-- Settles O13: both commands load `TBUF` first, and only a whole description loads. -/
theorem tbufMustHoldExactlyOneDescription : Obligations.TbufMustHoldExactlyOneDescription :=
  fun _ _ hlength hholds hnone => exec_malformed_of_loadTbuf (loadTbuf_malformed hlength hholds hnone)

theorem loadTbuf_malformed_of_tbufCap_lt {s : State} (h : Config.tbufCap < s.tlen.toNat) :
    s.loadTbuf = throwErr .malformedContainer := if_pos h

theorem Tree.two_le_ser_length (t : Tree) : 2 ≤ t.ser.length := by
  have := t.ser_length
  have := t.symbols_length_pos
  omega

theorem loadTbuf_malformed_of_lt_two {s : State} (h : s.tlen.toNat < 2) (hw : Memory.written s.tbuf s.tlen.toNat) :
    s.loadTbuf = throwErr .malformedContainer := by
  obtain ⟨d, hlength, hholds⟩ := (Memory.written_iff_exists_holds _ _).mp hw
  refine loadTbuf_malformed hlength.symm hholds ?_
  rintro ⟨t, -, rfl⟩
  have := t.two_le_ser_length
  omega

/-- Settles O14: above the capacity no byte is read, and no description has fewer than two bytes. -/
theorem tlenOutOfBoundsIsMalformed : Obligations.TlenOutOfBoundsIsMalformed := by
  intro s htlen
  refine exec_malformed_of_loadTbuf ?_
  rcases htlen with habove | hzero | ⟨hone, hwritten⟩
  · exact loadTbuf_malformed_of_tbufCap_lt habove
  · exact loadTbuf_malformed_of_lt_two (by omega) fun i hi => by omega
  · exact loadTbuf_malformed_of_lt_two (by omega) (hone ▸ hwritten)

/-! ### The parse node by node (R158) -/

/-- At the start nothing is on the stack, so the parse is over when its first subtree is complete. -/
theorem parseMicro_start_ser {buf rest : List Byte} {a fuel : Nat} {t : Tree} (hbuf : buf.drop a = t.ser ++ rest)
    (hdistinct : t.distinct) (hfuel : t.size ≤ fuel) :
    Micro.run (parseMicro buf) fuel (parseStart a) = some (none, (parseStart a).1.past t, t.records 0) := by
  obtain ⟨k, rfl⟩ := Nat.exists_eq_add_of_le hfuel
  exact parseMicro_ser buf t (parseStart a).1 [] rest k hbuf hdistinct fun s _ => SeenMap.has_none s

theorem parseNode_error_of_parseTree_error {bs : List Byte} {x : Stop} (h : parseTree bs = .error x) :
    parseNode (bs.length + 1) bs [] SeenMap.none = .error x := by
  rw [parseTree] at h
  cases hnode : parseNode (bs.length + 1) bs [] SeenMap.none with
  | error y => rw [hnode] at h; cases h; rfl
  | ok y => rw [hnode] at h; cases h

theorem parseMicro_start_malformed {buf : List Byte} {a fuel : Nat} {x : Stop} (h : parseTree (buf.drop a) = .error x)
    (hfuel : (buf.drop a).length < fuel) :
    ∃ y, Micro.run (parseMicro buf) fuel (parseStart a) = some (some .malformedContainer, y) := by
  have hrun := parseMicro_malformed buf _ _ _ _ x (parseNode_error_of_parseTree_error h) (Nat.lt_succ_self _)
    (parseStart a).1 [] fuel rfl rfl hfuel
  obtain ⟨⟨e, y⟩, hy, rfl⟩ := Option.map_eq_some_iff.mp hrun
  exact ⟨y, hy⟩

/-- Settles O53: the micro-steps read a description whole, and stop where `ParseNode` does. -/
theorem parseMicroStepsRefineParseTree : Obligations.ParseMicroStepsRefineParseTree := by
  intro buf a fuel ha hfuel
  have hdrop : (buf.drop a).length = buf.length - a := List.length_drop
  cases hparse : parseTree (buf.drop a) with
  | ok y =>
    obtain ⟨tm, rest⟩ := y
    obtain ⟨t, hbuf, hdistinct, rfl⟩ := parseTree_sound hparse
    have hlength : t.ser.length + rest.length = buf.length - a := by rw [← hdrop, hbuf, List.length_append]
    have hsize := t.size_le_ser_length
    refine ⟨_, parseMicro_start_ser hbuf hdistinct (by omega), ?rp, rfl⟩
    case rp =>
      change a + t.ser.length + rest.length = buf.length
      omega
  | error x => exact parseMicro_start_malformed hparse (by omega)

/-! ### The table derivation node by node (R161, R40) -/

theorem deriveMicro_start (t : Tree) (k : Nat) :
    ∃ w, Micro.run (deriveMicro (t.records 0)) (t.size + k) deriveStart =
      some (none, w, CodeTable.empty.setAll t.codes) ∧ w.stack = [] := by
  cases t with
  | leaf s =>
    refine ⟨Work.cleared, ?_, rfl⟩
    rw [Tree.size, Nat.add_comm, Micro.run_succ]
    rfl
  | internal l r =>
    obtain ⟨ones, cur, hrun⟩ := deriveMicro_subtree (.internal l r) 0 Work.cleared CodeTable.empty k
      (Tree.sits_records_zero _) rfl (by rintro s ⟨⟩)
    exact ⟨_, hrun, rfl⟩

/-- Settles O60: at the start nothing is on the stack, so visiting the root's subtree is the whole derivation; the root
that is a leaf gets R164's code in both forms. -/
theorem deriveMicroStepsRefineDeriveCodes : Obligations.DeriveMicroStepsRefineDeriveCodes := by
  intro t fuel hfuel
  rw [t.records_length 0] at hfuel
  obtain ⟨k, rfl⟩ := Nat.exists_eq_add_of_le hfuel
  rw [deriveCodes_records]
  exact deriveMicro_start t k

end Sys2Proof.Machine

/-! PROOFS. `PACK` and the two tests `ENCODE` shares with it, the valid-bit count, and the packer bit by bit
(spec 42_pack.md R180 to R186). -/

namespace Sys2Proof.Machine

/-! ### The bit-by-bit packer (R185) -/

/-- Where every symbol has a code, the loops pack the whole stream and the flush ends it. -/
theorem packMicro_ok {ct : CodeTable} {d : List Byte} (h : missesCode ct d = false) :
    packMicro ct d = .ok (packFlush (packState (codeStream ct d) d.length)) := by
  have hloop := packLoop_ok ct d [] 0 h
  rw [packState_nil, List.nil_append, Nat.zero_add] at hloop
  rw [packMicro, hloop]

/-- The loops stop at the first symbol without a code, which is fetched, with the codes before it packed. -/
theorem packMicro_missing {ct : CodeTable} {d : List Byte} (h : missesCode ct d = true) :
    ∃ a x b, d = a ++ x :: b ∧ (∀ y ∈ a, (ct.code y).isSome) ∧ ct.code x = none ∧
      packMicro ct d = .error (.missingCode, packState (codeStream ct a) (a.length + 1)) := by
  obtain ⟨a, x, b, hsplit, hbefore, hx, hloop⟩ := packLoop_missing ct d [] 0 h
  rw [packState_nil, List.nil_append, Nat.zero_add] at hloop
  exact ⟨a, x, b, hsplit, hbefore, hx, by rw [packMicro, hloop]⟩

/-- Settles O54: both forms ask first whether a symbol has no code; after the loops the engine is `packState` of the
codes packed, whose `OBUF` holds the full bytes, and the flush adds the partial one. -/
theorem packMicroStepsRefinePackBits : Obligations.PackMicroStepsRefinePackBits := by
  intro ct d
  cases hmisses : missesCode ct d with
  | false =>
    rw [packSymbols_ok ((missesCode_eq_false_iff ct d).mp hmisses)]
    intro hbits
    obtain ⟨w, hflush, hwp, hrp⟩ := packFlush_packState _ d.length hbits
    exact ⟨w, by rw [packMicro_ok hmisses, hflush], hwp, hrp⟩
  | true =>
    rw [packSymbols, if_pos hmisses]
    obtain ⟨a, x, b, hsplit, hbefore, hx, hmicro⟩ := packMicro_missing hmisses
    refine ⟨rfl, (packState (codeStream ct a) (a.length + 1)).1, a, x, b, hsplit, hbefore, hx, ?_, rfl, rfl⟩
    rw [hmicro, ← fullBytes_eq_take]
    rfl

/-! ### The valid-bit count (R184) -/

theorem lastValidBits_eq_mod {t : Nat} (h : 1 ≤ t) : lastValidBits t = if t % 8 = 0 then 8 else t % 8 := by
  rw [lastValidBits]
  split <;> omega

theorem lastValidBits_add_full {t : Nat} (h : 1 ≤ t) : 8 * ((t + 7) / 8 - 1) + lastValidBits t = t := by
  have hn : (t + 7) / 8 ≠ 0 := by omega
  have hvalid := nValid_lastValidBits t
  rwa [nValid, if_neg hn] at hvalid

/-- Settles O16: that the full bytes and the last one's bits make `T` is the valid-bit count undoing the padding. -/
theorem lastByteValidBitsCount : Obligations.LastByteValidBitsCount := fun t ht =>
  have hrange := lastValidBits_range t
  ⟨rfl, hrange.1, hrange.2, lastValidBits_eq_mod ht, lastValidBits_add_full ht⟩

/-! ### The packed result (R180, R181) -/

/-- Settles O17: the steps write the packed bytes and the two counts, and nothing they write is the host's. -/
theorem packWritesThePackedBytes : Obligations.PackWritesThePackedBytes := by
  intro s d hphase hne hlength hinput hholds hcodes hresult
  refine ⟨_, runCommand_ok (packSteps_ok (s := s.issue) hphase hne hlength hinput hholds hcodes hresult), ?produced,
    (State.Produced.olen ?produced).trans (packedBytes_length _), lastValidBits_toNat4 _, rfl⟩
  case produced =>
    exact produced_of (by rwa [packedBytes_length]) rfl rfl rfl rfl rfl rfl rfl (.of_eq rfl rfl rfl rfl rfl rfl rfl)

/-! ### The empty input (R182) -/

theorem State.inputFits_of_ilen_zero {s : State} (h : s.ilen.toNat = 0) : s.inputFits :=
  h.trans_le (Nat.zero_le _)

theorem packSteps_empty {s : State} (hp : s.phase = .treeReady) (h0 : s.ilen.toNat = 0) :
    packSteps s = throwErr .emptyInput := by
  rw [packSteps, if_neg (not_not_intro (State.inputFits_of_ilen_zero h0)), if_neg (not_not_intro hp), if_pos h0]

theorem encodeSteps_empty {s : State} (h0 : s.ilen.toNat = 0) : encodeSteps s = throwErr .emptyInput := by
  rw [encodeSteps, if_neg (not_not_intro (State.inputFits_of_ilen_zero h0)), if_pos h0]

/-- Settles O19: an empty input always fits, and `ENCODE` tests for it before it reads `TBUF`. -/
theorem emptyInputIsRejected : Obligations.EmptyInputIsRejected := fun s h0 =>
  ⟨fun hphase => runCommand_failed (packSteps_empty (s := s.issue) hphase h0),
    runCommand_failed (encodeSteps_empty (s := s.issue) h0)⟩

/-! ### A symbol without a code (R183) -/

theorem packSteps_missing {s : State} {d : List Byte} (hp : s.phase = .treeReady) (hl : s.ilen.toNat = d.length)
    (hf : s.inputFits) (hh : Memory.holds s.ibuf d) (hm : ∃ x ∈ d, s.ct.code x = none) :
    packSteps s = throwErr .missingCode := by
  have h0 : s.ilen.toNat ≠ 0 := by
    obtain ⟨x, hx, -⟩ := hm
    exact hl ▸ (List.length_pos_of_mem hx).ne'
  rw [packSteps, if_neg (not_not_intro hf), if_neg (not_not_intro hp), if_neg h0]
  exact packInput_missing (s := s.clearWork.setPhase .transcoding) hl hh hm

/-- Settles O20: `PACK` meets the symbol in the loaded table, `ENCODE` in the table of the tree it loads. -/
theorem symbolWithoutCodeIsRejected : Obligations.SymbolWithoutCodeIsRejected := by
  intro s d hlength hinput hholds
  refine ⟨fun hphase hmissing => ?pack, fun t hdistinct htlen htbuf hmissing => ?encode⟩
  case pack => exact runCommand_failed (packSteps_missing (s := s.issue) hphase hlength hinput hholds hmissing)
  case encode =>
    exact runCommand_failed
      (encodeSteps_missing (s := s.issue) hdistinct htlen htbuf hlength hinput hholds hmissing)

end Sys2Proof.Machine

/-! PROOFS. `UNPACK`, the tests and walk errors `DECODE` shares with it, and the decoder bit by bit (spec 43_unpack.md R200
to R209). -/

namespace Sys2Proof.Machine

/-! ### The bit-by-bit walk (R209) -/

/-- Either loop started at stream bit 0 with nothing emitted, by the kind of tree. -/
theorem walkBits_micro {tm : TreeMem} {buf : List Byte} {p0 vb cnt nv fuel : Nat}
    (hv : (validBits (buf.drop p0) vb).length = nv) (hfuel : nv < fuel) :
    WalkEnds p0 vb cnt nv [] (walkBits tm (validBits (buf.drop p0) vb)) cnt
      (Micro.run (walkMicro tm buf) fuel (walkState p0 vb cnt nv 0 0 [])) := by
  have htree (h0 : ∀ s, (tm[0]? : Option Node) ≠ some (.leaf s)) :=
    walkTree_micro (cnt := cnt) h0 hv _ 0 0 fuel [] rfl (Nat.zero_le _) (hv ▸ hfuel) (Nat.zero_le _) fun _ => rfl
  unfold walkBits
  cases h0 : (tm[0]? : Option Node) with
  | none => exact htree (by simp [h0])
  | some x =>
    cases x with
    | leaf s => exact walkLeaf_micro h0 hv _ 0 fuel [] rfl (Nat.zero_le _) (hv ▸ hfuel) (Nat.zero_le _)
    | internal l r => exact htree (by simp [h0])

/-- Settles O55: the micro-steps end as `WalkEnds` says, and every engine it names is a `walkState`, whose registers have
the values asked for. -/
theorem walkMicroStepsRefineUnpackBits : Obligations.WalkMicroStepsRefineUnpackBits := by
  intro tm buf p0 vb cnt fuel _ hbits hfuel
  rw [← List.length_drop] at hbits hfuel
  have hends := walkBits_micro (tm := tm) (cnt := cnt) (validBits_length _ _ hbits) hfuel
  have hunpack (n : Nat) : unpackBits tm (buf.drop p0) vb n = walkBits tm (validBits (buf.drop p0) vb) n := by
    rw [unpackBits_eq, hbits]; rfl
  rw [hunpack, walkStart_eq, ← List.length_drop]
  unfold WalkEnds at hends
  cases hwalk : walkBits tm (validBits (buf.drop p0) vb) cnt with
  | ok out =>
    rw [hwalk] at hends
    obtain ⟨k, hrun⟩ := hends
    exact ⟨_, hrun, rfl, rfl, rfl, rfl⟩
  | error x =>
    rw [hwalk] at hends
    cases x with
    | raise e =>
      obtain ⟨k, cur, out, hrun, hout⟩ := hends
      exact ⟨_, out, hrun, rfl, rfl, rfl, (hunpack _).trans hout⟩
    | refuse _ => exact hends

/-! ### A stream that holds the codes owed (R203, R206) -/

/-- Settles O21: the walk reads the codes of `d` and leaves the rest, and nothing the steps write is the host's. -/
theorem unpackDecodesTheCodes : Obligations.UnpackDecodesTheCodes := by
  intro s t p d rest hphase _ htree hlength hinput hholds hbits hmem hvalid hcount hresult
  have hwalk : walkBits s.tm (validBits p s.vbits.toNat) s.symcnt.toNat = .ok d := by
    rw [htree.tm, hvalid, hcount]
    exact walkBits_stream_exact t d hmem rest
  refine ⟨_, runCommand_ok (unpackSteps_ok (s := s.issue) hphase hlength hinput (hcount.trans_le hresult) hholds hbits
    hwalk), ?produced, rfl, rfl⟩
  case produced => exact produced_of hresult rfl rfl rfl rfl rfl rfl rfl (.of_eq rfl rfl rfl rfl rfl rfl rfl)

/-! ### A stream that ends too early (R204) -/

/-- Settles O22: the walk runs out of bits inside the codes owed. -/
theorem unpackTruncatedStream : Obligations.UnpackTruncatedStream := by
  intro s t p d rest hphase _ htree hlength hinput hholds hbits hmem hrest hstream hcount hresult
  have hwalk : walkBits s.tm (validBits p s.vbits.toNat) s.symcnt.toNat = throwErr .truncatedStream := by
    rw [htree.tm, hcount]
    exact walkBits_truncated t d hmem _ rest hstream hrest
  exact runCommand_failed
    (unpackSteps_raise (s := s.issue) hphase hlength hinput (hcount.trans_le hresult) hholds hbits hwalk)

/-- Settles O30: the walk over the container's packed bytes runs out of bits inside the codes owed. -/
theorem decodeTruncatedStream : Obligations.DecodeTruncatedStream := by
  intro s n vb t p d rest hdistinct hlength hinput hholds hbits hcount hmem hrest hstream hresult
  have hwalk : walkBits (t.records 0) (validBits p vb.toNat) n.toNat = throwErr .truncatedStream :=
    hcount ▸ walkBits_truncated t d hmem _ rest hstream hrest
  exact runCommand_failed (decodeSteps_raise (s := s.issue) hdistinct hlength hinput hholds hbits hresult hwalk)

/-! ### Bits that are no code (R205, R207) -/

theorem walkBits_leaf_corrupt (x : Byte) {bits rest : Bits} {n cnt : Nat}
    (hbits : bits = List.replicate n false ++ true :: rest) (h : n < cnt) :
    walkBits ((Tree.leaf x).records 0) bits cnt = throwErr .corruptCode :=
  hbits ▸ walkLeaf_corrupt x rest n cnt h

/-- Settles O23: the walk meets the bit 1 before it has all its symbols. -/
theorem unpackCorruptCode : Obligations.UnpackCorruptCode := by
  intro s x p n rest hphase htree hlength hinput hholds hbits hvalid hneeded hresult
  have hwalk : walkBits s.tm (validBits p s.vbits.toNat) s.symcnt.toNat = throwErr .corruptCode :=
    htree.tm ▸ walkBits_leaf_corrupt x hvalid hneeded
  exact runCommand_failed (unpackSteps_raise (s := s.issue) hphase hlength hinput hresult hholds hbits hwalk)

/-- Settles O31: a lone leaf's description is always that of a distinct tree, and the walk meets the bit 1. -/
theorem decodeCorruptCode : Obligations.DecodeCorruptCode := by
  intro s m vb x p n rest hlength hinput hholds hbits hvalid hneeded hresult
  exact runCommand_failed (decodeSteps_raise (s := s.issue) (t := .leaf x) (List.nodup_singleton x) hlength hinput hholds
    hbits hresult (walkBits_leaf_corrupt x hvalid hneeded))

theorem walkBits_internal (l r : Tree) (bits : Bits) (cnt : Nat) :
    walkBits ((Tree.internal l r).records 0) bits cnt = walkTree ((Tree.internal l r).records 0) 0 bits cnt := rfl

/-- Settles O25: the valid-bit test has an error of its own, and in the walk every node reached is a subtree's root. -/
theorem properTreeIsNeverCorrupt : Obligations.ProperTreeIsNeverCorrupt := by
  intro l r p vb cnt
  rw [unpackBits_eq]
  split
  · rintro ⟨⟩
  · have hsits := Tree.sits_records_zero (.internal l r)
    rw [walkBits_internal]
    exact walkTree_not_corrupt hsits ⟨l, r, rfl⟩ _ _ 0 cnt hsits ⟨l, r, rfl⟩

/-! ### The valid-bit count (R201) -/

theorem badValidBits_of_out_of_range {n vb : Nat} (hn : 1 ≤ n) (h : vb < 1 ∨ 8 < vb) : badValidBits n vb = true := by
  simpa [badValidBits, hn] using h

theorem unpackSteps_badCount {s : State} (hp : s.phase = .treeReady) (hf : s.inputFits)
    (hr : s.resultFits s.symcnt.toNat) (hb : badValidBits s.ilen.toNat s.vbits.toNat = true) :
    unpackSteps s = throwErr .malformedContainer := by
  rw [unpackSteps, if_neg (not_not_intro hf), if_neg (not_not_intro hr), if_neg (not_not_intro hp), if_pos hb]

/-- What parses splits in one way, and the parse has tested the count of that split. A description with a symbol twice does
not parse either. -/
theorem parseContainer_badCount {n : Word} {vb : Byte} {t : Tree} {p : List Byte}
    (hb : badValidBits p.length vb.toNat = true) :
    parseContainer (be32 n ++ [vb] ++ t.ser ++ p) = throwErr .malformedContainer := by
  cases hparse : parseContainer (be32 n ++ [vb] ++ t.ser ++ p) with
  | error x => rw [parseContainer_error hparse, throwErr]
  | ok k =>
    obtain ⟨c0, c1, c2, c3, c4, u, -, hsplit, hgood, -⟩ := parseContainer_sound hparse
    simp only [be32, List.cons_append, List.nil_append, List.cons.injEq] at hsplit
    obtain ⟨-, -, -, -, rfl, hbody⟩ := hsplit
    obtain ⟨-, rfl⟩ := Tree.ser_append_inj hbody
    rw [hb] at hgood
    cases hgood

theorem decodeSteps_malformed {s : State} {c : List Byte} (hl : s.ilen.toNat = c.length) (hf : s.inputFits)
    (hh : Memory.holds s.ibuf c) (hc : parseContainer c = throwErr .malformedContainer) :
    decodeSteps s = throwErr .malformedContainer := by
  rw [decodeSteps, if_neg (not_not_intro hf)]
  split
  · rfl
  · rw [decodeHeader_parsed (s := s.startCall.setPhase .header) hl hh, hc]
    rfl

/-- Settles O24: `UNPACK` tests the count before it reads a byte, `DECODE` while it splits the container. -/
theorem validBitCountIsChecked : Obligations.ValidBitCountIsChecked := by
  intro s hinput
  refine ⟨fun hphase hresult hne hrange => ?unpack, fun n vb t p hlength hholds hne hrange => ?decode⟩
  case unpack =>
    exact runCommand_failed
      (unpackSteps_badCount (s := s.issue) hphase hinput hresult (badValidBits_of_out_of_range hne hrange))
  case decode =>
    have hbad := badValidBits_of_out_of_range (List.length_pos_of_ne_nil hne) hrange
    exact runCommand_failed (decodeSteps_malformed (s := s.issue) hlength hinput hholds (parseContainer_badCount hbad))

end Sys2Proof.Machine

/-! PROOFS. The container: what `ENCODE` writes, how `DECODE` splits it and turns it back, and a hardware engine's order of
writes (spec 44_container.md R222 to R241). -/

namespace Sys2Proof.Machine

/-! ### `ENCODE` and back (R222, R241) -/

/-- The state after `ENCODE` of `d` with the tree `t` (R222). -/
def State.encoded (s : State) (t : Tree) (d : List Byte) : State :=
  (((((s.issue.startCall.setPhase .header).loadTree (t.records 0) (deriveCodes (t.records 0))).setPhase
    .transcoding).putResult (frameContainer s.ilen (lastValidBits (t.stream d).length) t.ser
      (packedBytes (t.stream d)))).putPackCounts (lastValidBits (t.stream d).length)).endCall.complete

theorem State.encoded_vbits (s : State) (t : Tree) (d : List Byte) :
    (s.encoded t d).vbits = BitVec.ofNat 4 (lastValidBits (t.stream d).length) := rfl

theorem State.encoded_symcnt (s : State) (t : Tree) (d : List Byte) : (s.encoded t d).symcnt = s.ilen := rfl

theorem State.encoded_produced {s : State} {t : Tree} {d : List Byte}
    (hr : s.resultFits (5 + t.ser.length + ((t.stream d).length + 7) / 8)) :
    s.Produced (s.encoded t d)
      (frameContainer s.ilen (lastValidBits (t.stream d).length) t.ser (packedBytes (t.stream d))) := by
  refine produced_of ?_ rfl rfl rfl rfl rfl rfl rfl (.of_eq rfl rfl rfl rfl rfl rfl rfl)
  rwa [frameContainer_length, packedBytes_length]

theorem exec_encode_of_fits {s : State} {t : Tree} {d : List Byte} (ht : t.distinct) (htl : s.tlen.toNat = t.ser.length)
    (hth : Memory.holds s.tbuf t.ser) (h0 : d ≠ []) (hl : s.ilen.toNat = d.length) (hf : s.inputFits)
    (hh : Memory.holds s.ibuf d) (hm : ∀ x ∈ d, x ∈ t.symbols)
    (hr : s.resultFits (5 + t.ser.length + ((t.stream d).length + 7) / 8)) :
    exec .encode s = .next (s.encoded t d) :=
  runCommand_ok (encodeSteps_ok (s := s.issue) ht htl hth h0 hl hf hh hm hr)

/-- `ENCODE` ends without an error in one way only. -/
theorem exec_encode_without_error {s u : State} {d : List Byte} (hl : s.ilen.toNat = d.length)
    (hh : Memory.holds s.ibuf d) (h : exec .encode s = .next u) (he : u.err = none) :
    ∃ t : Tree, t.distinct ∧ (∀ x ∈ d, x ∈ t.symbols) ∧
      s.resultFits (5 + t.ser.length + ((t.stream d).length + 7) / 8) ∧ u = s.encoded t d := by
  rcases runCommand_next h with ⟨x, hx, rfl⟩ | ⟨e, -, rfl⟩
  · have hout := encodeSteps_outcome s.issue
    rw [hx] at hout
    cases hout with
    | framed _ _ t ht _ _ d' hl' hh' hm hr =>
      obtain rfl : d = d' := Memory.holds_unique (hl.symm.trans hl') hh hh'
      exact ⟨t, ht, hm, hr, rfl⟩
  · cases he

theorem frameContainer_eq_container {n : Word} {d : List Byte} (h : n.toNat = d.length) (t : Tree) :
    frameContainer n (lastValidBits (t.stream d).length) t.ser (packedBytes (t.stream d)) = t.container d := by
  rw [Tree.container, ← h, BitVec.ofNat_toNat, BitVec.setWidth_eq]

/-- Settles O32: `ENCODE` without an error left the container of `d` in some tree that has every symbol of `d`, and
`DECODE` walks that container's stream back to `d`. -/
theorem decodeInvertsEncode : Obligations.DecodeInvertsEncode := by
  intro s u v d c hlength hholds hencode herr hclength hcholds hvlength hvholds hvinput hvresult
  obtain ⟨t, hdistinct, hmem, hfits, rfl⟩ := exec_encode_without_error hlength hholds hencode herr
  have hproduced := State.encoded_produced hfits
  rw [frameContainer_eq_container hlength] at hproduced
  obtain rfl : c = t.container d :=
    Memory.holds_unique (hclength.symm.trans hproduced.olen) hcholds hproduced.obuf
  exact exec_decode_container hdistinct hmem (hlength ▸ s.ilen.isLt) hvlength hvinput hvholds hvresult

/-- Settles O27: where every test passes, the steps write the framed container and the two counts. -/
theorem encodeWritesTheContainer : Obligations.EncodeWritesTheContainer := by
  intro s t d hdistinct htlen htbuf hne hlength hinput hholds hmem hresult
  have hproduced := State.encoded_produced (s := s) hresult
  refine ⟨_, exec_encode_of_fits hdistinct htlen htbuf hne hlength hinput hholds hmem hresult, hproduced, ?olen,
    lastValidBits_toNat4 _, s.encoded_symcnt t d⟩
  case olen => rw [hproduced.olen, frameContainer_length, packedBytes_length, htlen]

/-! ### Splitting a container (R95, R96, R231) -/

theorem parseContainer_header (n : Word) (vb : Byte) (b : List Byte) :
    parseContainer (be32 n ++ [vb] ++ b) = parseBody n.toNat vb.toNat b := by
  simp only [be32, List.cons_append, List.nil_append, parseContainer, originalLength_be32]

theorem badValidBits_of_in_range {vb : Nat} (h1 : 1 ≤ vb) (h8 : vb ≤ 8) (n : Nat) : badValidBits n vb = false := by
  simp only [badValidBits, Bool.and_eq_false_iff, Bool.or_eq_false_iff, decide_eq_false_iff_not]
  omega

/-- Settles O26: the header is read back word by word, and the description says where it ends. -/
theorem parseContainerInvertsFrame : Obligations.ParseContainerInvertsFrame := by
  intro n vb t p hdistinct h1 h8
  have hvb : (BitVec.ofNat 8 vb).toNat = vb := by rw [BitVec.toNat_ofNat, Nat.mod_eq_of_lt (by omega)]
  rw [frameContainer, List.append_assoc, parseContainer_header, hvb]
  exact parseBody_ok hdistinct _ _ (badValidBits_of_in_range h1 h8 _)

/-! ### `DECODE` (R230, R231, R236) -/

/-- Settles O28: the walk reads the codes of `d` and leaves the rest, and `DECODE` writes no count. -/
theorem decodeRecoversTheBytes : Obligations.DecodeRecoversTheBytes := by
  intro s n vb t p d rest hdistinct hlength hinput hholds hbits hcount hmem hvalid hresult
  obtain ⟨u, hexec, hproduced⟩ :=
    exec_decode_produced hdistinct hlength hinput hholds hbits hcount hmem hvalid (hcount ▸ hresult)
  exact ⟨u, hexec, hproduced, exec_keeps_counts hexec fun h => absurd h.1 (by decide)⟩

theorem decodeSteps_tooShort {s : State} (hf : s.inputFits) (h5 : s.ilen.toNat < Config.headerSize) :
    decodeSteps s = throwErr .malformedContainer := by
  rw [decodeSteps, if_neg (not_not_intro hf), if_pos h5]

theorem parseBody_malformed {b : List Byte} (h : ¬∃ (t : Tree) (p : List Byte), t.distinct ∧ b = t.ser ++ p)
    (n vb : Nat) : parseBody n vb b = throwErr .malformedContainer := by
  rw [parseBody, loadTreeFrom_malformed h]
  rfl

/-- Settles O29: a short container is rejected before a byte is read, another where its description does not load. -/
theorem decodeRejectsMalformedContainers : Obligations.DecodeRejectsMalformedContainers := by
  intro s hinput
  refine ⟨fun hshort => ?short, fun n vb b hlength hholds hnone => ?noDescription⟩
  case short => exact runCommand_failed (decodeSteps_tooShort (s := s.issue) hinput hshort)
  case noDescription =>
    have hparse : parseContainer (be32 n ++ [vb] ++ b) = throwErr .malformedContainer :=
      (parseContainer_header n vb b).trans (parseBody_malformed hnone _ _)
    exact runCommand_failed (decodeSteps_malformed (s := s.issue) hlength hinput hholds hparse)

/-! ### The order of writes of a hardware engine (R224) -/

/-- Two runs of bytes side by side may be written in either order. -/
theorem Memory.writeBytes_append_swap {m : List Host.Cell} (hm : Memory.wf m) (i : Nat) (d e : List Byte) :
    Memory.writeBytes (Memory.writeBytes m (i + d.length) e) i d = Memory.writeBytes m i (d ++ e) := by
  refine Memory.ext_of_wf (Memory.wf_writeBytes (Memory.wf_writeBytes hm _ _) _ _) (Memory.wf_writeBytes hm _ _)
    fun j => ?_
  rw [Memory.writeBytes_append]
  simp only [Memory.read_writeBytes]
  by_cases hd : i ≤ j ∧ j - i < d.length
  · have he : ¬(i + d.length ≤ j ∧ j - (i + d.length) < e.length) := by omega
    rw [dif_pos hd, dif_neg he, dif_pos hd]
  · rw [dif_neg hd, dif_neg hd]

/-- Settles O56: the header takes the five bytes before the description, so that it is written last makes no difference. -/
theorem encodeWriteOrderGivesTheContainer : Obligations.EncodeWriteOrderGivesTheContainer := by
  intro n vb d p
  rw [encodeWrites, ← Memory.writeBytes_append, frameContainer, List.append_assoc]
  exact Memory.writeBytes_append_swap List.Pairwise.nil 0 (be32 n ++ [BitVec.ofNat 8 vb]) (d ++ p)

end Sys2Proof.Machine

/-! PROOFS. When two commands end alike, and the container commands against `LDTREE` and then `PACK` or `UNPACK` (spec
44_container.md R240). -/

namespace Sys2Proof.Machine

/-! ### Two commands that end alike -/

/-- How a command that answers a next state ended: its steps ran, or they raised an error (R251, R283). -/
inductive Completes (s : State) : Except Stop State → State → Prop where
  | ok (x : State) : Completes s (.ok x) x.complete
  | raised (e : ErrCode) : Completes s (throwErr e) (s.issue.raise e)

theorem runCommand_completes {body : State → Except Stop State} {s u : State} (h : runCommand body s = .next u) :
    Completes s (body s.issue) u := by
  rcases runCommand_next h with ⟨x, hx, rfl⟩ | ⟨e, he, rfl⟩
  · exact hx ▸ .ok x
  · exact he ▸ .raised e

/-- `u` and `v` agree on everything the command `i` writes: `STATUS`, `OLEN`, the tree, the result bytes, and the counts
where the command writes them. -/
structure State.EndsAlike (i : Instr) (u v : State) : Prop where
  busy : u.busy = v.busy
  err : u.err = v.err
  phase : u.phase = v.phase
  olen : u.olen = v.olen
  tm : u.tm = v.tm
  ct : u.ct = v.ct
  obuf : u.obuf = v.obuf
  counts : i ∈ [Instr.pack, .encode] → u.err = none → u.vbits = v.vbits ∧ u.symcnt = v.symcnt

theorem State.EndsAlike.status {i : Instr} {u v : State} (h : u.EndsAlike i v) : u.status = v.status := by
  rw [State.status, State.status, h.busy, h.err, h.phase]

/-- Two commands that raise the same error end alike, whatever ran before. -/
theorem runCommand_raise_alike {body : State → Except Stop State} {t : State} {e : ErrCode}
    (h : body t.issue = throwErr e) (i : Instr) (s : State) :
    ∃ v, runCommand body t = .next v ∧ (s.issue.raise e).EndsAlike i v :=
  ⟨_, runCommand_raise h, rfl, rfl, rfl, rfl, rfl, rfl, rfl, fun _ he => absurd he (by simp)⟩

/-- Two commands that end with the same result and write no count end alike. -/
theorem State.putResult_alike {i : Instr} (hi : i ∉ [Instr.pack, .encode]) {x y : State} (he : x.err = y.err)
    (ho : x.obuf = y.obuf) (r : List Byte) :
    (x.putResult r).endCall.complete.EndsAlike i (y.putResult r).endCall.complete :=
  ⟨rfl, he, rfl, rfl, rfl, rfl, congrArg (Memory.writeBytes · 0 r) ho, fun h => absurd h hi⟩

/-! ### `ENCODE` as `LDTREE` and then `PACK` (R240) -/

/-- The state after `LDTREE` of the description of `t` (R150). -/
def State.afterLdtree (s : State) (t : Tree) : State :=
  ((s.issue.startCall.setPhase .header).loadTree (t.records 0) (deriveCodes (t.records 0))).scrambleWork.complete

theorem loadTbuf_malformed_of_no_description {s : State} (h : Config.tbufCap < s.tlen.toNat ∨
    ∃ d : List Byte, s.tlen.toNat = d.length ∧ Memory.holds s.tbuf d ∧ ¬∃ t : Tree, t.distinct ∧ d = t.ser) :
    s.loadTbuf = throwErr .malformedContainer := by
  rcases h with habove | ⟨d, hl, hh, hnone⟩
  · exact loadTbuf_malformed_of_tbufCap_lt habove
  · exact loadTbuf_malformed hl hh hnone

theorem exec_ldtree_next {s u : State} (h : exec .ldtree s = .next u) :
    (∃ t : Tree, t.distinct ∧ s.tlen.toNat = t.ser.length ∧ Memory.holds s.tbuf t.ser ∧ u = s.afterLdtree t) ∨
    (s.loadTbuf = throwErr .malformedContainer ∧ u = s.issue.raise .malformedContainer) := by
  have hend := runCommand_completes h
  have hout := ldtreeSteps_outcome s.issue
  generalize ldtreeSteps s.issue = r at hend hout
  cases hout with
  | loaded t ht hl hh => cases hend; exact .inl ⟨t, ht, hl, hh, rfl⟩
  | malformed hbad => cases hend; exact .inr ⟨loadTbuf_malformed_of_no_description (s := s.issue) hbad, rfl⟩
  | unwritten => cases hend

/-- `PACK` answers a next state only when the input fits. -/
theorem inputFits_of_exec_pack {s u : State} (h : exec .pack s = .next u) : s.inputFits := by
  by_contra hf
  have hsteps : packSteps s.issue = refuseCmd .inputBeyondCapacity := if_pos hf
  cases (runCommand_refuse hsteps).symm.trans h

/-- `PACK` with no tree loaded raises an error. -/
theorem exec_pack_raise_ne_none {s v : State} {e : ErrCode} (h : exec .pack (s.issue.raise e) = .next v) :
    v.err ≠ none := by
  have hf := inputFits_of_exec_pack h
  have hsteps : packSteps (s.issue.raise e).issue = throwErr .illegalCommand := packSteps_illegal (by simp) hf
  cases (runCommand_raise hsteps).symm.trans h
  simp

/-- The state after `PACK` of `d` with the tree `t` loaded (R180). -/
def State.packed (s : State) (t : Tree) (d : List Byte) : State :=
  (((s.issue.clearWork.setPhase .transcoding).putResult (packedBytes (t.stream d))).putPackCounts
    (lastValidBits (t.stream d).length)).endCall.complete

/-- `PACK` after `LDTREE` packs in the tree loaded, or raises the error that `ENCODE` raises. -/
theorem exec_pack_afterLdtree {s v : State} {t : Tree} (ht : t.distinct) (htl : s.tlen.toNat = t.ser.length)
    (hth : Memory.holds s.tbuf t.ser) (h : exec .pack (s.afterLdtree t) = .next v) :
    (∃ e, v = (s.afterLdtree t).issue.raise e ∧ encodeSteps s.issue = throwErr e) ∨
    (∃ d : List Byte, d ≠ [] ∧ s.ilen.toNat = d.length ∧ s.inputFits ∧ Memory.holds s.ibuf d ∧
      (∀ x ∈ d, x ∈ t.symbols) ∧ s.resultFits (packedBytes (t.stream d)).length ∧
      v = (s.afterLdtree t).packed t d) := by
  have hcode := code_deriveCodes t ht
  have hend := runCommand_completes h
  have hout := packSteps_outcome (s.afterLdtree t).issue
  generalize packSteps (s.afterLdtree t).issue = r at hend hout
  cases hout with
  | inputTooLong => cases hend
  | unwritten => cases hend
  | resultTooLong => cases hend
  | illegal _ hp => exact absurd rfl hp
  | empty _ _ h0 => cases hend; exact .inl ⟨_, rfl, encodeSteps_empty (s := s.issue) h0⟩
  | missing hf _ _ d hl hh hm =>
    cases hend
    obtain ⟨x, hx, hnone⟩ := hm
    have hnot : x ∉ t.symbols := (t.lookup_codes_none_iff x).mp ((hcode x).symm.trans hnone)
    exact .inl ⟨_, rfl, encodeSteps_missing (s := s.issue) ht htl hth hl hf hh ⟨x, hx, hnot⟩⟩
  | packed hf _ h0 d hl hh hm hr =>
    cases hend
    have hstream : codeStream (s.afterLdtree t).issue.ct d = t.stream d := codeStream_eq_stream hcode d
    have hmem : ∀ x ∈ d, x ∈ t.symbols := (missesCode_tree hcode d).mp ((missesCode_eq_false_iff _ d).mpr hm)
    rw [hstream] at hr ⊢
    refine .inr ⟨d, ?_, hl, hf, hh, hmem, (packedBytes_length _).trans_le hr, rfl⟩
    rintro rfl
    exact h0.ne' hl

theorem State.packed_vbits (s : State) (t : Tree) (d : List Byte) :
    (s.packed t d).vbits = BitVec.ofNat 4 (lastValidBits (t.stream d).length) := rfl

theorem State.packed_symcnt (s : State) (t : Tree) (d : List Byte) : (s.packed t d).symcnt = s.ilen := rfl

theorem State.packed_produced {s : State} {t : Tree} {d : List Byte}
    (hr : s.resultFits (packedBytes (t.stream d)).length) : s.Produced (s.packed t d) (packedBytes (t.stream d)) :=
  produced_of hr rfl rfl rfl rfl rfl rfl rfl (.of_eq rfl rfl rfl rfl rfl rfl rfl)

/-- The valid-bit count goes into `VBITS` and into the header alike. -/
theorem lastValidBits_setWidth (n : Nat) :
    (BitVec.ofNat 4 (lastValidBits n)).setWidth 8 = BitVec.ofNat 8 (lastValidBits n) := by
  refine BitVec.eq_of_toNat_eq ?_
  rw [BitVec.toNat_setWidth_of_le (by decide), lastValidBits_toNat4, lastValidBits_toNat8]

/-- Settles O33: `LDTREE` loads `TBUF` as `ENCODE` does, and `PACK` then makes the tests `ENCODE` has left, but for the
room that the header and the description take. -/
theorem encodeIsLdtreeThenPack : Obligations.EncodeIsLdtreeThenPack := by
  intro s u v hload hpack
  rcases exec_ldtree_next hload with ⟨t, hdistinct, htlen, htbuf, rfl⟩ | ⟨hmalformed, rfl⟩
  · rcases exec_pack_afterLdtree hdistinct htlen htbuf hpack with
      ⟨e, rfl, hsteps⟩ | ⟨d, hne, hlength, hinput, hholds, hmem, hfits, rfl⟩
    · -- `PACK` raised an error
      refine ⟨fun _ _ hnone => (nomatch hnone), fun e' _ he => ?_, fun _ he => nomatch he⟩
      obtain rfl := Option.some.inj he
      exact runCommand_failed hsteps
    · -- the pair succeeded
      refine ⟨fun b p _ hblength hbholds hplength hpholds hresult => ?_, fun _ _ he => (nomatch he),
        fun _ he => nomatch he⟩
      have hpacked := State.packed_produced (s := s.afterLdtree t) hfits
      obtain rfl : b = t.ser := Memory.holds_unique (hblength.symm.trans htlen) hbholds htbuf
      obtain rfl : p = packedBytes (t.stream d) :=
        Memory.holds_unique (hplength.symm.trans hpacked.olen) hpholds hpacked.obuf
      rw [packedBytes_length] at hresult
      refine ⟨s.encoded t d, exec_encode_of_fits hdistinct htlen htbuf hne hlength hinput hholds hmem hresult, ?_,
        s.encoded_vbits t d, s.encoded_symcnt t d⟩
      rw [State.packed_vbits, lastValidBits_setWidth]
      exact State.encoded_produced hresult
  · -- `LDTREE` raised an error, and so did `PACK`
    have hinput := inputFits_of_exec_pack hpack
    have hraised := exec_pack_raise_ne_none hpack
    refine ⟨fun _ _ hnone => absurd hnone hraised, fun _ hnone => (nomatch hnone), fun e he => ?_⟩
    obtain rfl := Option.some.inj he
    split
    next h0 => exact runCommand_failed (encodeSteps_empty (s := s.issue) h0)
    next h0 => exact (exec_malformed_of_loadTbuf hmalformed).2 (Nat.pos_of_ne_zero h0) hinput

/-! ### `DECODE` as `LDTREE` and then `UNPACK` (R240) -/

theorem walkBits_of_unpackBits {tm : TreeMem} {p : List Byte} {vb cnt : Nat} {r : Except Stop (List Byte)}
    (hb : badValidBits p.length vb = false) (h : unpackBits tm p vb cnt = r) :
    walkBits tm (validBits p vb) cnt = r := by
  rw [unpackBits_eq, hb] at h
  exact h

/-- `UNPACK` of the packed bytes of a container, in a state with the container's tree, valid-bit count and length, ends
as `DECODE` of the container does. -/
theorem exec_decode_alike_unpack {s b v : State} {n : Word} {vb : Byte} {t : Tree} {p : List Byte} (ht : t.distinct)
    (hl : s.ilen.toNat = (be32 n ++ [vb] ++ t.ser ++ p).length) (hf : s.inputFits)
    (hh : Memory.holds s.ibuf (be32 n ++ [vb] ++ t.ser ++ p)) (hr : s.resultFits n.toNat)
    (hphase : b.phase = .treeReady) (htm : b.tm = t.records 0) (hbl : b.ilen.toNat = p.length)
    (hbh : Memory.holds b.ibuf p) (hvb : b.vbits.toNat = vb.toNat) (hcnt : b.symcnt = n)
    (h : exec .unpack b = .next v) : ∃ w, exec .decode s = .next w ∧ v.EndsAlike .decode w := by
  have hend := runCommand_completes h
  have hout := unpackSteps_outcome b.issue
  generalize unpackSteps b.issue = r at hend hout
  cases hout with
  | inputTooLong => cases hend
  | resultTooLong => cases hend
  | unwritten => cases hend
  | illegal _ _ hp => exact absurd hphase hp
  | badCount _ _ _ hb =>
    cases hend
    simp only [State.issue_ilen, State.issue_vbits, hbl, hvb] at hb
    exact runCommand_raise_alike (decodeSteps_malformed (s := s.issue) hl hf hh (parseContainer_badCount hb)) _ _
  | walkFailed _ _ _ hb p' hl' hh' e _ hw =>
    cases hend
    obtain rfl : p = p' := Memory.holds_unique (hbl.symm.trans hl') hbh hh'
    simp only [State.issue_ilen, State.issue_vbits, State.issue_tm, State.issue_symcnt, hbl, hvb, htm, hcnt] at hb hw
    exact runCommand_raise_alike
      (decodeSteps_raise (s := s.issue) ht hl hf hh hb hr (walkBits_of_unpackBits hb hw)) _ _
  | walked _ _ _ hb p' hl' hh' out hw _ =>
    cases hend
    obtain rfl : p = p' := Memory.holds_unique (hbl.symm.trans hl') hbh hh'
    simp only [State.issue_ilen, State.issue_vbits, State.issue_tm, State.issue_symcnt, hbl, hvb, htm, hcnt] at hb hw
    exact ⟨_, runCommand_ok (decodeSteps_ok (s := s.issue) ht hl hf hh hb hr (walkBits_of_unpackBits hb hw)),
      State.putResult_alike (by decide) (by rfl) (by rfl) out⟩

/-- Settles O34: `LDTREE` loaded the container's tree, and `UNPACK` then makes the tests and the walk of `DECODE`. -/
theorem decodeIsLdtreeThenUnpack : Obligations.DecodeIsLdtreeThenUnpack := by
  intro s a u b v n vb t p hdistinct hlength hinput hholds hresult htlen htbuf hload hphase htm _ hblength hbholds hvb
    hcount hunpack
  have hloaded : exec .ldtree a = .next (a.afterLdtree t) :=
    runCommand_ok (ldtreeSteps_ok (s := a.issue) hdistinct htlen htbuf)
  cases hload.symm.trans hloaded
  obtain ⟨w, hdecode, halike⟩ := exec_decode_alike_unpack hdistinct hlength hinput hholds hresult hphase htm hblength
    hbholds hvb hcount hunpack
  exact ⟨w, hdecode, halike.err.symm, halike.olen.symm, halike.phase.symm, fun k _ => by rw [halike.obuf]⟩

end Sys2Proof.Machine

/-! PROOFS. A command is a function of its operands (spec 44_container.md R242). -/

namespace Sys2Proof.Machine

/-! ### What the two states agree on -/

section
variable {i : Instr} {s t u : State}

theorem State.SameOperands.resultFits (h : s.SameOperands i t) {n : Nat} (hr : s.resultFits n) : t.resultFits n := by
  rwa [State.resultFits, ← h.caps]

theorem State.SameOperands.inputFits (h : s.SameOperands i t) (hi : i ∈ [Instr.pack, .unpack, .encode, .decode])
    (hf : s.inputFits) : t.inputFits := by
  rwa [State.inputFits, ← h.caps, ← (h.ibuf hi).1]

theorem Memory.holds_of_read_eq {m n : List Host.Cell} {d : List Byte} {l : Nat} (hl : l = d.length)
    (hread : ∀ k, k < l → Memory.read m k = Memory.read n k) (h : Memory.holds m d) : Memory.holds n d :=
  fun k hk => (hread k (hl ▸ hk)).symm.trans (h k hk)

theorem State.SameOperands.input (h : s.SameOperands i t) (hi : i ∈ [Instr.pack, .unpack, .encode, .decode])
    {d : List Byte} (hl : s.ilen.toNat = d.length) (hh : Memory.holds s.ibuf d) :
    t.ilen.toNat = d.length ∧ Memory.holds t.ibuf d :=
  ⟨(h.ibuf hi).1 ▸ hl, Memory.holds_of_read_eq hl (h.ibuf hi).2 hh⟩

theorem State.SameOperands.description (h : s.SameOperands i t) (hi : i ∈ [Instr.ldtree, .encode])
    {d : List Byte} (hl : s.tlen.toNat = d.length) (hh : Memory.holds s.tbuf d) :
    t.tlen.toNat = d.length ∧ Memory.holds t.tbuf d :=
  ⟨(h.tbuf hi).1 ▸ hl, Memory.holds_of_read_eq hl (h.tbuf hi).2 hh⟩

theorem State.SameOperands.loadTbuf (h : s.SameOperands i t) (hi : i ∈ [Instr.ldtree, .encode]) :
    t.loadTbuf = s.loadTbuf := by
  obtain ⟨htlen, hread⟩ := h.tbuf hi
  rw [State.loadTbuf, State.loadTbuf, ← htlen, prefixOf_reads (s := s) (t := t) (b := .tbuf) hread]

/-! ### Command by command -/

theorem exec_clear_alike (h : exec .clear s = .next u) : ∃ v, exec .clear t = .next v ∧ u.EndsAlike .clear v := by
  cases h
  exact ⟨_, rfl, rfl, rfl, rfl, rfl, rfl, rfl, rfl, fun hi => absurd hi (by decide)⟩

theorem exec_ldtree_alike (h : s.SameOperands .ldtree t) (hs : exec .ldtree s = .next u) :
    ∃ v, exec .ldtree t = .next v ∧ u.EndsAlike .ldtree v := by
  rcases exec_ldtree_next hs with ⟨r, hr, hl, hh, rfl⟩ | ⟨hmalformed, rfl⟩
  · obtain ⟨hl', hh'⟩ := h.description (by decide) hl hh
    exact ⟨_, runCommand_ok (ldtreeSteps_ok (s := t.issue) hr hl' hh'),
      rfl, rfl, rfl, rfl, rfl, rfl, rfl, fun hi => absurd hi (by decide)⟩
  · rw [← h.loadTbuf (by decide)] at hmalformed
    exact runCommand_raise_alike (ldtreeSteps_malformed (s := t.issue) hmalformed) _ _

theorem exec_pack_alike (h : s.SameOperands .pack t) (hs : exec .pack s = .next u) :
    ∃ v, exec .pack t = .next v ∧ u.EndsAlike .pack v := by
  obtain ⟨hphase, htree⟩ := h.tree (by decide)
  have hend := runCommand_completes hs
  have hout := packSteps_outcome s.issue
  generalize packSteps s.issue = r at hend hout
  cases hout with
  | inputTooLong => cases hend
  | unwritten => cases hend
  | resultTooLong => cases hend
  | illegal hf hp =>
    cases hend
    exact runCommand_raise_alike (packSteps_illegal (s := t.issue) (hphase ▸ hp) (h.inputFits (by decide) hf)) _ _
  | empty _ hp h0 =>
    cases hend
    exact runCommand_raise_alike
      (packSteps_empty (s := t.issue) (hphase.symm.trans hp) ((h.ibuf (by decide)).1 ▸ h0)) _ _
  | missing hf hp _ d hl hh hm =>
    cases hend
    obtain ⟨hl', hh'⟩ := h.input (by decide) hl hh
    obtain ⟨-, hct⟩ := htree hp
    exact runCommand_raise_alike (packSteps_missing (s := t.issue) (hphase.symm.trans hp) hl'
      (h.inputFits (by decide) hf) hh' (hct ▸ hm)) _ _
  | packed hf hp h0 d hl hh hm hr =>
    cases hend
    obtain ⟨hl', hh'⟩ := h.input (by decide) hl hh
    obtain ⟨-, hct⟩ := htree hp
    have hne : d ≠ [] := by rintro rfl; exact h0.ne' hl
    rw [State.issue_ct, hct] at hm hr ⊢
    exact ⟨_, runCommand_ok (packSteps_ok (s := t.issue) (hphase.symm.trans hp) hne hl' (h.inputFits (by decide) hf) hh'
      hm (h.resultFits hr)), rfl, rfl, rfl, rfl, rfl, rfl, rfl, fun _ _ => ⟨rfl, (h.ibuf (by decide)).1⟩⟩

theorem State.SameOperands.walk (h : s.SameOperands .unpack t) (hp : s.phase = .treeReady) {p : List Byte}
    {r : Except Stop (List Byte)} (hl : s.ilen.toNat = p.length) (hb : badValidBits s.ilen.toNat s.vbits.toNat = false)
    (hw : unpackBits s.tm p s.vbits.toNat s.symcnt.toNat = r) :
    badValidBits p.length t.vbits.toNat = false ∧ walkBits t.tm (validBits p t.vbits.toNat) t.symcnt.toNat = r := by
  obtain ⟨hvbits, hsymcnt⟩ := h.counts rfl
  obtain ⟨htm, -⟩ := (h.tree (by decide)).2 hp
  rw [hl, hvbits] at hb
  rw [htm, hvbits, hsymcnt] at hw
  exact ⟨hb, walkBits_of_unpackBits hb hw⟩

theorem exec_unpack_alike (h : s.SameOperands .unpack t) (hs : exec .unpack s = .next u) :
    ∃ v, exec .unpack t = .next v ∧ u.EndsAlike .unpack v := by
  have hphase := (h.tree (by decide)).1
  obtain ⟨hvbits, hsymcnt⟩ := h.counts rfl
  have hilen := (h.ibuf (by decide)).1
  have hend := runCommand_completes hs
  have hout := unpackSteps_outcome s.issue
  generalize unpackSteps s.issue = r at hend hout
  cases hout with
  | inputTooLong => cases hend
  | resultTooLong => cases hend
  | unwritten => cases hend
  | illegal hf hr hp =>
    cases hend
    exact runCommand_raise_alike (unpackSteps_illegal (s := t.issue) (hphase ▸ hp) (h.inputFits (by decide) hf)
      (hsymcnt ▸ h.resultFits hr)) _ _
  | badCount hf hr hp hb =>
    cases hend
    exact runCommand_raise_alike (unpackSteps_badCount (s := t.issue) (hphase.symm.trans hp)
      (h.inputFits (by decide) hf) (hsymcnt ▸ h.resultFits hr) (hilen ▸ hvbits ▸ hb)) _ _
  | walkFailed hf hr hp hb p hl hh e _ hw =>
    cases hend
    obtain ⟨hl', hh'⟩ := h.input (by decide) hl hh
    obtain ⟨hb', hw'⟩ := h.walk hp hl hb hw
    exact runCommand_raise_alike (unpackSteps_raise (s := t.issue) (hphase.symm.trans hp) hl'
      (h.inputFits (by decide) hf) (hsymcnt ▸ h.resultFits hr) hh' hb' hw') _ _
  | walked hf hr hp hb p hl hh out hw _ =>
    cases hend
    obtain ⟨hl', hh'⟩ := h.input (by decide) hl hh
    obtain ⟨hb', hw'⟩ := h.walk hp hl hb hw
    exact ⟨_, runCommand_ok (unpackSteps_ok (s := t.issue) (hphase.symm.trans hp) hl' (h.inputFits (by decide) hf)
      (hsymcnt ▸ h.resultFits hr) hh' hb' hw'),
      State.putResult_alike (by decide) (by rfl) (by rfl) out⟩

theorem State.encoded_alike (h : s.ilen = t.ilen) (r : Tree) (d : List Byte) :
    (s.encoded r d).EndsAlike .encode (t.encoded r d) := by
  have hframe : frameContainer s.ilen (lastValidBits (r.stream d).length) r.ser (packedBytes (r.stream d)) =
    frameContainer t.ilen (lastValidBits (r.stream d).length) r.ser (packedBytes (r.stream d)) := by rw [h]
  exact ⟨rfl, rfl, rfl, congrArg (fun c : List Byte => BitVec.ofNat 32 c.length) hframe, rfl, rfl,
    congrArg (Memory.writeBytes [] 0) hframe, fun _ _ => ⟨rfl, h⟩⟩

theorem exec_encode_alike (h : s.SameOperands .encode t) (hs : exec .encode s = .next u) :
    ∃ v, exec .encode t = .next v ∧ u.EndsAlike .encode v := by
  have hilen := (h.ibuf (by decide)).1
  have hend := runCommand_completes hs
  have hout := encodeSteps_outcome s.issue
  generalize encodeSteps s.issue = r at hend hout
  cases hout with
  | inputTooLong => cases hend
  | unwrittenTbuf => cases hend
  | unwrittenIbuf => cases hend
  | resultTooLong => cases hend
  | empty _ h0 => cases hend; exact runCommand_raise_alike (encodeSteps_empty (s := t.issue) (hilen ▸ h0)) _ _
  | malformed hf h0 hbad =>
    cases hend
    have hload := (h.loadTbuf (by decide)).trans (loadTbuf_malformed_of_no_description hbad)
    exact runCommand_raise_alike
      (encodeSteps_malformed (s := t.issue) (hilen ▸ h0) (h.inputFits (by decide) hf) hload) _ _
  | missing hf _ x hx htl hth d hl hh hm =>
    cases hend
    obtain ⟨htl', hth'⟩ := h.description (by decide) htl hth
    obtain ⟨hl', hh'⟩ := h.input (by decide) hl hh
    exact runCommand_raise_alike
      (encodeSteps_missing (s := t.issue) hx htl' hth' hl' (h.inputFits (by decide) hf) hh' hm) _ _
  | framed hf h0 x hx htl hth d hl hh hm hr =>
    cases hend
    obtain ⟨htl', hth'⟩ := h.description (by decide) htl hth
    obtain ⟨hl', hh'⟩ := h.input (by decide) hl hh
    have hne : d ≠ [] := by rintro rfl; exact h0.ne' hl
    exact ⟨_, exec_encode_of_fits hx htl' hth' hne hl' (h.inputFits (by decide) hf) hh' hm (h.resultFits hr),
      State.encoded_alike hilen x d⟩

/-- Every four bytes are `BE32` of the word they read as (R60, R96). -/
theorem exists_be32_eq (c0 c1 c2 c3 : Byte) :
    ∃ n : Word, be32 n = [c0, c1, c2, c3] ∧ n.toNat = originalLength c0 c1 c2 c3 := by
  obtain ⟨n, hn⟩ : ∃ n : Word, n.toNat = originalLength c0 c1 c2 c3 :=
    ⟨BitVec.ofNat 32 _, by rw [BitVec.toNat_ofNat, Nat.mod_eq_of_lt (originalLength_lt c0 c1 c2 c3)]⟩
  refine ⟨n, ?_, hn⟩
  rw [originalLength] at hn
  simp only [be32, List.cons.injEq, and_true, ← BitVec.toNat_inj, BitVec.extractLsb'_toNat, Nat.shiftRight_eq_div_pow]
  omega

theorem exists_containerBytes_eq (c0 c1 c2 c3 vb : Byte) (t : Tree) (p : List Byte) :
    ∃ n : Word, containerBytes c0 c1 c2 c3 vb t p = be32 n ++ [vb] ++ t.ser ++ p ∧
      n.toNat = originalLength c0 c1 c2 c3 := by
  obtain ⟨n, hbytes, hn⟩ := exists_be32_eq c0 c1 c2 c3
  exact ⟨n, by rw [hbytes]; rfl, hn⟩

theorem exec_decode_alike (h : s.SameOperands .decode t) (hs : exec .decode s = .next u) :
    ∃ v, exec .decode t = .next v ∧ u.EndsAlike .decode v := by
  have hilen := (h.ibuf (by decide)).1
  have hend := runCommand_completes hs
  have hout := decodeSteps_outcome s.issue
  generalize decodeSteps s.issue = r at hend hout
  cases hout with
  | inputTooLong => cases hend
  | unwritten => cases hend
  | resultTooLong => cases hend
  | tooShort hf h5 =>
    cases hend
    exact runCommand_raise_alike
      (decodeSteps_tooShort (s := t.issue) (h.inputFits (by decide) hf) (hilen ▸ h5)) _ _
  | malformed hf _ c hl hh hc =>
    cases hend
    obtain ⟨hl', hh'⟩ := h.input (by decide) hl hh
    exact runCommand_raise_alike
      (decodeSteps_malformed (s := t.issue) hl' (h.inputFits (by decide) hf) hh' hc) _ _
  | walkFailed hf c0 c1 c2 c3 vb x hx p hl hh hb hr e _ hw =>
    cases hend
    obtain ⟨hl', hh'⟩ := h.input (by decide) hl hh
    obtain ⟨n, hc, hn⟩ := exists_containerBytes_eq c0 c1 c2 c3 vb x p
    rw [hc] at hl' hh'
    rw [← hn] at hr hw
    exact runCommand_raise_alike (decodeSteps_raise (s := t.issue) hx hl' (h.inputFits (by decide) hf) hh' hb
      (h.resultFits hr) (walkBits_of_unpackBits hb hw)) _ _
  | walked hf c0 c1 c2 c3 vb x hx p hl hh hb hr out hw _ =>
    cases hend
    obtain ⟨hl', hh'⟩ := h.input (by decide) hl hh
    obtain ⟨n, hc, hn⟩ := exists_containerBytes_eq c0 c1 c2 c3 vb x p
    rw [hc] at hl' hh'
    rw [← hn] at hr hw
    exact ⟨_, runCommand_ok (decodeSteps_ok (s := t.issue) hx hl' (h.inputFits (by decide) hf) hh' hb
      (h.resultFits hr) (walkBits_of_unpackBits hb hw)),
      State.putResult_alike (by decide) (by rfl) (by rfl) out⟩

/-! ### Every command -/

theorem exec_alike (hi : i ≠ .nop) (h : s.SameOperands i t) (hs : exec i s = .next u) :
    ∃ v, exec i t = .next v ∧ u.EndsAlike i v := by
  cases i with
  | nop => exact absurd rfl hi
  | clear => exact exec_clear_alike hs
  | ldtree => exact exec_ldtree_alike h hs
  | pack => exact exec_pack_alike h hs
  | unpack => exact exec_unpack_alike h hs
  | encode => exact exec_encode_alike h hs
  | decode => exact exec_decode_alike h hs

/-- The counts after a command: alike where it writes them, and else those before it. -/
theorem State.EndsAlike.counts_of_same {v : State} (h : u.EndsAlike i v) (hs : exec i s = .next u)
    (ht : exec i t = .next v) :
    (s.vbits = t.vbits → u.vbits = v.vbits) ∧ (s.symcnt = t.symcnt → u.symcnt = v.symcnt) := by
  by_cases hw : i ∈ [Instr.pack, .encode] ∧ u.err = none
  · obtain ⟨hvbits, hsymcnt⟩ := h.counts hw.1 hw.2
    exact ⟨fun _ => hvbits, fun _ => hsymcnt⟩
  · obtain ⟨huv, hus⟩ := exec_keeps_counts hs hw
    obtain ⟨hvv, hvs⟩ := exec_keeps_counts ht (h.err ▸ hw)
    exact ⟨fun e => huv.trans (e.trans hvv.symm), fun e => hus.trans (e.trans hvs.symm)⟩

end

/-- Settles O35: each test and each step of a command reads its operands only, so both states take the same way through
it; and the counts it does not write stay. -/
theorem resultsDependOnOperandsOnly : Obligations.ResultsDependOnOperandsOnly := by
  intro i s t u hi hsame hs
  obtain ⟨v, ht, halike⟩ := exec_alike hi hsame hs
  obtain ⟨hvbits, hsymcnt⟩ := halike.counts_of_same hs ht
  exact ⟨v, ht, halike.status, halike.olen, halike.tm, halike.ct, fun k _ => by rw [halike.obuf], halike.counts, hvbits,
    hsymcnt⟩

end Sys2Proof.Machine

/-! PROOFS. `NOP` and `CLEAR`, the phase and the tree after a command, when a command completes, and the host's register
and buffer accesses (spec 45_control.md R251 to R261, 70_reset_and_hazards.md R340). -/

namespace Sys2Proof.Machine

/-! ### The phase and the tree after a command (R252, R253) -/

theorem fits_of_exec_unpack {s u : State} (h : exec .unpack s = .next u) :
    s.inputFits ∧ s.resultFits s.symcnt.toNat := by
  have hend := runCommand_completes h
  have hout := unpackSteps_outcome s.issue
  generalize unpackSteps s.issue = r at hend hout
  cases hout with
  | inputTooLong => cases hend
  | resultTooLong => cases hend
  | unwritten => cases hend
  | illegal hf hr | badCount hf hr | walkFailed hf hr | walked hf hr => exact ⟨hf, hr⟩

theorem exec_pack_outside_treeReady {s u : State} (hp : s.phase ≠ .treeReady) (h : exec .pack s = .next u) :
    s.Failed u .illegalCommand := by
  obtain ⟨v, hv, hfailed⟩ := (packAndUnpackNeedALoadedTree s hp (inputFits_of_exec_pack h)).1
  cases hv.symm.trans h
  exact hfailed

theorem exec_unpack_outside_treeReady {s u : State} (hp : s.phase ≠ .treeReady) (h : exec .unpack s = .next u) :
    s.Failed u .illegalCommand := by
  obtain ⟨hf, hr⟩ := fits_of_exec_unpack h
  obtain ⟨v, hv, hfailed⟩ := (packAndUnpackNeedALoadedTree s hp hf).2 hr
  cases hv.symm.trans h
  exact hfailed

theorem exec_encode_legal {s u : State} (h : exec .encode s = .next u) : u.err ≠ some .illegalCommand := by
  have hend := runCommand_completes h
  have hout := encodeSteps_outcome s.issue
  generalize encodeSteps s.issue = r at hend hout
  cases hout with
  | inputTooLong => cases hend
  | unwrittenTbuf => cases hend
  | unwrittenIbuf => cases hend
  | resultTooLong => cases hend
  | empty | malformed | missing | framed => cases hend; simp

theorem exec_decode_legal {s u : State} (h : exec .decode s = .next u) : u.err ≠ some .illegalCommand := by
  have hend := runCommand_completes h
  have hout := decodeSteps_outcome s.issue
  generalize decodeSteps s.issue = r at hend hout
  cases hout with
  | inputTooLong => cases hend
  | unwritten => cases hend
  | resultTooLong => cases hend
  | tooShort | malformed | walked => cases hend; simp
  | walkFailed _ c0 c1 c2 c3 vb t _ p _ _ _ _ e he =>
    cases hend
    rcases he with rfl | rfl <;> simp

/-- The tree is there after a command only where `LDTREE` has just loaded it. -/
theorem exec_tree_cases {i : Instr} {s u : State} (hi : i ≠ .nop) (h : exec i s = .next u) :
    (i = .ldtree ∧ u.phase = .treeReady) ∨ u.treeInvalid := by
  rcases exec_next_cases hi h with ⟨e, rfl⟩ | ⟨-, rfl⟩ | ⟨hldtree, t, -, -, -, rfl⟩ |
      ⟨-, r, vb, x, -, -, -, -, -, -, -, rfl⟩ | ⟨-, r, x, -, -, -, -, -, -, -, -, -, rfl⟩
  · exact .inr (treeInvalid_empty rfl rfl)
  · exact .inr (treeInvalid_empty rfl rfl)
  · exact .inl ⟨hldtree, rfl⟩
  · exact .inr (treeInvalid_empty rfl rfl)
  · exact .inr (treeInvalid_empty rfl rfl)

theorem exec_transcoding_done {i : Instr} {s u : State} (hi : i ∈ [Instr.pack, .unpack, .encode, .decode])
    (h : exec i s = .next u) : u.phase = .done := by
  have hnop : i ≠ .nop := by rintro rfl; exact absurd hi (by decide)
  rcases exec_next_cases hnop h with ⟨e, rfl⟩ | ⟨rfl, -⟩ | ⟨rfl, -⟩ |
      ⟨-, r, vb, x, -, -, -, -, -, -, -, rfl⟩ | ⟨-, r, x, -, -, -, -, -, -, -, -, -, rfl⟩
  · rfl
  · exact absurd hi (by decide)
  · exact absurd hi (by decide)
  · rfl
  · rfl

/-- Settles O36: a word that decodes runs its command, whose ends are those of its inversion lemma; any other raises
`IllegalCommandError`. -/
theorem phaseTable : Obligations.PhaseTable := by
  intro w s u h
  cases hdecode : decode w with
  | error e =>
    rw [issueWord_reserved hdecode] at h
    obtain ⟨t, ht, hfailed⟩ := execReserved_failed s
    cases ht.symm.trans h
    exact ⟨hfailed.phase, hfailed.err⟩
  | ok i =>
    rw [issueWord_command hdecode] at h
    cases i with
    | nop => cases h; rfl
    | clear => cases h; exact ⟨rfl, rfl⟩
    | ldtree =>
      rcases exec_ldtree_next h with ⟨t, -, -, -, rfl⟩ | ⟨-, rfl⟩
      · exact .inl ⟨rfl, rfl⟩
      · exact .inr ⟨by simp, rfl⟩
    | pack => exact ⟨exec_transcoding_done (by decide) h, fun hp => (exec_pack_outside_treeReady hp h).err⟩
    | unpack => exact ⟨exec_transcoding_done (by decide) h, fun hp => (exec_unpack_outside_treeReady hp h).err⟩
    | encode => exact ⟨exec_transcoding_done (by decide) h, exec_encode_legal h⟩
    | decode => exact ⟨exec_transcoding_done (by decide) h, exec_decode_legal h⟩

/-- Settles O37: only `LDTREE` leaves a tree, and then `PHASE` is `TreeReady`; a transcoding ends in `Done`, where `PACK`
and `UNPACK` are illegal. -/
theorem treeServesOneTranscoding : Obligations.TreeServesOneTranscoding := by
  intro i s u hi h
  have htree : u.phase ≠ .treeReady → u.treeInvalid := fun hp =>
    (exec_tree_cases hi h).resolve_left fun hloaded => hp hloaded.2
  refine ⟨fun hphase => htree ?ended, fun htranscoding => ?transcoded⟩
  case ended => rcases hphase with hp | hp <;> rw [hp] <;> decide
  case transcoded =>
    have hp : u.phase ≠ .treeReady := by rw [exec_transcoding_done htranscoding h]; decide
    exact ⟨htree hp, fun hf => (packAndUnpackNeedALoadedTree u hp hf).1,
      fun hf => (packAndUnpackNeedALoadedTree u hp hf).2⟩

/-! ### An admitted command is not refused (R251, R72, R335) -/

theorem Memory.not_written_of_read {m : List Host.Cell} {n i : Nat} (hi : i < n) (hr : Memory.read m i = none) :
    ¬Memory.written m n := fun hw => by
  have hsome := hw i hi
  rw [hr] at hsome
  cases hsome

section
variable {s : State} {r : Refusal}

theorem LdtreeOutcome.not_admitted (h : LdtreeOutcome s.issue (refuseCmd r)) : ¬s.Admits .ldtree := by
  intro hwritten
  cases h with
  | unwritten i hi hc hr => exact Memory.not_written_of_read hi hr (hwritten hc)

theorem PackOutcome.not_admitted (h : PackOutcome s.issue (refuseCmd r)) : ¬s.Admits .pack := by
  rintro ⟨hinput, hready⟩
  cases h with
  | inputTooLong hf => exact hf hinput
  | unwritten _ hp i hi hr => exact Memory.not_written_of_read hi hr (hready hp).1
  | resultTooLong _ hp d hl hh _ hr =>
    have hresult := (hready hp).2 d hl.symm hh
    rw [packBits, packedBytes_length] at hresult
    exact hr hresult

theorem UnpackOutcome.not_admitted (h : UnpackOutcome s.issue (refuseCmd r)) : ¬s.Admits .unpack := by
  rintro ⟨hinput, hresult, hready⟩
  cases h with
  | inputTooLong hf => exact hf hinput
  | resultTooLong hr => exact hr hresult
  | unwritten _ _ hp i hi hn => exact Memory.not_written_of_read hi hn (hready hp)

theorem EncodeOutcome.not_admitted (h : EncodeOutcome s.issue (refuseCmd r)) : ¬s.Admits .encode := by
  rintro ⟨hinput, hnonempty⟩
  cases h with
  | inputTooLong hf => exact hf hinput
  | unwrittenTbuf _ h0 i hi hc hr => exact Memory.not_written_of_read hi hr ((hnonempty h0).2 hc).1
  | unwrittenIbuf _ i hi hr => exact Memory.not_written_of_read hi hr (hnonempty (Nat.zero_lt_of_lt hi)).1
  | resultTooLong _ h0 t ht htl hth d hl hh _ hr =>
    have hcap : s.tlen.toNat ≤ Config.tbufCap := htl.le.trans (Tree.ser_length_le ht)
    have hresult := ((hnonempty h0).2 hcap).2 t d htl.symm hth hl.symm hh
    rw [State.issue_tlen] at htl
    rw [htl] at hresult
    exact hr hresult

theorem DecodeOutcome.not_admitted (h : DecodeOutcome s.issue (refuseCmd r)) : ¬s.Admits .decode := by
  rintro ⟨hinput, hheader⟩
  cases h with
  | inputTooLong hf => exact hf hinput
  | unwritten _ h5 i hi hr => exact Memory.not_written_of_read hi hr (hheader h5).1
  | resultTooLong _ c0 c1 c2 c3 vb t _ p hl hh _ hr =>
    have h5 : Config.headerSize ≤ (containerBytes c0 c1 c2 c3 vb t p).length := by
      simp [containerBytes, Config.headerSize]
    exact hr ((hheader (h5.trans hl.ge)).2 c0 c1 c2 c3 (vb :: (t.ser ++ p)) hl.symm hh)

theorem exec_not_admitted_of_refused {i : Instr} (h : exec i s = .refused r) : ¬s.Admits i := by
  cases i with
  | nop => cases h
  | clear => cases h
  | ldtree => exact LdtreeOutcome.not_admitted (runCommand_refused h ▸ ldtreeSteps_outcome s.issue)
  | pack => exact PackOutcome.not_admitted (runCommand_refused h ▸ packSteps_outcome s.issue)
  | unpack => exact UnpackOutcome.not_admitted (runCommand_refused h ▸ unpackSteps_outcome s.issue)
  | encode => exact EncodeOutcome.not_admitted (runCommand_refused h ▸ encodeSteps_outcome s.issue)
  | decode => exact DecodeOutcome.not_admitted (runCommand_refused h ▸ decodeSteps_outcome s.issue)

end

/-- Settles O40: a command that does not complete is refused, since `Fault` has no constructor, and what is refused is
not admitted. -/
theorem admittedCommandCompletes : Obligations.AdmittedCommandCompletes := by
  intro i s hadmits
  cases h : exec i s with
  | next u => exact ⟨u, rfl⟩
  | fault f => exact nomatch f
  | refused r => exact absurd hadmits (exec_not_admitted_of_refused h)

/-! ### `NOP` and `CLEAR` (R255, R256) -/

/-- Settles O6: the word is `NOP`'s encoding, and `NOP` answers the state it is given. -/
theorem nopWritesNothing : Obligations.NopWritesNothing :=
  ⟨(decode_eq_ok_iff_eq_encode _ .nop).mpr rfl, fun _ => rfl⟩

/-- Settles O7: `CLEAR` is issue, per-call initialisation and completion, and none of them writes what is the host's. -/
theorem clearReturnsToStart : Obligations.ClearReturnsToStart := by
  refine ⟨(decode_eq_ok_iff_eq_encode _ .clear).mpr rfl, fun s => ?_⟩
  exact ⟨_, rfl, rfl, rfl, rfl, rfl, treeInvalid_empty rfl rfl, rfl, rfl, .of_eq rfl rfl rfl rfl rfl rfl rfl, rfl, rfl⟩

/-! ### Which register an offset is (R22) -/

@[simp] theorem regAt_offset (r : Reg) : regAt r.offset = some r := by
  cases r <;> rfl

theorem offset_of_regAt {off : Nat} {r : Reg} (ho : off % 4 = 0) (h : regAt off = some r) : off = r.offset := by
  unfold regAt at h
  split at h <;> cases h <;> rw [Reg.offset] <;> omega

theorem regAt_eq_some_iff {off : Nat} (ho : off % 4 = 0) (r : Reg) : regAt off = some r ↔ off = r.offset :=
  ⟨offset_of_regAt ho, fun h => h ▸ regAt_offset r⟩

theorem regAt_beyond {off : Nat} (h : 0x1C ≤ off) : regAt off = none := by
  unfold regAt
  split
  case h_8 => rfl
  all_goals omega

/-! ### Host accesses of an idle block (R258, R259, R260) -/

section
variable {s : State} {off : Nat}

theorem hostAccess_regRead (hb : s.busy = false) (ho : off % 4 = 0) :
    hostAccess (.regRead 32 off) s = .next (s.saw (.reg off (s.readReg (regAt off)))) := by
  rw [hostAccess, hostRegRead, (regAccessRefusal_eq_none_iff 32 off).mpr ⟨rfl, ho⟩, hb]
  rfl

theorem hostAccess_regWrite_cmd (hb : s.busy = false) (v : Word) :
    hostAccess (.regWrite 32 (Reg.offset .cmd) v) s = issueWord v s :=
  hostAccess_cmdWrite hb v

theorem hostAccess_regWrite (hb : s.busy = false) (ho : off % 4 = 0) (h0 : off ≠ Reg.offset .cmd) (v : Word) :
    hostAccess (.regWrite 32 off v) s = .next (s.writeReg (regAt off) v) := by
  rw [hostAccess, hostWrite, (regAccessRefusal_eq_none_iff 32 off).mpr ⟨rfl, ho⟩]
  simp [regAt_eq_some_iff ho, h0, hostRegWrite, hb]

theorem hostAccess_bufWrite {b : Buffer} {i : Nat} (hb : s.busy = false) (hi : i < s.capacity b) (v : Byte) :
    hostAccess (.bufWrite b i v) s = .next (s.writeBuffer b i v) := by
  rw [hostAccess, hostBufWrite, if_neg (by simp [hb]), if_pos hi]

end

/-- The fields of `STATUS` stand where R25 puts them. -/
theorem statusWord_fields (p : BitVec 3) (e : BitVec 4) (b : Bool) :
    (statusWord p e b).extractLsb' 0 1 = BitVec.ofBool b ∧ (statusWord p e b).extractLsb' 1 3 = 0#3 ∧
    (statusWord p e b).extractLsb' 4 4 = e ∧ (statusWord p e b).extractLsb' 8 3 = p ∧
    (statusWord p e b).extractLsb' 11 21 = 0#21 := by
  have above {m n start len : Nat} {x : BitVec m} {y : BitVec n} (h : n ≤ start) :
      (x ++ y).extractLsb' start len = x.extractLsb' (start - n) len := BitVec.extractLsb'_append_eq_of_le h
  refine ⟨?busy, ?unassigned, ?err, ?phase, ?upper⟩
  case busy => exact BitVec.extractLsb'_append_eq_right
  case unassigned => exact (above (by decide)).trans BitVec.extractLsb'_append_eq_right
  case err => exact (above (by decide)).trans ((above (by decide)).trans BitVec.extractLsb'_append_eq_right)
  case phase =>
    exact (above (by decide)).trans ((above (by decide)).trans
      ((above (by decide)).trans BitVec.extractLsb'_append_eq_right))
  case upper =>
    exact (above (by decide)).trans ((above (by decide)).trans
      ((above (by decide)).trans BitVec.extractLsb'_append_eq_left))

theorem statusWord_getLsbD_zero (p : BitVec 3) (e : BitVec 4) (b : Bool) : (statusWord p e b).getLsbD 0 = b :=
  BitVec.getLsbD_append.trans (by simp)

/-- Settles O44: an aligned read is recorded with the register at its offset, and is 0 where there is none. -/
theorem registerReadsReturnTheFields : Obligations.RegisterReadsReturnTheFields := by
  intro s off hbusy haligned
  refine ⟨_, hostAccess_regRead hbusy haligned, ?cmd, ?status, ?ilen, ?tlen, ?olen, ?vbits, ?symcnt, ?beyond⟩
  case status =>
    rintro rfl
    have hread : s.readReg (regAt 4) = statusWord s.phase.code (errField s.err) false :=
      congrArg (statusWord _ _) hbusy
    rw [hread]
    exact statusWord_fields _ _ false
  case tlen => rintro rfl; exact BitVec.toNat_setWidth_of_le (by decide)
  case vbits => rintro rfl; exact BitVec.toNat_setWidth_of_le (by decide)
  case beyond => intro h; rw [regAt_beyond h]; rfl
  all_goals rintro rfl; rfl

/-- Settles O45: an aligned write to `CMD` issues its word, and any other sets the low bits of the register at its
offset. -/
theorem registerWritesSetTheFields : Obligations.RegisterWritesSetTheFields := by
  intro s off v hbusy haligned
  refine ⟨fun h => h ▸ hostAccess_regWrite_cmd hbusy v, fun h0 => ?_⟩
  refine ⟨_, hostAccess_regWrite hbusy haligned h0 v, ?ilen, ?tlen, ?vbits, ?symcnt, ?ignored⟩
  case tlen => rintro rfl; rw [BitVec.setWidth_eq_extractLsb' (by decide)]; rfl
  case vbits => rintro rfl; rw [BitVec.setWidth_eq_extractLsb' (by decide)]; rfl
  case ignored =>
    rintro (rfl | rfl | h)
    · rfl
    · rfl
    · rw [regAt_beyond h]; rfl
  all_goals rintro rfl; rfl

/-! ### What a buffer write changes (R260) -/

theorem State.buffer_writeBuffer (s : State) {b : Buffer} (hb : b ≠ .obuf) (c : Buffer) (i : Nat) (v : Byte) :
    (s.writeBuffer b i v).buffer c = if c = b then Memory.write (s.buffer b) i v else s.buffer c := by
  cases b with
  | ibuf => cases c <;> rfl
  | tbuf => cases c <;> rfl
  | obuf => exact absurd rfl hb

theorem State.byteAt_writeBuffer_self (s : State) {b : Buffer} (hb : b ≠ .obuf) (i : Nat) (v : Byte) :
    (s.writeBuffer b i v).byteAt b i = v := by
  refine State.byteAt_of_read ?_
  rw [s.buffer_writeBuffer hb, if_pos rfl, Memory.read_write_self]

theorem State.read_writeBuffer_ne (s : State) {b c : Buffer} {i j : Nat} (h : (c, j) ≠ (b, i)) (v : Byte) :
    Memory.read ((s.writeBuffer b i v).buffer c) j = Memory.read (s.buffer c) j := by
  by_cases hb : b = .obuf
  case pos => subst hb; rfl
  rw [s.buffer_writeBuffer hb]
  split
  next hc =>
    subst hc
    exact Memory.read_write_ne _ v fun hij => h (by rw [hij])
  next => rfl

theorem State.freeIndex_writeBuffer (s : State) (b c : Buffer) (i : Nat) (v : Byte) :
    (s.writeBuffer b i v).freeIndex c = s.freeIndex c := by
  cases b <;> cases c <;> rfl

theorem State.byteAt_writeBuffer_ne (s : State) {b c : Buffer} {i j : Nat} (h : (c, j) ≠ (b, i)) (v : Byte) :
    (s.writeBuffer b i v).byteAt c j = s.byteAt c j := by
  rw [State.byteAt, State.byteAt, s.read_writeBuffer_ne h, s.freeIndex_writeBuffer]

/-- A buffer write touches `IBUF` and `TBUF` only. -/
theorem State.writeBuffer_eq (s : State) (b : Buffer) (i : Nat) (v : Byte) :
    s.writeBuffer b i v = { s with ibuf := (s.writeBuffer b i v).ibuf, tbuf := (s.writeBuffer b i v).tbuf } := by
  cases b <;> rfl

/-- Settles O46: below the capacity the write is made, and all it touches is one byte of `IBUF` or `TBUF`. -/
theorem bufferWritesSetOneByte : Obligations.BufferWritesSetOneByte := by
  intro s b i v hbusy hi
  refine ⟨_, hostAccess_bufWrite hbusy hi v, ?obuf, fun c j h => s.byteAt_writeBuffer_ne h v,
    fun hb => s.byteAt_writeBuffer_self hb i v, ?frame⟩
  case obuf => rintro rfl; rfl
  case frame =>
    rw [s.writeBuffer_eq]
    exact ⟨rfl, rfl, rfl, rfl, rfl, rfl, rfl, rfl, rfl, rfl, rfl⟩

/-! ### Host accesses while `BUSY = 1` (R261, R340) -/

section
variable {s : State} {off : Nat}

theorem hostAccess_regRead_busy (hb : s.busy = true) (ho : off % 4 = 0) (h : off ≠ Reg.offset .status) :
    hostAccess (.regRead 32 off) s = .refused .accessWhileBusy := by
  rw [hostAccess, hostRegRead, (regAccessRefusal_eq_none_iff 32 off).mpr ⟨rfl, ho⟩]
  simp [regAt_eq_some_iff ho, h, hb]

theorem hostAccess_regWrite_busy (hb : s.busy = true) (ho : off % 4 = 0) (v : Word) :
    hostAccess (.regWrite 32 off v) s = .refused .accessWhileBusy := by
  rw [hostAccess, hostWrite, (regAccessRefusal_eq_none_iff 32 off).mpr ⟨rfl, ho⟩]
  simp [hostRegWrite, hb]

theorem hostAccess_bufRead_busy (hb : s.busy = true) (b : Buffer) (i : Nat) :
    hostAccess (.bufRead b i) s = .refused .accessWhileBusy := if_pos hb

theorem hostAccess_bufWrite_busy (hb : s.busy = true) (b : Buffer) (i : Nat) (v : Byte) :
    hostAccess (.bufWrite b i v) s = .refused .accessWhileBusy := if_pos hb

theorem hostAccess_statusRead_busy (hb : s.busy = true) :
    hostAccess (.regRead 32 (Reg.offset .status)) s =
      .next (({ s with free := { s.free with draws := s.free.draws + 1 } } : State).saw
        (.reg (Reg.offset .status) s.busyStatus)) := if_pos hb

end

/-- Settles O50: `BUSY = 1` is tested after the shape and before anything else, and the word a `STATUS` read returns has
its `BUSY` bit set whatever the free values of its other fields are. -/
theorem busyBlockShowsOnlyStatus : Obligations.BusyBlockShowsOnlyStatus := by
  intro s hbusy
  refine ⟨⟨_, s.busyStatus, hostAccess_statusRead_busy hbusy, rfl, statusWord_getLsbD_zero _ _ _, rfl⟩,
    fun off ho h => hostAccess_regRead_busy hbusy ho h, fun off v ho => hostAccess_regWrite_busy hbusy ho v,
    fun b i v => ⟨hostAccess_bufRead_busy hbusy b i, hostAccess_bufWrite_busy hbusy b i v⟩⟩

end Sys2Proof.Machine

/-! PROOFS. Taking an exception, and the idle block (spec 60_exceptions.md R283, R312). -/

namespace Sys2Proof.Machine

/-! ### Taking an exception (R283) -/

/-- A command issues with `ERR = 0`, so an error it ends with is one that it raised itself. -/
theorem exec_raises_of_err {i : Instr} {s u : State} {e : ErrCode} (hi : i ≠ .nop) (h : exec i s = .next u)
    (herr : u.err = some e) : u = s.issue.raise e := by
  rcases exec_next_cases hi h with ⟨e', rfl⟩ | ⟨-, rfl⟩ | ⟨-, t, -, -, -, rfl⟩ |
      ⟨-, r, vb, x, -, -, hnone, -, -, -, -, rfl⟩ | ⟨-, r, x, -, -, hnone, -, -, -, -, -, -, rfl⟩
  · cases herr; rfl
  · cases herr
  · cases herr
  · cases hnone.symm.trans herr
  · cases hnone.symm.trans herr

/-- Settles O38: a command that ends with an error is one that raised it, and an error raised is a failed call. -/
theorem raisedErrorEndsTheCall : Obligations.RaisedErrorEndsTheCall := by
  intro i s u e hi h herr
  rw [exec_raises_of_err hi h herr]
  exact s.raise_failed e

/-! ### The idle block (R312) -/

theorem step_of_no_script {s : State} (h : s.host.script = []) : step s = idle s := by
  rw [step, h]

theorem idle_of_not_busy {s : State} (hb : s.busy = false) : idle s = .next s := if_neg (by simp [hb])

/-- Settles O5: with no access to come a step is `idle`, which answers the state it is given while `BUSY = 0`. -/
theorem idleBlockHoldsItsState : Obligations.IdleBlockHoldsItsState :=
  fun _ hbusy hscript => (step_of_no_script hscript).trans (idle_of_not_busy hbusy)

end Sys2Proof.Machine

/-! PROOFS. Hardware reset and the state after it (spec 70_reset_and_hazards.md R330, R331, 10_state.md R50). -/

namespace Sys2Proof.Machine

/-! ### What a block at its reset values shows -/

/-- R25: `STATUS` is built from `PHASE`, `ERR` and `BUSY`, and `Start`, no error and an idle block all have code 0. -/
theorem State.status_eq_zero {s : State} (hphase : s.phase = .start) (herr : s.err = none) (hbusy : s.busy = false) :
    s.status = 0#32 := by
  rw [State.status, hphase, herr, hbusy]
  decide

theorem State.read_buffer_eq_none {s : State} (hibuf : s.ibuf = []) (htbuf : s.tbuf = []) (hobuf : s.obuf = [])
    (b : Buffer) (i : Nat) : Memory.read (s.buffer b) i = none := by
  have hempty : s.buffer b = [] := by
    cases b with
    | ibuf => exact hibuf
    | tbuf => exact htbuf
    | obuf => exact hobuf
  rw [hempty, Memory.read_nil]

/-! ### The reset step (R330, R331) -/

/-- Reset looks at no register, so the step completes also while `BUSY = 1`. -/
theorem step_of_reset {s : State} {rest : List HostAccess} (h : s.host.script = .reset :: rest) :
    step s = .next s.takeAccess.hardReset := step_of_script h

theorem State.takeAccess_script {s : State} {a : HostAccess} {rest : List HostAccess} (h : s.host.script = a :: rest) :
    s.takeAccess.host.script = rest := by
  rw [State.takeAccess_host, h, List.tail_cons]

/-- `State.reset` has no access to come and `BUSY = 0`, so a step from it is idle (R312). -/
theorem step_reset : step State.reset = .next State.reset :=
  idleBlockHoldsItsState State.reset rfl rfl

/-- Settles O51: a reset step answers `hardReset` whatever the state, which has the fields of `State.reset` but for the
capacities, the host and the free values; both states show the block at its reset values. -/
theorem resetGivesTheResetState : Obligations.ResetGivesTheResetState := by
  refine ⟨fun s rest hscript => ⟨_, step_of_reset hscript, ?_⟩, ?_⟩
  · exact ⟨State.status_eq_zero rfl rfl rfl, rfl, rfl, rfl, rfl, rfl, rfl, rfl, rfl, treeInvalid_empty rfl rfl,
      State.read_buffer_eq_none rfl rfl rfl, rfl, rfl, State.takeAccess_script hscript⟩
  · exact ⟨State.status_eq_zero rfl rfl rfl, rfl, rfl, rfl, rfl, rfl, treeInvalid_empty rfl rfl,
      State.read_buffer_eq_none rfl rfl rfl, step_reset⟩

end Sys2Proof.Machine
